-- ==== Sys2Proof/Word.lean ====
section
/-! DEFINITION. The word types of the machine: bytes, 16-bit fields, the 32-bit command pointer. -/

namespace Sys2Proof

/-- A byte on the bus, a character code, a glyph row (R8). -/
abbrev Byte := BitVec 8

/-- A coordinate, a colour, an operand field, a TEXT address: 16 bits, unsigned (R6, R8).
`a + b` on it is the spec's `a +16 b`. -/
abbrev Half := BitVec 16

/-- The command-stream pointer: a 32-bit byte offset into CMD (R21). -/
abbrev Ptr := BitVec 32

/-- The level of a digital line: `false` is 0 (low), `true` is 1 (high) (R10). -/
abbrev Level := Bool

end Sys2Proof
end

