-- ==== Sys2Proof/Config.lean ====
section
/-! DEFINITION. The constants and parameters of rule R6, the constraints of rule R7, and the free values of the model:
opaque constants with no body, of which no proof can see a value. -/

namespace Sys2Proof.Config

/-- PANEL_W, panel width in pixels (R6). -/
def panelW : Nat := 320
/-- PANEL_H, panel height in pixels (R6). -/
def panelH : Nat := 240
/-- PIXFMT_16, payload of the set-pixel-format command (R6, R63). -/
def pixfmt16 : Byte := 0x05
/-- GLYPH_W, GLYPH_H: a glyph is 8 by 8, one byte a row (R6). -/
def glyphW : Nat := 8
/-- GLYPH_PITCH, cursor advance per character (R6). -/
def glyphPitch : Nat := 8
/-- LINE_PITCH, cursor advance per text line (R6). -/
def linePitch : Nat := 10
/-- NEWLINE, the newline character code (R6, D22; PRESUMED: ASCII, which the spec itself takes from general knowledge). -/
def newline : Byte := 0x0A
/-- FALLBACK, the code of the glyph '?' (R6, D22; PRESUMED as `newline`). -/
def fallback : Byte := 0x3F
/-- DESC_LEN, bytes in a host descriptor (R6, R68). -/
def descLen : Nat := 12
/-- The least hold of the reset line before and after its rising edge, in ms (R82, R150). -/
def resetHold : Nat := 10
/-- The least wait between sleep-out and display-on, in ms (R84, R155). -/
def slpoutWait : Nat := 120

/-- MADCTL_VAL where no platform has given it: a free value (R6 OPEN, log 6). -/
opaque madctlVal : Byte
/-- BUS_ID where no platform has given it: a free value (R6 OPEN, log 6). -/
opaque busId : Nat
/-- CHANNEL where no platform has given it: a free value (R6 OPEN, log 6). -/
opaque channel : Nat
/-- BAUD where no platform has given it: a free value (R6 OPEN, log 6). -/
opaque baud : Nat
/-- GPIO_CHIP where no platform has given it: a free value (R6 OPEN, log 6). -/
opaque gpioChip : Nat

/-- The transport's answer to the n-th response-bearing event of a run, where the state lists none: a free value
(R11, D37, log 5). `true` is ok, `false` is fail. -/
opaque envAccepts : Nat → Bool
/-- The byte of CMD at an address where nothing has been placed: a free value (R37, log 8). -/
opaque cmdByte : Nat → Byte
/-- The byte of TEXT at an address where nothing has been placed: a free value (R38, log 8). -/
opaque textByte : Nat → Byte
/-- The byte of the glyph ROM at an address where nothing has been placed: a free value (R39, D33, log 8). -/
opaque glyphByte : Nat → Byte

end Sys2Proof.Config

namespace Sys2Proof

/-- What INIT acquires and TEARDOWN releases: the bus and the three lines (R16, R81). -/
inductive Resource where
  | bus | dc | rst | bl
deriving DecidableEq, Repr

/-- The reference order of TEARDOWN's releases (R89, R90). -/
def Resource.referenceOrder : List Resource := [.bl, .rst, .dc, .bus]

/-- The parameters of rule R6 that are arguments of the model: fixed for a run, different between platforms (R29). -/
structure Params where
  /-- CHUNK_MAX, the most bytes in one data transfer. -/
  chunkMax : Nat
  /-- XFER_MAX, the transport's maximum single-transfer length. -/
  xferMax : Nat
  /-- T_RST_LOW, ms. -/
  tRstLow : Nat
  /-- T_RST_HIGH, ms. -/
  tRstHigh : Nat
  /-- T_SLPOUT, ms. -/
  tSlpout : Nat
  /-- MADCTL_VAL, payload of the memory-access-control command. -/
  madctlVal : Byte
  /-- BUS_ID. -/
  busId : Nat
  /-- CHANNEL. -/
  channel : Nat
  /-- BAUD. -/
  baud : Nat
  /-- GPIO_CHIP, the chipHandle of the pin calls. -/
  gpioChip : Nat
  /-- LINE_DC. -/
  lineDc : Nat
  /-- LINE_RST. -/
  lineRst : Nat
  /-- LINE_BL. -/
  lineBl : Nat
  /-- DC_INIT. -/
  dcInit : Level
  /-- RST_INIT. -/
  rstInit : Level
  /-- BL_INIT. -/
  blInit : Level
  /-- BL_ON, the level that enables the backlight. -/
  blOn : Level
  /-- The order in which TEARDOWN releases what is claimed: "in any order" (R89), so any permutation (R90, log 17). -/
  releaseOrder : List Resource
deriving DecidableEq, Repr

/-- The constraints of rule R7, that the three lines are distinct (D14), and that the order of releases names each resource
once (R90). A configuration that breaks one is ill-formed and has no meaning (R7). DESIGN CHOICE (log 31): R7 names no
constraint on BL_INIT and BL_ON, so all four pairs are accepted; where the two are equal the backlight is lit from its claim
(R81). -/
def Params.ok (p : Params) : Bool :=
  decide (1 ≤ p.chunkMax) && decide (p.chunkMax ≤ p.xferMax) &&
  decide (Config.resetHold ≤ p.tRstLow) && decide (Config.resetHold ≤ p.tRstHigh) &&
  decide (Config.slpoutWait ≤ p.tSlpout) &&
  decide (p.lineDc ≠ p.lineRst) && decide (p.lineDc ≠ p.lineBl) && decide (p.lineRst ≠ p.lineBl) &&
  p.releaseOrder.isPerm Resource.referenceOrder

/-- The parameters at power-on: the defaults of rule R6 where it gives one, a free value where it says OPEN.
DESIGN CHOICE (log 6): XFER_MAX is 4096, the least the constraint allows, and the line ids are 0, 1, 2, so that
the constraints can be evaluated; no other rule reads these four. The order of releases is the reference order (log 17). -/
def Params.default : Params where
  chunkMax := 4096
  xferMax := 4096
  tRstLow := 10
  tRstHigh := 10
  tSlpout := 120
  madctlVal := Config.madctlVal
  busId := Config.busId
  channel := Config.channel
  baud := Config.baud
  gpioChip := Config.gpioChip
  lineDc := 0
  lineRst := 1
  lineBl := 2
  dcInit := false
  rstInit := true
  blInit := false
  blOn := true
  releaseOrder := Resource.referenceOrder

end Sys2Proof
end

