-- ==== Sys2Proof/Syntax.lean ====
section
/-! DEFINITION. The instructions: one constructor per row of spec/opcode_table.json, and the wire item and wire command
names the two encoding spaces of rule R59 are built from. -/

namespace Sys2Proof

/-- A wire item (R59): the DC level during the transfer and one byte. `dc = false` is `C(b)`, `dc = true` is `D(b)`. -/
structure Item where
  /-- The level of the DC line: `false` a command byte, `true` a data byte. -/
  dc : Level
  /-- The byte. -/
  byte : Byte
deriving DecidableEq, Repr

/-- The seven wire commands, the complete wire opcode map (R62). -/
inductive WireCmd where
  | pixfmt | memctl | slpout | dispon | colset | rowset | memwr
deriving DecidableEq, Repr

/-- The instructions of spec/opcode_table.json: seven wire commands (R62) and six host operations (R71). -/
inductive Instr where
  /-- W_PIXFMT, set pixel format, payload `p` (R104, R152). -/
  | wPixfmt (p : Byte)
  /-- W_MEMCTL, memory access control, payload `p` (R105, R153). -/
  | wMemctl (p : Byte)
  /-- W_SLPOUT, sleep out (R106, R154). -/
  | wSlpout
  /-- W_DISPON, display on (R107, R155). -/
  | wDispon
  /-- W_COLSET, column address set, first column `a`, last column `b` (R108, R156). -/
  | wColset (a b : Half)
  /-- W_ROWSET, row address set, first row `a`, last row `b` (R109, R157). -/
  | wRowset (a b : Half)
  /-- W_MEMWR, memory write, followed by the pixels `cs` (R110, R158). -/
  | wMemwr (cs : List Half)
  /-- INIT (R80). -/
  | init
  /-- TEARDOWN (R89). -/
  | teardown
  /-- SETWIN x0, x1, y0, y1 (R113). -/
  | setwin (x0 x1 y0 y1 : Half)
  /-- DRAWPIXEL x, y, color (R117). -/
  | drawpixel (x y color : Half)
  /-- FILLSCREEN color (R119). -/
  | fillscreen (color : Half)
  /-- DRAWTEXT x, y, color, @addr, len (R127). -/
  | drawtext (x y color addr len : Half)
deriving DecidableEq, Repr

end Sys2Proof
end

