-- ==== Sys2Proof/WellFormed.lean ====
section
/-! DEFINITION. Which instructions are well formed. Every operand field is taken as it stands, with no range check
(R72, R114, R118); the one bound is on the pixel stream of W_MEMWR. -/

namespace Sys2Proof

/-- The most pixels a memory write can carry: a window holds at most 320 * 240 (R115). -/
def maxPixels : Nat := Config.panelW * Config.panelH

/-- An instruction is well formed when its pixel stream, if it has one, is no longer than the largest window (R115);
every other operand is legal at every value (R72). -/
def Instr.wellFormed : Instr → Bool
  | .wMemwr cs => decide (cs.length ≤ maxPixels)
  | .wPixfmt _ => true
  | .wMemctl _ => true
  | .wSlpout => true
  | .wDispon => true
  | .wColset _ _ => true
  | .wRowset _ _ => true
  | .init => true
  | .teardown => true
  | .setwin _ _ _ _ => true
  | .drawpixel _ _ _ => true
  | .fillscreen _ => true
  | .drawtext _ _ _ _ _ => true

end Sys2Proof
end

