-- ==== Sys2Proof/Decode.lean ====
section
/-! DEFINITION. The decoders of the two encoding spaces (R59), total and rejecting by name, and after them the encoders,
both written from the encoding tables of 30_encoding.md. Also the byte-order helpers of rules R8 and R42. -/

namespace Sys2Proof

/-- `hi8(v) = v[15:8]` (R8). -/
def hi8 (v : Half) : Byte := v.extractLsb' 8 8

/-- `lo8(v) = v[7:0]` (R8). -/
def lo8 (v : Half) : Byte := v.extractLsb' 0 8

/-- `(first << 8) | second`: a 16-bit value from its two bytes, most significant first (R42, R64). -/
def be16 (first second : Byte) : Half := first ++ second

/-- The two bytes of a 16-bit value, most significant first (R42). -/
def bytes16 (v : Half) : List Byte := [hi8 v, lo8 v]

/-- The command code of a wire command (R62). DESIGN CHOICE (log 33): W_SLPOUT is 0x11, the `op` of DRAWPIXEL too, where R59 says
that no host opcode equals a wire command code. -/
def WireCmd.code : WireCmd → Byte
  | .pixfmt => 0x3A
  | .memctl => 0x36
  | .slpout => 0x11
  | .dispon => 0x29
  | .colset => 0x2A
  | .rowset => 0x2B
  | .memwr => 0x2C

/-- The wire command of a code, or none where the code is reserved (R62, R67). -/
def WireCmd.ofCode (b : Byte) : Option WireCmd :=
  if b = 0x3A then some .pixfmt
  else if b = 0x36 then some .memctl
  else if b = 0x11 then some .slpout
  else if b = 0x29 then some .dispon
  else if b = 0x2A then some .colset
  else if b = 0x2B then some .rowset
  else if b = 0x2C then some .memwr
  else none

/-- How many data items the command code fixes (R66); W_MEMWR's stream is fixed by the window, not by the code, and is
counted from none. -/
def WireCmd.payload : WireCmd → Nat
  | .pixfmt => 1
  | .memctl => 1
  | .slpout => 0
  | .dispon => 0
  | .colset => 4
  | .rowset => 4
  | .memwr => 0

/-- Why bytes or items are no instruction. -/
inductive Reject where
  /-- The descriptor's `op` is not one of the six (R73). -/
  | unknownOp (op : Byte)
  /-- The descriptor's `rsv` byte is not zero (R73). -/
  | reservedNotZero
  /-- A field the descriptor's format leaves unused is not zero (R73). -/
  | unusedNotZero
  /-- There are not exactly 12 bytes (R68). -/
  | notTwelveBytes
  /-- There is no wire item. -/
  | noItems
  /-- The first item is a data item: no command is open (R60). -/
  | dataFirst
  /-- The command code is reserved (R67). -/
  | unknownCode (b : Byte)
  /-- The payload is cut short by the end or by the next command item (R66). -/
  | payloadShort
deriving DecidableEq, Repr

/-- The instruction `i`, if all the fields the format leaves unused are zero (R70, R73). -/
def whenUnused (unused : List Half) (i : Instr) : Except Reject Instr :=
  if unused.all (fun v => v == 0) then .ok i else .error .unusedNotZero

/-- The operation of a descriptor with these fields (R70, R71). DESIGN CHOICE (log 33): DRAWPIXEL is 0x11, the code of W_SLPOUT too,
where R59 says that no host opcode equals a wire command code. -/
def decodeFields (op : Byte) (a b c d e : Half) : Except Reject Instr :=
  if op = 0x01 then whenUnused [a, b, c, d, e] .init
  else if op = 0x02 then whenUnused [a, b, c, d, e] .teardown
  else if op = 0x10 then whenUnused [e] (.setwin a b c d)
  else if op = 0x11 then whenUnused [d, e] (.drawpixel a b c)
  else if op = 0x12 then whenUnused [b, c, d, e] (.fillscreen a)
  else if op = 0x13 then .ok (.drawtext a b c d e)
  else .error (.unknownOp op)

/-- The decoder of host space: 12 bytes, byte 0 first, each field most significant byte first (R68, R69, R73). -/
def decodeHost : List Byte → Except Reject Instr
  | [op, rsv, a1, a0, b1, b0, c1, c0, d1, d0, e1, e0] =>
    if rsv = 0 then decodeFields op (be16 a1 a0) (be16 b1 b0) (be16 c1 c0) (be16 d1 d0) (be16 e1 e0)
    else match decodeFields op 0 0 0 0 0 with
      | .ok _ => .error .reservedNotZero
      | .error r => .error r
  | _ => .error .notTwelveBytes

/-- The first `n` items as bytes and what follows them, if all are data items (R60). -/
def takeData : Nat → List Item → Option (List Byte × List Item)
  | 0, rest => some ([], rest)
  | n + 1, it :: rest =>
    if it.dc then (takeData n rest).map fun p => (it.byte :: p.1, p.2) else none
  | _ + 1, [] => none

/-- At most `n` pixels from the front of the items, two data items each, and what follows them (R61, R65). -/
def takePixels (n : Nat) : List Item → List Half × List Item
  | h :: l :: rest =>
    if n ≠ 0 ∧ h.dc = true ∧ l.dc = true then
      let p := takePixels (n - 1) rest
      (be16 h.byte l.byte :: p.1, p.2)
    else ([], h :: l :: rest)
  | [it] => ([], [it])
  | [] => ([], [])

/-- A payload of one byte (format W1, R61). -/
def oneByte (bytes : List Byte) (f : Byte → Instr) : Except Reject Instr :=
  match bytes with
  | [p] => .ok (f p)
  | _ => .error .payloadShort

/-- A payload of two 16-bit values, most significant byte first (format W4, R61, R64). -/
def twoHalves (bytes : List Byte) (f : Half → Half → Instr) : Except Reject Instr :=
  match bytes with
  | [a1, a0, b1, b0] => .ok (f (be16 a1 a0) (be16 b1 b0))
  | _ => .error .payloadShort

/-- The instruction of a wire command with the payload bytes its code fixes, and the items after it (R60, R61). -/
def decodePayload (c : WireCmd) (bytes : List Byte) (rest : List Item) : Except Reject (Instr × List Item) :=
  match c with
  | .pixfmt => (oneByte bytes .wPixfmt).map fun i => (i, rest)
  | .memctl => (oneByte bytes .wMemctl).map fun i => (i, rest)
  | .slpout => .ok (.wSlpout, rest)
  | .dispon => .ok (.wDispon, rest)
  | .colset => (twoHalves bytes .wColset).map fun i => (i, rest)
  | .rowset => (twoHalves bytes .wRowset).map fun i => (i, rest)
  | .memwr => .ok (.wMemwr (takePixels maxPixels rest).1, (takePixels maxPixels rest).2)

/-- The decoder of wire space: the wire instruction at the front of a sequence of items, and the items after it
(R60 to R67). A W_MEMWR takes the data items that follow it in pairs, up to the next command item (R66). -/
def decodeWire : List Item → Except Reject (Instr × List Item)
  | [] => .error .noItems
  | it :: rest =>
    if it.dc then .error .dataFirst
    else match WireCmd.ofCode it.byte with
      | none => .error (.unknownCode it.byte)
      | some c =>
        match takeData c.payload rest with
        | none => .error .payloadShort
        | some (bytes, rest') => decodePayload c bytes rest'

/-- What an instruction is encoded as: 12 bytes of CMD (R68), or a sequence of wire items (R60). -/
inductive Code where
  /-- A host descriptor, byte 0 first. -/
  | host (bytes : List Byte)
  /-- A wire instruction, first item first. -/
  | wire (items : List Item)
deriving DecidableEq, Repr

/-- A code in either space to its instruction; a wire sequence must be one instruction and nothing after it. -/
def decode : Code → Except Reject Instr
  | .host bytes => decodeHost bytes
  | .wire items =>
    match decodeWire items with
    | .error r => .error r
    | .ok (i, []) => .ok i
    | .ok (_, it :: _) => if it.dc then .error .dataFirst else .error (.unknownCode it.byte)

/-- A descriptor from its fields: `op`, a zero `rsv`, then A to E, most significant byte first (R43, R69). -/
def descriptorOf (op : Byte) (a b c d e : Half) : List Byte :=
  [op, 0, hi8 a, lo8 a, hi8 b, lo8 b, hi8 c, lo8 c, hi8 d, lo8 d, hi8 e, lo8 e]

/-- Data items carrying these bytes (R59). -/
def dataItems (bytes : List Byte) : List Item := bytes.map fun b => ⟨true, b⟩

/-- The bytes of a pixel stream, each pixel most significant byte first (R65). -/
def pixelBytes (cs : List Half) : List Byte := cs.flatMap bytes16

/-- A wire instruction's items: its command item, then its payload (R60). -/
def wireCode (c : WireCmd) (payload : List Byte) : List Item := ⟨false, c.code⟩ :: dataItems payload

/-- The encoder of both spaces (R60 to R62 and R68 to R71). -/
def encode : Instr → Code
  | .wPixfmt p => .wire (wireCode .pixfmt [p])
  | .wMemctl p => .wire (wireCode .memctl [p])
  | .wSlpout => .wire (wireCode .slpout [])
  | .wDispon => .wire (wireCode .dispon [])
  | .wColset a b => .wire (wireCode .colset (bytes16 a ++ bytes16 b))
  | .wRowset a b => .wire (wireCode .rowset (bytes16 a ++ bytes16 b))
  | .wMemwr cs => .wire (wireCode .memwr (pixelBytes cs))
  | .init => .host (descriptorOf 0x01 0 0 0 0 0)
  | .teardown => .host (descriptorOf 0x02 0 0 0 0 0)
  | .setwin x0 x1 y0 y1 => .host (descriptorOf 0x10 x0 x1 y0 y1 0)
  | .drawpixel x y color => .host (descriptorOf 0x11 x y color 0 0)
  | .fillscreen color => .host (descriptorOf 0x12 color 0 0 0 0)
  | .drawtext x y color addr len => .host (descriptorOf 0x13 x y color addr len)

/-- The 12 bytes of a 96-bit descriptor numbered as spec/opcode_table.json numbers it: byte k is `d[95-8k : 88-8k]`
(R69). -/
def tableBytes (w : Nat) : List Byte :=
  (List.range Config.descLen).map fun k => BitVec.ofNat 8 (w >>> (8 * (11 - k)))

/-- The items of a wire row numbered as spec/opcode_table.json numbers it: the 9-bit item `w` (bit 8 is dc, R61), then
as many zero data items as its code fixes (log 3). -/
def tableItems (w : Nat) : List Item :=
  let b : Byte := BitVec.ofNat 8 w
  ⟨w.testBit 8, b⟩ :: dataItems (List.replicate (((WireCmd.ofCode b).map WireCmd.payload).getD 0) 0)

/-- The instruction the decoder reads from a table word: a row of at most 16 bits is a wire item (9 bits, in whole bytes
16), a longer one a host descriptor of 96 bits (log 3). -/
def decodeTableWord (nbits w : Nat) : Option Instr :=
  if nbits ≤ 16 then
    if w < 512 then
      match decode (.wire (tableItems w)) with
      | .ok i => some i
      | .error _ => none
    else none
  else if w < 2 ^ 96 then
    match decode (.host (tableBytes w)) with
    | .ok i => some i
    | .error _ => none
  else none

end Sys2Proof
end

