-- ==== Sys2Proof/Machine/State.lean ====
section
/-! DEFINITION. The state of the machine: everything 10_state.md gives the engine, its address spaces and the receiver,
the parameters and inputs of a run, the reasons a step can stop, and the state right after power-on reset (R30). -/

namespace Sys2Proof.Machine

/-- Sparse data by address: (address, value) pairs, addresses strictly rising; an address that is not listed holds no
value the model knows (log 8, log 12). -/
abbrev Mem (α : Type) := List (Nat × α)

/-- A byte-addressed space: CMD (R37), TEXT (R38), GLYPH (R39). -/
abbrev Memory := List Host.Cell

/-- The receiver's frame memory FB (R40): rows by `y`, in each row pixels by `x`; a pixel that is not listed is
`unspecified` (R28). -/
abbrev FrameMem := Mem (Mem Half)

/-- LC, the lifecycle register (R14). -/
inductive Lifecycle where
  | uninitialized | initializing | ready | failed
deriving DecidableEq, Repr

/-- A digital output line (R10). -/
inductive Line where
  | dc | rst | bl
deriving DecidableEq, Repr

/-- The environment's answer to OpenBus, Claim or Xfer (R11). A short write is `fail` (D7). -/
inductive Response where
  | ok | fail
deriving DecidableEq, Repr

/-- The event alphabet (R10), with the response of each response-bearing event (R23). DESIGN CHOICE (log 30): OpenBus carries
BUS_ID, CHANNEL and BAUD, as R10, R80 and R88 write it, where U15 says that no event carries them. -/
inductive Event where
  | openBus (busId channel baud : Nat) (r : Response)
  | closeBus
  | claim (l : Line) (v : Level) (r : Response)
  | release (l : Line)
  | pin (l : Line) (v : Level)
  | xfer (bytes : List Byte) (r : Response)
  | delay (ms : Nat)
deriving DecidableEq, Repr

/-- The control states of the glyph expander in small-step form (R146). -/
inductive TextPhase where
  /-- `T_FETCH`. -/
  | fetch
  /-- `T_ROW`. -/
  | row
  /-- `T_BIT`. -/
  | bit
  /-- `T_BIT` again, where the window machine has returned to it. -/
  | pixelDone
  /-- `T_ADV`. -/
  | adv
deriving DecidableEq, Repr

/-- An element of the remaining work list of an operation in progress: a framed transfer (R111), one of the other events of INIT
that stand between them, or a control state of the small-step forms of R124 and R146, which emits no event of its own. -/
inductive Work where
  /-- `FT(v, s)`: `Pin(DC, v)` and at once `Xfer(s)` (R111); the next chunk of DATA where `v` is 1 (R94, R124 `PIX_D`). -/
  | ft (v : Level) (bytes : List Byte)
  /-- `SLEN <- n; SPOS <- 0`, where DATA begins (R94). -/
  | load (slen : Nat)
  /-- A `Pin` event of INIT's reset pulse or backlight (R82, R85). -/
  | pin (l : Line) (v : Level)
  /-- A `Delay` event of INIT (R82, R84). -/
  | delay (ms : Nat)
  /-- The glyph expander of a DRAWTEXT with the operands `addr` and `len` (R146). -/
  | text (q : TextPhase) (addr len : Half)
  /-- `LC <- ready`, where INIT completes (R85). -/
  | ready
  /-- `DONE`: `STATUS <- OK`, `pc <- pc + 12` (R124). -/
  | done
deriving DecidableEq, Repr

/-- The statuses (R174). -/
inductive Status where
  | ok | resourceUnavailable | transferFailure | badState | illegalOp
deriving DecidableEq, Repr

/-- STATUS and STATUS_INFO (R22, R174). -/
structure Report where
  status : Status
  info : Nat
deriving DecidableEq, Repr

/-- CLAIMED, one flag per resource (R16). -/
structure Claimed where
  bus : Bool
  dc : Bool
  rst : Bool
  bl : Bool
deriving DecidableEq, Repr

/-- PIN, the levels last driven (R17); `none` is the spec's `unspecified`, the level of a line the engine does not hold
(log 10). The engine never reads a pin. -/
structure Pins where
  dc : Option Level
  rst : Option Level
  bl : Option Level
deriving DecidableEq, Repr

/-- The datapath registers x[0] to x[7] (R18). -/
structure Datapath where
  /-- x[0] -/
  x0 : Half
  /-- x[1] -/
  x1 : Half
  /-- x[2] -/
  y0 : Half
  /-- x[3] -/
  y1 : Half
  /-- x[4] -/
  color : Half
  /-- x[5] -/
  cx : Half
  /-- x[6] -/
  cy : Half
  /-- x[7] -/
  lsx : Half
deriving DecidableEq, Repr

/-- The working registers of the glyph expander (R19). -/
structure GlyphRegs where
  ci : BitVec 16
  ch : BitVec 8
  gr : BitVec 3
  gc : BitVec 3
  rowb : BitVec 8
deriving DecidableEq, Repr

/-- The working registers of the chunking engine (R20). -/
structure ChunkRegs where
  slen : Nat
  spos : Nat
  clen : Nat
deriving DecidableEq, Repr

/-- The receiver state (R28). An `Option` here is the spec's own `unset`, `none` or `unspecified`. -/
structure Receiver where
  dc : Option Level
  rstn : Option Level
  bl : Option Level
  pixfmt : Option Byte
  madctl : Option Byte
  sleepOut : Bool
  displayOn : Bool
  xs : Option Half
  xe : Option Half
  ys : Option Half
  ye : Option Half
  pend : Option (WireCmd × List Byte)
  winseq : Fin 4
  writing : Bool
  px : Nat
  py : Nat
  remaining : Nat
  latch : Option Byte
  fb : FrameMem
  desync : Bool
  visualUndefined : Bool
  quiet : Nat
  sinceSlpout : Option Nat
deriving DecidableEq, Repr

/-- The state of the machine. -/
structure State where
  /-- The parameters (R6), fixed for a run (R29). -/
  par : Params
  /-- CMD space (R37). -/
  cmd : Memory
  /-- The number of descriptors of the program: a run ends when `pc = 12 * progLen` (R203). -/
  progLen : Nat
  /-- TEXT space (R38). -/
  text : Memory
  /-- GLYPH space, the glyph ROM (R39). -/
  glyph : Memory
  /-- The environment's answers still to come, first first; after them the answers are free (R11, D37, log 5).
  The model's own field. -/
  env : List Response
  /-- How many response-bearing events have been answered: the index of the next free answer. The model's own field. -/
  asked : Nat
  /-- LC (R14). -/
  lc : Lifecycle
  /-- CLAIMED (R16). -/
  claimed : Claimed
  /-- PIN (R17). -/
  pins : Pins
  /-- x[0] to x[7] (R18). -/
  dp : Datapath
  /-- CI, CH, GR, GC, ROWB (R19). -/
  gx : GlyphRegs
  /-- SLEN, SPOS, CLEN (R20). -/
  ck : ChunkRegs
  /-- The command-stream pointer (R21). -/
  pc : Ptr
  /-- STATUS and STATUS_INFO (R22). -/
  status : Report
  /-- STATUS_LOG (R22). -/
  statusLog : List Report
  /-- TR, the trace, first event first (R23). -/
  tr : List Event
  /-- The remaining work list of an operation in progress (R111); empty between operations. -/
  work : List Work
  /-- Wire items placed to be run as wire instructions, first first. The model's own field (log 1). -/
  stream : List Item
  /-- The index of the next Xfer among the Xfer events of the current operation (R93, R174). -/
  xferIx : Nat
  /-- The receiver (R28). -/
  rx : Receiver
deriving DecidableEq, Repr

/-- Why the machine stops with a fault: never. The engine has no stop: every failure is a status of a next state
(R174, R183), and what the downstream controller would do with a bad stream is the receiver's sticky Desync (R169).
No constructor, so nothing is raised; safe. -/
inductive Fault where
deriving DecidableEq, Repr

/-- Why an instruction has no next state. -/
inductive Refusal where
  /-- An arm of exec that has no meaning yet; raised by exec alone; safe. -/
  | notModelled (mnemonic : String)
  /-- The parameters break a constraint of rule R7 (or D14): "a configuration that breaks a constraint" has no meaning.
  Raised by every instruction and every step, through `configured` of Machine/Ops.lean; safe: nothing is claimed of such a machine. -/
  | illFormedConfig
deriving DecidableEq, Repr

/-- The receiver at power-on (R30), with the levels of its lines as given. DESIGN CHOICE (log 11): the pointer, which R30
leaves unspecified, is (0, 0); it is loaded by W_MEMWR before it is used. -/
def Receiver.powerOn (dc rstn bl : Option Level) : Receiver where
  dc := dc
  rstn := rstn
  bl := bl
  pixfmt := none
  madctl := none
  sleepOut := false
  displayOn := false
  xs := none
  xe := none
  ys := none
  ye := none
  pend := none
  winseq := 0
  writing := false
  px := 0
  py := 0
  remaining := 0
  latch := none
  fb := []
  desync := false
  visualUndefined := false
  quiet := 0
  sinceSlpout := none

/-- The machine right after power-on reset (R30, R198). DESIGN CHOICE (log 9): the transient registers, which R30 leaves
unspecified, are 0. No program is placed (log 2). -/
def State.reset : State where
  par := Params.default
  cmd := []
  progLen := 0
  text := []
  glyph := []
  env := []
  asked := 0
  lc := .uninitialized
  claimed := ⟨false, false, false, false⟩
  pins := ⟨none, none, none⟩
  dp := ⟨0, 0, 0, 0, 0, 0, 0, 0⟩
  gx := ⟨0, 0, 0, 0, 0⟩
  ck := ⟨0, 0, 0⟩
  pc := 0
  status := ⟨.ok, 0⟩
  statusLog := []
  tr := []
  work := []
  stream := []
  xferIx := 0
  rx := Receiver.powerOn none none none

end Sys2Proof.Machine
end

