-- ==== Sys2Proof/Machine/Flags.lean ====
section
/-! DEFINITION. The engine has no flags and no condition codes (R24). This file holds the conditions it evaluates instead, each
consumed where it is computed: the lifecycle gate, the character tests, the glyph bit and the wrap comparison. -/

namespace Sys2Proof.Machine

/-- The code of LC (R14). -/
def Lifecycle.code : Lifecycle → Nat
  | .uninitialized => 0
  | .initializing => 1
  | .ready => 2
  | .failed => 3

/-- The code of a status (R174). -/
def Status.code : Status → Nat
  | .ok => 0
  | .resourceUnavailable => 1
  | .transferFailure => 2
  | .badState => 3
  | .illegalOp => 4

/-- INIT is accepted only when LC is `uninitialized` (R80, R189). -/
def admitsInit (lc : Lifecycle) : Bool := lc == .uninitialized

/-- TEARDOWN is accepted in every state of LC (R89, R189). -/
def admitsTeardown (_ : Lifecycle) : Bool := true

/-- The drawing operations are accepted only when LC is `ready` (R113, R117, R119, R127, R189). -/
def admitsDrawing (lc : Lifecycle) : Bool := lc == .ready

/-- The newline test (R128). -/
def isNewline (ch : Byte) : Bool := ch == Config.newline

/-- The glyph of a character: FALLBACK for a code of 128 or more (R127, R129). -/
def glyphIndex (ch : Byte) : Nat := if 128 ≤ ch.toNat then Config.fallback.toNat else ch.toNat

/-- `ROWB[GC] = 1`: glyph column `gc` is bit `gc`, bit 0 the least significant (R34, R44). -/
def glyphBit (rowb : Byte) (gc : BitVec 3) : Bool := rowb.getLsbD gc.toNat

/-- The wrap test on the advanced position, on naturals: `CX + 8 + 8 > 320` (R134, R137). -/
def wraps (cx : Half) : Bool :=
  decide (cx.toNat + Config.glyphPitch + Config.glyphW > Config.panelW)

end Sys2Proof.Machine
end

