-- ==== Sys2Proof/Machine/Memory.lean ====
section
/-! DEFINITION. The named operations over sparse memories: reading, writing, and the canonical form. -/

namespace Sys2Proof.Machine

/-- The value listed at an address, or none. -/
def Mem.read {α : Type} : Mem α → Nat → Option α
  | [], _ => none
  | (k, v) :: m, a => if k = a then some v else Mem.read m a

/-- Write a value at an address, keeping the addresses strictly rising. -/
def Mem.write {α : Type} : Mem α → Nat → α → Mem α
  | [], a, v => [(a, v)]
  | (k, w) :: m, a, v =>
    if a < k then (a, v) :: (k, w) :: m
    else if a = k then (a, v) :: m
    else (k, w) :: Mem.write m a v

/-- Every listed address is above `a`. -/
def Mem.above {α : Type} (a : Nat) (m : Mem α) : Bool := m.all fun p => decide (a < p.1)

/-- The canonical form: addresses strictly rising. An unlisted address holds no value, so no entry can equal it. -/
def Mem.wf {α : Type} : Mem α → Bool
  | [] => true
  | (k, _) :: m => Mem.above k m && Mem.wf m

/-- The canonical form of a byte-addressed space. -/
def Memory.wf (m : Memory) : Bool := Mem.wf m

/-- The byte listed at an address of a byte-addressed space, or none. -/
def Memory.read (m : Memory) (a : Nat) : Option Byte := Mem.read m a

/-- Write bytes at consecutive addresses from `a`; the address of each byte is `at` of its offset. -/
def Memory.writeBytes (m : Memory) (addr : Nat → Nat) : List Byte → Nat → Memory
  | [], _ => m
  | b :: bs, k => Memory.writeBytes (Mem.write m (addr k) b) addr bs (k + 1)

/-- The canonical form of the frame memory: rows strictly rising, each row canonical and not empty. -/
def FrameMem.wf (fb : FrameMem) : Bool :=
  Mem.wf fb && fb.all fun row => Mem.wf row.2 && !row.2.isEmpty

/-- `R.fb[x, y]`, or none where it is unspecified (R28). -/
def FrameMem.read (fb : FrameMem) (x y : Nat) : Option Half :=
  match Mem.read fb y with
  | none => none
  | some row => Mem.read row x

/-- `MemWrite(FB, (x, y), 2, v)` (R9, R161). -/
def FrameMem.write (fb : FrameMem) (x y : Nat) (v : Half) : FrameMem :=
  Mem.write fb y (Mem.write ((Mem.read fb y).getD []) x v)

end Sys2Proof.Machine
end

