-- ==== Sys2Proof/Machine/Operands.lean ====
section
/-! DEFINITION. The operand forms: the bytes an operation reads from CMD, TEXT and GLYPH, the payloads it assembles, and the
channels of a colour. -/

namespace Sys2Proof.Machine

/-- `MemRead(CMD, a, 1)` (R37); a byte nothing has placed is a free value (log 8). -/
def State.cmdAt (s : State) (a : Ptr) : Byte := (Memory.read s.cmd a.toNat).getD (Config.cmdByte a.toNat)

/-- `MemRead(TEXT, a, 1)` (R38, R140); a byte nothing has placed is a free value (log 8). -/
def State.textAt (s : State) (a : Half) : Byte := (Memory.read s.text a.toNat).getD (Config.textByte a.toNat)

/-- `GLYPH_ROM[g][r] = MemRead(GLYPH, 8*g + r, 1)` (R39, R130); a byte nothing has placed is a free value (log 8). -/
def State.glyphRow (s : State) (g : Nat) (r : BitVec 3) : Byte :=
  let a := 8 * g + r.toNat
  (Memory.read s.glyph a).getD (Config.glyphByte a)

/-- The 12 bytes at `pc` (R37, R75). -/
def State.descriptor (s : State) : List Byte :=
  (List.range Config.descLen).map fun k => s.cmdAt (s.pc + BitVec.ofNat 32 k)

/-- The 4-byte payload of a column or row set: two 16-bit values, most significant byte first (R108, R109). -/
def rangePayload (a b : Half) : List Byte := bytes16 a ++ bytes16 b

/-- `rep(n, [hi8(c), lo8(c)])` (R8, R119). -/
def repColor (n : Nat) (c : Half) : List Byte := (List.replicate n (bytes16 c)).flatten

/-- The columns and rows of a glyph, 0 to 7, in scan order (R132). -/
def idx8 : List (BitVec 3) := [0, 1, 2, 3, 4, 5, 6, 7]

/-- The red channel of a colour, bits 15..11 (R32, D36; PRESUMED by the spec itself, log 19). No rule depends on it. -/
def colorRed (c : Half) : BitVec 5 := c.extractLsb' 11 5

/-- The green channel of a colour, bits 10..5 (R32, D36; PRESUMED, log 19). -/
def colorGreen (c : Half) : BitVec 6 := c.extractLsb' 5 6

/-- The blue channel of a colour, bits 4..0 (R32, D36; PRESUMED, log 19). -/
def colorBlue (c : Half) : BitVec 5 := c.extractLsb' 0 5

end Sys2Proof.Machine
end

