-- ==== Sys2Proof/Machine/Receiver.lean ====
section
/-! DEFINITION. The reference receiver of 44_receiver_contract.md: a monitor that consumes the engine's events in trace
order and never acts on the engine (R147). -/

namespace Sys2Proof.Machine

/-- Desync (R169): sticky, and the frame memory becomes unspecified at every pixel. -/
def Receiver.lose (r : Receiver) : Receiver := { r with desync := true, fb := [] }

/-- Reset of the controller (R149): every field but the line levels takes its power-on value. -/
def Receiver.resetBy (rstn : Option Level) (r : Receiver) : Receiver := Receiver.powerOn r.dc rstn r.bl

/-- The reset line goes to 1 (R150): too short a pulse is Desync; the quiet time starts again. -/
def Receiver.resetHigh (r : Receiver) : Receiver :=
  let r := if r.rstn = some false ∧ r.quiet < Config.resetHold then r.lose else r
  { r with rstn := some true, quiet := 0 }

/-- The level of a line is set by `Claim` or `Pin` (R148). -/
def Receiver.setLine (r : Receiver) : Line → Level → Receiver
  | .dc, v => { r with dc := some v }
  | .bl, v => { r with bl := some v }
  | .rst, false => r.resetBy (some false)
  | .rst, true => r.resetHigh

/-- A line is released (R148): its level is unspecified. For RST the controller may reset at any moment: the other fields take
their power-on values as in R149, but for the two sticky flags, which only a reset pulse clears: Desync is set (R125, D29, U12) and
visual_undefined stays (R155, U1; log 32). -/
def Receiver.dropLine (r : Receiver) : Line → Receiver
  | .dc => { r with dc := none }
  | .bl => { r with bl := none }
  | .rst => { (r.resetBy none).lose with visualUndefined := r.visualUndefined }

/-- `Delay(t)` adds to the receiver's clocks (R148). -/
def Receiver.wait (r : Receiver) (ms : Nat) : Receiver :=
  { r with quiet := r.quiet + ms, sinceSlpout := r.sinceSlpout.map (· + ms) }

/-- The window is valid (R160). -/
def Receiver.windowOk (r : Receiver) : Bool :=
  match r.xs, r.xe, r.ys, r.ye with
  | some xs, some xe, some ys, some ye =>
    decide (xs.toNat ≤ xe.toNat) && decide (xe.toNat < Config.panelW) &&
    decide (ys.toNat ≤ ye.toNat) && decide (ye.toNat < Config.panelH)
  | _, _, _, _ => false

/-- W_PIXFMT's or W_MEMCTL's command byte: one parameter is awaited (R152, R153). -/
def Receiver.openParam (r : Receiver) (c : WireCmd) : Receiver := { r with pend := some (c, []), winseq := 0 }

/-- W_SLPOUT at the receiver (R154). -/
def Receiver.onSlpout (r : Receiver) : Receiver :=
  { r with sleepOut := true, sinceSlpout := some 0, winseq := 0 }

/-- At least 120 ms have passed since the last sleep-out (R155). -/
def Receiver.settled (r : Receiver) : Bool :=
  match r.sinceSlpout with
  | none => false
  | some t => decide (Config.slpoutWait ≤ t)

/-- W_DISPON at the receiver (R155): too soon, or without sleep-out, the visual output is undefined. -/
def Receiver.onDispon (r : Receiver) : Receiver :=
  { r with displayOn := true, winseq := 0, visualUndefined := r.visualUndefined || !r.settled }

/-- W_COLSET's command byte (R156). -/
def Receiver.onColset (r : Receiver) : Receiver := { r with pend := some (.colset, []), winseq := 0 }

/-- W_ROWSET's command byte (R157): a column set that was not complete just before is forgotten. -/
def Receiver.onRowset (r : Receiver) : Receiver :=
  { r with pend := some (.rowset, []), winseq := if r.winseq = 1 then 1 else 0 }

/-- W_MEMWR at the receiver (R158 to R160): legal only right after a complete column set and row set, in a valid window,
with the 16-bit format and an orientation programmed. -/
def Receiver.onMemwr (r : Receiver) : Receiver :=
  if r.winseq ≠ 2 ∨ r.windowOk = false ∨ r.pixfmt ≠ some Config.pixfmt16 ∨ r.madctl = none then r.lose
  else
    let xs := (r.xs.getD 0).toNat
    let xe := (r.xe.getD 0).toNat
    let ys := (r.ys.getD 0).toNat
    let ye := (r.ye.getD 0).toNat
    { r with winseq := 3, writing := true, px := xs, py := ys,
             remaining := (xe - xs + 1) * (ye - ys + 1), latch := none }

/-- Dispatch on a command byte (R151 step 2); an unknown one is Desync (R167). -/
def Receiver.dispatch (r : Receiver) (b : Byte) : Receiver :=
  match WireCmd.ofCode b with
  | some .pixfmt => r.openParam .pixfmt
  | some .memctl => r.openParam .memctl
  | some .slpout => r.onSlpout
  | some .dispon => r.onDispon
  | some .colset => r.onColset
  | some .rowset => r.onRowset
  | some .memwr => r.onMemwr
  | none => r.lose

/-- A payload is open: a memory write that has not had all its pixels (R164, R173). -/
def Receiver.payloadOpen (r : Receiver) : Bool := r.writing && (r.remaining != 0 || r.latch.isSome)

/-- A command item that is listened to (R151): what was in progress is closed, and if it was cut short that is Desync
(R164, R166) and the item has no other effect (log 15). -/
def Receiver.command (r : Receiver) (b : Byte) : Receiver :=
  if r.pend.isSome || r.payloadOpen then r.lose
  else Receiver.dispatch { r with writing := false, pend := none } b

/-- A parameter byte of the command being collected; the last one completes it (R152, R153, R156, R157). -/
def Receiver.param (r : Receiver) (c : WireCmd) (ps : List Byte) : Receiver :=
  match c, ps with
  | .pixfmt, [p] => { r with pixfmt := some p, pend := none }
  | .memctl, [p] => { r with madctl := some p, pend := none }
  | .colset, [p0, p1, p2, p3] =>
    { r with xs := some (be16 p0 p1), xe := some (be16 p2 p3), pend := none, winseq := 1 }
  | .rowset, [p0, p1, p2, p3] =>
    { r with ys := some (be16 p0 p1), ye := some (be16 p2 p3), pend := none,
             winseq := if r.winseq = 1 then 2 else 0 }
  | c, ps => { r with pend := some (c, ps) }

/-- The pointer advance, row-major (R162). -/
def Receiver.advance (r : Receiver) : Receiver :=
  if r.px < (r.xe.getD 0).toNat then { r with px := r.px + 1 }
  else { r with px := (r.xs.getD 0).toNat, py := r.py + 1 }

/-- A byte of the pixel stream (R161, R163): the first of a pixel is latched, the second completes it and is written. -/
def Receiver.pixelByte (r : Receiver) (b : Byte) : Receiver :=
  if r.remaining = 0 then r.lose
  else match r.latch with
    | none => { r with latch := some b }
    | some h =>
      Receiver.advance
        { r with fb := FrameMem.write r.fb r.px r.py (be16 h b), latch := none, remaining := r.remaining - 1 }

/-- A data item that is listened to (R161, R165). -/
def Receiver.datum (r : Receiver) (b : Byte) : Receiver :=
  match r.pend with
  | some (c, ps) => r.param c (ps ++ [b])
  | none => if r.writing then r.pixelByte b else r.lose

/-- A wire item arrives: ignored in Desync (R169), Desync while the reset line is not at 1 (R149) or was moved less than
10 ms ago (R150), otherwise a command (R151) or a datum (R161). -/
def Receiver.item (r : Receiver) (dc : Level) (b : Byte) : Receiver :=
  if r.desync then r
  else if r.rstn ≠ some true ∨ r.quiet < Config.resetHold then r.lose
  else if dc then r.datum b
  else r.command b

/-- The bytes of an accepted transfer arrive in order, each tagged by the DC level (R148); a transfer whose tag is
unspecified is Desync (log 14). -/
def Receiver.feed (r : Receiver) (bytes : List Byte) : Receiver :=
  match r.dc with
  | none => r.lose
  | some v => bytes.foldl (fun r b => r.item v b) r

/-- One event reaches the receiver (R148, R168). A claim that failed drives no line (log 13). -/
def Receiver.observe (r : Receiver) : Event → Receiver
  | .openBus _ _ _ _ => r
  | .closeBus => r
  | .claim l v .ok => r.setLine l v
  | .claim _ _ .fail => r
  | .release l => r.dropLine l
  | .pin l v => r.setLine l v
  | .xfer bytes .ok => r.feed bytes
  | .xfer _ .fail => r.lose
  | .delay ms => r.wait ms

/-- The receiver after a trace, from power-on: its state is a function of the trace (R147). -/
def Receiver.after (tr : List Event) : Receiver := tr.foldl Receiver.observe (Receiver.powerOn none none none)

end Sys2Proof.Machine
end

