-- ==== Sys2Proof/Machine/Ops.lean ====
section
/-! DEFINITION. The named operations of the engine: the environment's answers, emitting an event, ending an operation with a
status (`raise`, R183), the gate (R79), and sequencing that stops at a failure. -/

namespace Sys2Proof.Machine

/-- The answer to the i-th response-bearing event from here: listed, or free (R11, D37, log 5). -/
def State.responseAt (s : State) (i : Nat) : Response :=
  match s.env[i]? with
  | some r => r
  | none => if Config.envAccepts (s.asked + i) then .ok else .fail

/-- One answer has been given. -/
def State.answered (s : State) : State := { s with env := s.env.tail, asked := s.asked + 1 }

/-- `Emit(e)` (R9): the event is appended to the trace and reaches the receiver (R148). -/
def State.emit (s : State) (e : Event) : State := { s with tr := s.tr ++ [e], rx := s.rx.observe e }

/-- PIN[l] takes a value; `none` is `unspecified` (R17). -/
def State.setPin (s : State) (l : Line) (v : Option Level) : State :=
  { s with pins := match l with
      | .dc => { s.pins with dc := v }
      | .rst => { s.pins with rst := v }
      | .bl => { s.pins with bl := v } }

/-- CLAIMED.l (R16). -/
def Claimed.line (c : Claimed) : Line → Bool
  | .dc => c.dc
  | .rst => c.rst
  | .bl => c.bl

/-- CLAIMED.l takes a value (R16). -/
def State.setClaimed (s : State) (l : Line) (v : Bool) : State :=
  { s with claimed := match l with
      | .dc => { s.claimed with dc := v }
      | .rst => { s.claimed with rst := v }
      | .bl => { s.claimed with bl := v } }

/-- `Emit(Pin(l, v)); PIN[l] <- v` (R80, R93). -/
def State.drive (s : State) (l : Line) (v : Level) : State := (s.emit (.pin l v)).setPin l (some v)

/-- `Emit(Delay(t))` (R10, R190). -/
def State.sleep (s : State) (ms : Nat) : State := s.emit (.delay ms)

/-- The operation ends with a status: STATUS, STATUS_INFO and STATUS_LOG are written, `pc <- pc + 12` (R21, R22, R183);
whatever was left of its work is discarded (R111). -/
def State.endOp (s : State) (r : Report) : State :=
  { s with status := r, statusLog := s.statusLog ++ [r], pc := s.pc + BitVec.ofNat 32 Config.descLen,
           work := [], stream := [], xferIx := 0 }

/-- ResourceUnavailable and TransferFailure are fatal (R175, R176). -/
def Status.fatal : Status → Bool
  | .ok => false
  | .resourceUnavailable => true
  | .transferFailure => true
  | .badState => false
  | .illegalOp => false

/-- `raise F(info)`, the one way an operation ends early (R183): for the two fatal statuses LC becomes `failed`; the
status is recorded; control goes on to the next descriptor. No state is saved and there is no handler. -/
def State.raise (s : State) (st : Status) (info : Nat) : State :=
  State.endOp (if st.fatal then { s with lc := .failed } else s) ⟨st, info⟩

/-- An operation in progress: it goes on, or it has ended by a `raise`. -/
inductive Flow where
  | go (s : State)
  | ended (s : State)
deriving DecidableEq, Repr

/-- Sequencing: the rest runs only if the operation goes on; "the operation ends at once" otherwise (R102, R183). -/
def Flow.bind (f : Flow) (k : State → Flow) : Flow :=
  match f with
  | .go s => k s
  | .ended s => .ended s

/-- The operation ran to its end: `STATUS <- OK` (R80, R174); one that has ended by a `raise` keeps its status. -/
def Flow.finish (f : Flow) : State :=
  match f with
  | .go s => s.endOp ⟨.ok, 0⟩
  | .ended s => s

/-- The state, however the operation stands. -/
def Flow.state (f : Flow) : State :=
  match f with
  | .go s => s
  | .ended s => s

/-- Run a body on each element in order, stopping at the first failure. -/
def forEach {α : Type} (f : α → State → Flow) : List α → State → Flow
  | [], s => .go s
  | a :: as, s => (f a s).bind (forEach f as)

/-- `Emit(Xfer(s))` and its check (R93, R94): on `fail`, `LC <- failed` and `raise TransferFailure(k)`, `k` the index of
this Xfer in the operation; no retry (R102, R180). -/
def State.xfer (s : State) (bytes : List Byte) : Flow :=
  let r := s.responseAt 0
  let t := (s.emit (.xfer bytes r)).answered
  match r with
  | .ok => .go { t with xferIx := s.xferIx + 1 }
  | .fail => .ended (t.raise .transferFailure s.xferIx)

/-- A configuration that breaks rule R7 has no meaning; under any other, the operation runs (log 7). -/
def configured (s : State) (f : State → State) : Host.Outcome State Fault Refusal :=
  if s.par.ok then .next (f s) else .refused .illFormedConfig

/-- A host operation (R79, R189): the gate, which emits nothing and changes nothing but what `raise` records, then the
body, whose transfers are counted from 0 (R93). -/
def hostOp (admits : Lifecycle → Bool) (body : State → Flow) (s : State) : Host.Outcome State Fault Refusal :=
  configured s fun s =>
    if admits s.lc then (body { s with xferIx := 0 }).finish
    else s.raise .badState s.lc.code

/-- Between operations: nothing is left to do (R12, R111). -/
abbrev State.Between (s : State) : Prop := s.work = [] ∧ s.stream = []

/-- More work before what is left: the small steps of the parts an operation is made of (R111, R124, R146). -/
def State.pushWork (s : State) (ws : List Work) : State := { s with work := ws ++ s.work }

/-- A wire instruction run as an instruction (R104 to R110, log 1): one part of an operation in progress. The transfers are
counted with the operation's; when nothing is left to do the operation is done. -/
def wireOp (body : State → Flow) (s : State) : Host.Outcome State Fault Refusal :=
  configured s fun s =>
    match body s with
    | .go t => if t.Between then t.endOp ⟨.ok, 0⟩ else t
    | .ended t => t

end Sys2Proof.Machine
end

