-- ==== Sys2Proof/Machine/Framing.lean ====
section
/-! DEFINITION. The framing and chunking engine (R93 to R102), the seven wire commands as the engine emits them (R104 to
R110), and the window program and pixel write built on them (R113, R117). -/

namespace Sys2Proof.Machine

/-- `chunks(s, M)` (R97), with as many rounds as `n` allows; `|s|` rounds are enough when `M >= 1`. -/
def chunksFuel (n : Nat) (m : Nat) (bytes : List Byte) : List (List Byte) :=
  match n with
  | 0 => []
  | n + 1 => if bytes = [] then [] else bytes.take m :: chunksFuel n m (bytes.drop m)

/-- `chunks(s, M)`: every chunk but the last has exactly `M` bytes (R97, R99). -/
def chunks (m : Nat) (bytes : List Byte) : List (List Byte) := chunksFuel bytes.length m bytes

/-- `FT(v, s)`, a framed transfer: `Pin(DC, v)` and at once `Xfer(s)` (R96, R111). -/
def State.framed (s : State) (v : Level) (bytes : List Byte) : Flow := (s.drive .dc v).xfer bytes

/-- `CMD(c)` (R93): a command byte is a transfer of its own. -/
def State.command (c : WireCmd) (s : State) : Flow := s.framed false [c.code]

/-- `CLEN <- n` (R94). -/
def State.loadChunk (s : State) (n : Nat) : State := { s with ck := { s.ck with clen := n } }

/-- `SPOS <- SPOS + n` (R94). -/
def State.countChunk (s : State) (n : Nat) : State := { s with ck := { s.ck with spos := s.ck.spos + n } }

/-- One round of `DATA` (R94): CLEN is the chunk's length, the chunk is sent with the DC line at 1, and once it is accepted SPOS
counts its bytes. -/
def State.sendChunk (ch : List Byte) (s : State) : Flow :=
  ((s.loadChunk ch.length).framed true ch).bind fun t => .go (t.countChunk ch.length)

/-- The loop of `DATA` (R94). -/
def sendChunks : List (List Byte) → State → Flow := forEach State.sendChunk

/-- `SLEN <- n; SPOS <- 0` (R94). -/
def State.loadStream (s : State) (n : Nat) : State := { s with ck := { s.ck with slen := n, spos := 0 } }

/-- `DATA(s)` (R94). -/
def State.data (bytes : List Byte) (s : State) : Flow :=
  sendChunks (chunks s.par.chunkMax bytes) (s.loadStream bytes.length)

/-- A wire instruction as the engine emits it: `CMD(c); DATA(payload)`, and `CMD(c)` alone for a command of format `W0`
(R104 to R110). -/
def sendPayload (c : WireCmd) (payload : List Byte) (s : State) : Flow := (s.command c).bind (State.data payload)

/-- W_PIXFMT as emitted (R104). -/
def sendPixfmt (p : Byte) (s : State) : Flow := sendPayload .pixfmt [p] s

/-- W_MEMCTL as emitted (R105). -/
def sendMemctl (p : Byte) (s : State) : Flow := sendPayload .memctl [p] s

/-- W_SLPOUT as emitted (R106). -/
def sendSlpout (s : State) : Flow := s.command .slpout

/-- W_DISPON as emitted (R107). -/
def sendDispon (s : State) : Flow := s.command .dispon

/-- W_COLSET as emitted (R108). -/
def sendColset (a b : Half) (s : State) : Flow := sendPayload .colset (rangePayload a b) s

/-- W_ROWSET as emitted (R109). -/
def sendRowset (a b : Half) (s : State) : Flow := sendPayload .rowset (rangePayload a b) s

/-- W_MEMWR as emitted (R110): the command with no payload of its own, as the last step of a window program. -/
def sendMemwr (s : State) : Flow := s.command .memwr

/-- W_MEMWR and the pixel stream that the format `WS` counts as its payload (R60, R110). -/
def sendPixels (cs : List Half) (s : State) : Flow := (sendMemwr s).bind (State.data (pixelBytes cs))

/-- The registers of the addressing window (R18, R113). -/
def State.loadWindow (s : State) (x0 x1 y0 y1 : Half) : State :=
  { s with dp := { s.dp with x0 := x0, x1 := x1, y0 := y0, y1 := y1 } }

/-- The register COLOR (R18). -/
def State.loadColor (s : State) (c : Half) : State := { s with dp := { s.dp with color := c } }

/-- `WINDOW(x0, x1, y0, y1)`, the window program (R113). -/
def sendWindow (x0 x1 y0 y1 : Half) (s : State) : Flow :=
  ((sendColset x0 x1 (s.loadWindow x0 x1 y0 y1)).bind (sendRowset y0 y1)).bind sendMemwr

/-- `PIXEL(x, y, c)` (R117): a 1x1 window program and one 2-byte payload. -/
def sendPixel (x y c : Half) (s : State) : Flow :=
  (sendWindow x x y y (s.loadColor c)).bind (State.data (bytes16 c))

end Sys2Proof.Machine
end

