-- ==== Sys2Proof/Machine/Drawing.lean ====
section
/-! DEFINITION. Window programming and pixel writes: SETWIN, DRAWPIXEL, FILLSCREEN (42_window_pixel.md). No operand is checked
against the panel (R114, R118, R138). -/

namespace Sys2Proof.Machine

/-- SETWIN (R113). -/
def execSetwin (x0 x1 y0 y1 : Half) (s : State) : Host.Outcome State Fault Refusal :=
  hostOp admitsDrawing (sendWindow x0 x1 y0 y1) s

/-- DRAWPIXEL (R117). -/
def execDrawpixel (x y color : Half) (s : State) : Host.Outcome State Fault Refusal :=
  hostOp admitsDrawing (sendPixel x y color) s

/-- The body of FILLSCREEN (R119): the full-panel window, then one colour for every pixel of the panel. -/
def fillBody (color : Half) (s : State) : Flow :=
  (sendWindow 0 (BitVec.ofNat 16 (Config.panelW - 1)) 0 (BitVec.ofNat 16 (Config.panelH - 1))
    (s.loadColor color)).bind (State.data (repColor (Config.panelW * Config.panelH) color))

/-- FILLSCREEN (R119). -/
def execFillscreen (color : Half) (s : State) : Host.Outcome State Fault Refusal :=
  hostOp admitsDrawing (fillBody color) s

end Sys2Proof.Machine
end

