-- ==== Sys2Proof/Machine/Lifecycle.lean ====
section
/-! DEFINITION. The lifecycle operations INIT and TEARDOWN (40_lifecycle.md). -/

namespace Sys2Proof.Machine

/-- One acquisition call of INIT (R81): on `ok` the resource is held, on `fail` `LC <- failed` and
`raise ResourceUnavailable(k)` (R86). -/
def acquire (k : Nat) (ev : Response → Event) (held : State → State) (s : State) : Flow :=
  let r := s.responseAt 0
  let t := (s.emit (ev r)).answered
  match r with
  | .ok => .go (held t)
  | .fail => .ended (t.raise .resourceUnavailable k)

/-- `Emit(OpenBus(BUS_ID, CHANNEL, BAUD))`, resource 0 (R80). -/
def acquireBus (s : State) : Flow :=
  acquire 0 (.openBus s.par.busId s.par.channel s.par.baud)
    (fun t => { t with claimed := { t.claimed with bus := true } }) s

/-- `Emit(Claim(l, v))`, resource `k` (R80). -/
def acquireLine (k : Nat) (l : Line) (v : Level) (s : State) : Flow :=
  acquire k (.claim l v) (fun t => (t.setClaimed l true).setPin l (some v)) s

/-- Phase 1 of INIT, acquisition (R81). -/
def initAcquire (s : State) : Flow :=
  (((acquireBus s).bind fun s => acquireLine 1 .dc s.par.dcInit s).bind fun s =>
    acquireLine 2 .rst s.par.rstInit s).bind fun s => acquireLine 3 .bl s.par.blInit s

/-- Phase 2 of INIT, the hardware reset of the downstream controller (R82). -/
def initReset (s : State) : State :=
  (((s.drive .rst false).sleep s.par.tRstLow).drive .rst true).sleep s.par.tRstHigh

/-- Phases 3 and 4 of INIT, configuration and power-up (R83, R84). -/
def initConfigure (s : State) : Flow :=
  (((sendPixfmt Config.pixfmt16 s).bind fun s => sendMemctl s.par.madctlVal s).bind sendSlpout).bind fun s =>
    sendDispon (s.sleep s.par.tSlpout)

/-- Phase 5 of INIT, backlight and completion (R85). -/
def initLight (s : State) : State := { s.drive .bl s.par.blOn with lc := .ready }

/-- The body of INIT (R80). -/
def initBody (s : State) : Flow :=
  ((initAcquire { s with lc := .initializing }).bind fun s => initConfigure (initReset s)).bind fun s =>
    .go (initLight s)

/-- INIT (R80). -/
def execInit (s : State) : Host.Outcome State Fault Refusal := hostOp admitsInit initBody s

/-- `if CLAIMED.l: Emit(Release(l)); CLAIMED.l <- 0` (R89); the level of the line is then unspecified (R91). -/
def State.releaseLine (s : State) (l : Line) : State :=
  if s.claimed.line l then ((s.emit (.release l)).setClaimed l false).setPin l none else s

/-- `if CLAIMED.bus: Emit(CloseBus); CLAIMED.bus <- 0` (R89). -/
def State.releaseBus (s : State) : State :=
  if s.claimed.bus then
    let t := s.emit .closeBus
    { t with claimed := { t.claimed with bus := false } }
  else s

/-- One resource is released if it is claimed, and nothing happens if it is not (R89). -/
def State.release (s : State) : Resource → State
  | .bus => s.releaseBus
  | .dc => s.releaseLine .dc
  | .rst => s.releaseLine .rst
  | .bl => s.releaseLine .bl

/-- The body of TEARDOWN (R89): the four releases in the platform's order, which the spec leaves open (R90, log 17). -/
def teardownBody (s : State) : Flow :=
  .go { s.par.releaseOrder.foldl State.release s with lc := .uninitialized }

/-- TEARDOWN (R89). -/
def execTeardown (s : State) : Host.Outcome State Fault Refusal := hostOp admitsTeardown teardownBody s

end Sys2Proof.Machine
end

