-- ==== Sys2Proof/Machine/Text.lean ====
section
/-! DEFINITION. Text rendering and the glyph-to-pixel bit-expander: DRAWTEXT (43_text.md). -/

namespace Sys2Proof.Machine

/-- The start of a text (R127, R139): the cursor, the line start and the colour from the operands, CI at 0. -/
def State.loadText (s : State) (x y color : Half) : State :=
  { s with dp := { s.dp with cx := x, cy := y, lsx := x, color := color }, gx := { s.gx with ci := 0 } }

/-- `CX <- LSX; CY <- CY +16 LINE_PITCH` (R127, R128, R134). -/
def State.newLine (s : State) : State :=
  { s with dp := { s.dp with cx := s.dp.lsx, cy := s.dp.cy + BitVec.ofNat 16 Config.linePitch } }

/-- The advance after a drawn character, with the wrap tested on the advanced position (R134, R135). -/
def State.advanceCursor (s : State) : State :=
  if wraps s.dp.cx then s.newLine
  else { s with dp := { s.dp with cx := s.dp.cx + BitVec.ofNat 16 Config.glyphPitch } }

/-- `CI <- CI + 1` (R127, R146). -/
def State.nextChar (s : State) : State := { s with gx := { s.gx with ci := s.gx.ci + 1 } }

/-- GC takes a value (R127). -/
def State.setGc (s : State) (c : BitVec 3) : State := { s with gx := { s.gx with gc := c } }

/-- GR takes a value (R127). -/
def State.setGr (s : State) (r : BitVec 3) : State := { s with gx := { s.gx with gr := r } }

/-- ROWB is read: row GR of glyph `g` (R127, R130). -/
def State.readRowb (s : State) (g : Nat) : State := { s with gx := { s.gx with rowb := s.glyphRow g s.gx.gr } }

/-- CH is read: character CI of the text (R127, R140). -/
def State.readChar (s : State) (addr : Half) : State := { s with gx := { s.gx with ch := s.textAt (addr + s.gx.ci) } }

/-- One bit of the row in ROWB (R131, R133): a set bit is one pixel write, a clear bit nothing. -/
def drawBit (color : Half) (gc : BitVec 3) (s : State) : Flow :=
  let t := s.setGc gc
  if glyphBit t.gx.rowb gc then
    sendPixel (t.dp.cx + gc.setWidth 16) (t.dp.cy + t.gx.gr.setWidth 16) color t
  else .go t

/-- One row of glyph `g` (R130, R132). -/
def drawRow (color : Half) (g : Nat) (gr : BitVec 3) (s : State) : Flow :=
  forEach (drawBit color) idx8 ((s.setGr gr).readRowb g)

/-- The 8 rows of glyph `g` (R131, R132). -/
def drawGlyph (color : Half) (g : Nat) (s : State) : Flow := forEach (drawRow color g) idx8 s

/-- One character of the text (R127): a newline moves the cursor and draws nothing (R128), any other character is drawn
with its glyph or the fallback (R129) and the cursor advances (R134). -/
def drawChar (color addr : Half) (s : State) : Flow :=
  let t := s.readChar addr
  if isNewline t.gx.ch then .go t.newLine
  else (drawGlyph color (glyphIndex t.gx.ch) t).bind fun u => .go u.advanceCursor

/-- The characters of the text in index order, each read once (R140); CI is the index and ends at `len` (R146, log 16). -/
def drawChars (color addr : Half) : Nat → State → Flow
  | 0, s => .go s
  | n + 1, s =>
    (drawChar color addr s).bind fun t => drawChars color addr n t.nextChar

/-- The body of DRAWTEXT (R127). -/
def textBody (x y color addr len : Half) (s : State) : Flow :=
  drawChars color addr len.toNat (s.loadText x y color)

/-- DRAWTEXT (R127). -/
def execDrawtext (x y color addr len : Half) (s : State) : Host.Outcome State Fault Refusal :=
  hostOp admitsDrawing (textBody x y color addr len) s

end Sys2Proof.Machine
end

