-- ==== Sys2Proof/Machine/WireCommands.lean ====
section
/-! DEFINITION. The meanings of the seven wire commands: the engine emits the command and its payload (R104 to R110), and every
event it emits reaches the receiver, which handles it (R152 to R158). -/

namespace Sys2Proof.Machine

/-- W_PIXFMT (R104, R152). -/
def execWPixfmt (p : Byte) (s : State) : Host.Outcome State Fault Refusal := wireOp (sendPixfmt p) s

/-- W_MEMCTL (R105, R153). -/
def execWMemctl (p : Byte) (s : State) : Host.Outcome State Fault Refusal := wireOp (sendMemctl p) s

/-- W_SLPOUT (R106, R154). -/
def execWSlpout (s : State) : Host.Outcome State Fault Refusal := wireOp sendSlpout s

/-- W_DISPON (R107, R155). -/
def execWDispon (s : State) : Host.Outcome State Fault Refusal := wireOp sendDispon s

/-- W_COLSET (R108, R156). -/
def execWColset (a b : Half) (s : State) : Host.Outcome State Fault Refusal := wireOp (sendColset a b) s

/-- W_ROWSET (R109, R157). -/
def execWRowset (a b : Half) (s : State) : Host.Outcome State Fault Refusal := wireOp (sendRowset a b) s

/-- W_MEMWR and its pixel stream (R110, R158 to R163). -/
def execWMemwr (cs : List Half) (s : State) : Host.Outcome State Fault Refusal := wireOp (sendPixels cs) s

/-- A placed item that begins no wire instruction (a data item with no command, an unknown code, a payload cut short): one
framed transfer of one byte (log 1), which the receiver answers with Desync where R165 to R167 say so. -/
def execRaw (it : Item) (s : State) : Host.Outcome State Fault Refusal :=
  wireOp (fun s => s.framed it.dc [it.byte]) s

end Sys2Proof.Machine
end

