-- ==== Sys2Proof/Machine/Dispatch.lean ====
section
/-! DEFINITION. exec: one arm per instruction, each one call of its meaning. -/

namespace Sys2Proof.Machine

def exec (i : Instr) (s : State) : Host.Outcome State Fault Refusal :=
  match i with
  | .wPixfmt p => Sys2Proof.Machine.execWPixfmt p s
  | .wMemctl p => Sys2Proof.Machine.execWMemctl p s
  | .wSlpout => Sys2Proof.Machine.execWSlpout s
  | .wDispon => Sys2Proof.Machine.execWDispon s
  | .wColset a b => Sys2Proof.Machine.execWColset a b s
  | .wRowset a b => Sys2Proof.Machine.execWRowset a b s
  | .wMemwr cs => Sys2Proof.Machine.execWMemwr cs s
  | .init => Sys2Proof.Machine.execInit s
  | .teardown => Sys2Proof.Machine.execTeardown s
  | .setwin x0 x1 y0 y1 => Sys2Proof.Machine.execSetwin x0 x1 y0 y1 s
  | .drawpixel x y color => Sys2Proof.Machine.execDrawpixel x y color s
  | .fillscreen color => Sys2Proof.Machine.execFillscreen color s
  | .drawtext x y color addr len => Sys2Proof.Machine.execDrawtext x y color addr len s

end Sys2Proof.Machine
end

