-- ==== Sys2Proof/Machine/SmallStep.lean ====
section
/-! DEFINITION. The small-step form of a host operation: the framing and chunking engine (R111), the address-window machine
(R124) and the glyph expander (R146). An operation is started, which puts its parts in the work list; `step` then takes the head
of the list, one framed transfer or one control state at a time. Where it ends is where the whole operation ends in one step
(R12), which Laws/SmallStep.lean proves. -/

namespace Sys2Proof.Machine

/-! ## What the parts of an operation contribute (R111) -/

/-- `CMD(c)` contributes one framed transfer (R111). -/
def cmdElems (c : WireCmd) : List Work := [.ft false [c.code]]

/-- `DATA(s)` contributes one framed transfer for each chunk, SLEN and SPOS being set where it begins (R94, R111). -/
def dataElems (m : Nat) (bytes : List Byte) : List Work := .load bytes.length :: (chunks m bytes).map (.ft true)

/-- A command and its payload (R104, R105, R108, R109). -/
def payloadElems (m : Nat) (c : WireCmd) (payload : List Byte) : List Work := cmdElems c ++ dataElems m payload

/-- The window machine from `W_COL_C` to `W_WR_C` (R124). -/
def windowElems (m : Nat) (x0 x1 y0 y1 : Half) : List Work :=
  payloadElems m .colset (rangePayload x0 x1) ++ payloadElems m .rowset (rangePayload y0 y1) ++ cmdElems .memwr

/-- The window machine from `W_COL_C` through `PIX_D` for a pixel stream (R124). -/
def streamElems (m : Nat) (x0 x1 y0 y1 : Half) (pixels : List Byte) : List Work :=
  windowElems m x0 x1 y0 y1 ++ dataElems m pixels

/-- What is left of INIT after its acquisition (R82 to R85). -/
def initElems (p : Params) : List Work :=
  [.pin .rst false, .delay p.tRstLow, .pin .rst true, .delay p.tRstHigh] ++
  payloadElems p.chunkMax .pixfmt [Config.pixfmt16] ++ payloadElems p.chunkMax .memctl [p.madctlVal] ++
  cmdElems .slpout ++ [.delay p.tSlpout] ++ cmdElems .dispon ++ [.pin .bl p.blOn, .ready]

/-! ## The glyph expander (R146) -/

/-- `T_BIT` once its bit is done: the next column, the next row, or `T_ADV`. -/
def State.afterBit (addr len : Half) (s : State) : State :=
  if s.gx.gc < 7 then (s.setGc (s.gx.gc + 1)).pushWork [.text .bit addr len]
  else if s.gx.gr < 7 then (s.setGr (s.gx.gr + 1)).pushWork [.text .row addr len]
  else s.pushWork [.text .adv addr len]

/-- `T_FETCH`: the end of the text, a newline, or a glyph whose rows begin. -/
def State.fetchChar (addr len : Half) (s : State) : State :=
  if s.gx.ci = len then s
  else
    let t := s.readChar addr
    if isNewline t.gx.ch then t.newLine.nextChar.pushWork [.text .fetch addr len]
    else (t.setGr 0).pushWork [.text .row addr len]

/-- `T_ROW`: ROWB is read, from the glyph of the character in CH. -/
def State.readRow (addr len : Half) (s : State) : State :=
  ((s.readRowb (glyphIndex s.gx.ch)).setGc 0).pushWork [.text .bit addr len]

/-- `T_BIT`: a set bit runs the window machine for `PIXEL(CX +16 GC, CY +16 GR, COLOR)` and returns here. -/
def State.testBit (addr len : Half) (s : State) : State :=
  if glyphBit s.gx.rowb s.gx.gc then
    let x := s.dp.cx + s.gx.gc.setWidth 16
    let y := s.dp.cy + s.gx.gr.setWidth 16
    (s.loadWindow x x y y).pushWork
      (streamElems s.par.chunkMax x x y y (bytes16 s.dp.color) ++ [.text .pixelDone addr len])
  else s.afterBit addr len

/-- One step of the glyph expander (R146). -/
def State.expand (s : State) (q : TextPhase) (addr len : Half) : State :=
  match q with
  | .fetch => s.fetchChar addr len
  | .row => s.readRow addr len
  | .bit => s.testBit addr len
  | .pixelDone => s.afterBit addr len
  | .adv => s.advanceCursor.nextChar.pushWork [.text .fetch addr len]

/-! ## One small step -/

/-- The head of the work list, in the state whose work list is the tail: what it does, and, on the `fail` of a transfer, the end
of the operation (R111, R124). -/
def State.runWork (s : State) : Work → Flow
  | .ft true bytes => s.sendChunk bytes
  | .ft false bytes => s.framed false bytes
  | .load n => .go (s.loadStream n)
  | .pin l v => .go (s.drive l v)
  | .delay ms => .go (s.sleep ms)
  | .text q addr len => .go (s.expand q addr len)
  | .ready => .go { s with lc := .ready }
  | .done => .ended (s.endOp ⟨.ok, 0⟩)

/-- One small step of an operation in progress (R111, R124, R146). -/
def execWork (w : Work) (s : State) : Host.Outcome State Fault Refusal := configured s fun s => (s.runWork w).state

/-! ## Starting an operation (R124 `IDLE`) -/

/-- An operation is started: the gate (R79), then what it does before its first small step, its transfers counted from 0. -/
def startOp (admits : Lifecycle → Bool) (load : State → Flow) (s : State) : Host.Outcome State Fault Refusal :=
  configured s fun s =>
    if admits s.lc then (load { s with xferIx := 0 }).state
    else s.raise .badState s.lc.code

/-- The operation is in progress with this work list, `DONE` at its end. -/
def State.withPlan (s : State) (ws : List Work) : State := { s with work := ws ++ [.done] }

/-- INIT started: its acquisition calls, which are no framed transfers (R81), then the rest as a work list. -/
def startInit (s : State) : Host.Outcome State Fault Refusal :=
  startOp admitsInit (fun s => (initAcquire { s with lc := .initializing }).bind fun t => .go (t.withPlan (initElems t.par))) s

/-- A drawing operation started: the registers it begins with, and its work list for CHUNK_MAX. -/
def startDrawing (load : State → State) (plan : Nat → List Work) (s : State) : Host.Outcome State Fault Refusal :=
  startOp admitsDrawing (fun s => .go ((load s).withPlan (plan s.par.chunkMax))) s

/-- SETWIN started (R124). -/
def startSetwin (x0 x1 y0 y1 : Half) (s : State) : Host.Outcome State Fault Refusal :=
  startDrawing (fun s => s.loadWindow x0 x1 y0 y1) (fun m => windowElems m x0 x1 y0 y1) s

/-- DRAWPIXEL started (R124). -/
def startDrawpixel (x y color : Half) (s : State) : Host.Outcome State Fault Refusal :=
  startDrawing (fun s => (s.loadColor color).loadWindow x x y y) (fun m => streamElems m x x y y (bytes16 color)) s

/-- FILLSCREEN started (R124). -/
def startFillscreen (color : Half) (s : State) : Host.Outcome State Fault Refusal :=
  let x1 := BitVec.ofNat 16 (Config.panelW - 1)
  let y1 := BitVec.ofNat 16 (Config.panelH - 1)
  startDrawing (fun s => (s.loadColor color).loadWindow 0 x1 0 y1)
    (fun m => streamElems m 0 x1 0 y1 (repColor (Config.panelW * Config.panelH) color)) s

/-- DRAWTEXT started (R146). -/
def startDrawtext (x y color addr len : Half) (s : State) : Host.Outcome State Fault Refusal :=
  startDrawing (fun s => s.loadText x y color) (fun _ => [.text .fetch addr len]) s

/-- An instruction started. TEARDOWN makes no transfer and is done at once (R89); a wire instruction is one part of an operation
(log 1). -/
def start (i : Instr) (s : State) : Host.Outcome State Fault Refusal :=
  match i with
  | .init => startInit s
  | .teardown => execTeardown s
  | .setwin x0 x1 y0 y1 => startSetwin x0 x1 y0 y1 s
  | .drawpixel x y color => startDrawpixel x y color s
  | .fillscreen color => startFillscreen color s
  | .drawtext x y color addr len => startDrawtext x y color addr len s
  | .wPixfmt p => execWPixfmt p s
  | .wMemctl p => execWMemctl p s
  | .wSlpout => execWSlpout s
  | .wDispon => execWDispon s
  | .wColset a b => execWColset a b s
  | .wRowset a b => execWRowset a b s
  | .wMemwr cs => execWMemwr cs s

end Sys2Proof.Machine
end

