-- ==== Sys2Proof/Machine/Fetch.lean ====
section
/-! DEFINITION. What the next step runs: the head of the work list of an operation in progress (R111), else the wire instruction
at the front of the placed items (log 1), else the descriptor at `pc` (R37, R75), else nothing at the end of the program (R203).
Also how inputs are placed from outside. -/

namespace Sys2Proof.Machine

/-- What a step finds. -/
inductive Fetched where
  /-- The program has ended and the engine is idle (R203). -/
  | idle (s : State)
  /-- The instruction `i`, to run in the state `s`. -/
  | run (i : Instr) (s : State)
  /-- An illegal descriptor with this `op` byte (R73). -/
  | illegal (op : Byte) (s : State)
  /-- The head of the work list of an operation in progress (R111). -/
  | work (w : Work) (s : State)
  /-- A placed item that begins no wire instruction. -/
  | raw (it : Item) (s : State)

/-- Fetch (R37, R75, R111, R203). -/
def fetch (s : State) : Fetched :=
  match s.work, s.stream with
  | w :: rest, _ => .work w { s with work := rest }
  | [], it :: rest =>
    match decodeWire (it :: rest) with
    | .ok (i, rest') => .run i { s with stream := rest' }
    | .error _ => .raw it { s with stream := rest }
  | [], [] =>
    if s.pc.toNat < Config.descLen * s.progLen then
      match decodeHost s.descriptor with
      | .ok i => .run i s
      | .error _ => .illegal (s.cmdAt s.pc) s
    else .idle s

/-- An illegal descriptor (R73, R178): IllegalOp with the `op` byte, in every state of LC, before the gate (R79). -/
def execIllegal (op : Byte) (s : State) : Host.Outcome State Fault Refusal :=
  configured s fun s => s.raise .illegalOp op.toNat

/-- The end of the program (R203): nothing happens, as long as the configuration has a meaning (R7). -/
def execIdle (s : State) : Host.Outcome State Fault Refusal := configured s fun s => s

/-- Place bytes of a program in CMD at `pc`, so that the next fetch reads them; the program reaches past them. -/
def State.placeDescriptor (s : State) (bytes : List Byte) : State :=
  { s with cmd := Memory.writeBytes s.cmd (fun k => (s.pc + BitVec.ofNat 32 k).toNat) bytes 0,
           progLen := max s.progLen (s.pc.toNat / Config.descLen + 1), work := [], stream := [] }

/-- Place wire items, so that the next step runs the wire instruction at their front (log 1). -/
def State.placeItems (s : State) (items : List Item) : State := { s with work := [], stream := items }

/-- Place the instruction of a table word where the next step fetches it (log 2, log 3). -/
def State.placeTableWord (s : State) (nbits w : Nat) : State :=
  if nbits ≤ 16 then s.placeItems (tableItems w) else s.placeDescriptor (tableBytes w)

/-- A program from address 0 of CMD (R68). -/
def State.loadProgram (s : State) (is : List Instr) : State :=
  let bytes := is.flatMap fun i => match encode i with
    | .host bytes => bytes
    | .wire _ => []
  { s with cmd := Memory.writeBytes s.cmd id bytes 0, progLen := bytes.length / Config.descLen }

/-- `.text addr, "..."` (R76): bytes placed in TEXT, addresses modulo 2^16 (R38). -/
def State.loadTextBytes (s : State) (addr : Half) (bytes : List Byte) : State :=
  { s with text := Memory.writeBytes s.text (fun k => (addr + BitVec.ofNat 16 k).toNat) bytes 0 }

/-- `.glyph code, b0, ..., b7` (R76): the rows of one glyph placed in the ROM (R39). -/
def State.loadGlyph (s : State) (code : Fin 128) (rows : List Byte) : State :=
  { s with glyph := Memory.writeBytes s.glyph (fun k => 8 * code.val + k) (rows.take 8) 0 }

end Sys2Proof.Machine
end

