-- ==== Sys2Proof/Machine/Step.lean ====
section
/-! DEFINITION. One step: fetch, then the meaning of what was fetched. -/

namespace Sys2Proof.Machine

/-- One step of the machine: of an operation in progress, the head of its work list (R111); else a placed wire instruction
(log 1); else the whole host operation at `pc` (R12: the big-step rules are the normative ones); else, at the end of the
program, nothing (R203). -/
def step (s : State) : Host.Outcome State Fault Refusal :=
  match fetch s with
  | .idle t => execIdle t
  | .run i t => exec i t
  | .illegal op t => execIllegal op t
  | .work w t => execWork w t
  | .raw it t => execRaw it t

/-- The state with the instruction of a table word where the next step fetches it. -/
def State.withFetchWord (s : State) (nbits w : Nat) : State := s.placeTableWord nbits w

end Sys2Proof.Machine
end

