-- ==== Sys2Proof/Machine/Wire.lean ====
section
/-! DEFINITION. From events to wire items: the abstraction `wire(TR)` (R103) and the counts of rule R112. -/

namespace Sys2Proof.Machine

/-- A symbol of `wire(TR)`: an item the receiver saw, or LOST where a transfer failed (R103). -/
inductive WireSym where
  | item (it : Item)
  | lost
deriving DecidableEq, Repr

/-- `wire` of a trace, scanned with the current level of the DC line; `none` while no `Pin(DC, v)` has been seen (R103).
A transfer with no level is counted as LOST; the engine never makes one (R96). -/
def wireFrom : Option Level → List Event → List WireSym
  | _, [] => []
  | _, .pin .dc v :: es => wireFrom (some v) es
  | some v, .xfer bytes .ok :: es => (bytes.map fun b => .item ⟨v, b⟩) ++ wireFrom (some v) es
  | none, .xfer _ .ok :: es => .lost :: wireFrom none es
  | lv, .xfer _ .fail :: es => .lost :: wireFrom lv es
  | lv, .openBus _ _ _ _ :: es => wireFrom lv es
  | lv, .closeBus :: es => wireFrom lv es
  | lv, .claim _ _ _ :: es => wireFrom lv es
  | lv, .release _ :: es => wireFrom lv es
  | lv, .pin .rst _ :: es => wireFrom lv es
  | lv, .pin .bl _ :: es => wireFrom lv es
  | lv, .delay _ :: es => wireFrom lv es

/-- `wire(TR)` (R103). -/
def wireOf (tr : List Event) : List WireSym := wireFrom none tr

/-- The symbols of items. -/
def symsOf (items : List Item) : List WireSym := items.map .item

/-- An event is a transfer (R93). -/
def Event.isXfer : Event → Bool
  | .xfer _ _ => true
  | .openBus _ _ _ _ => false
  | .closeBus => false
  | .claim _ _ _ => false
  | .release _ => false
  | .pin _ _ => false
  | .delay _ => false

/-- The number of transfers of a trace. -/
def xferCount (tr : List Event) : Nat := tr.countP Event.isXfer

end Sys2Proof.Machine
end

