-- ==== Sys2Proof/Safety.lean ====
section
/-! DEFINITION. The terms claims are stated in: what the environment answers, the work lists of the operations (R111), what a
receiver in step with the engine is, the reference rendering of a text, and the invariants of the machine. -/

namespace Sys2Proof.Machine

/-- The next `n` response-bearing events are answered `ok` (premise P1 of R172). -/
def AnswersOk (s : State) (n : Nat) : Prop := ∀ i, i < n → s.responseAt i = .ok

/-- The first `fail` of the environment is its answer number `k`. -/
def FailsFirstAt (s : State) (k : Nat) : Prop := AnswersOk s k ∧ s.responseAt k = .fail

/-- The parameters and the contents of CMD, TEXT and GLYPH are the same (R29, R56). -/
def SameInputs (s t : State) : Prop :=
  t.par = s.par ∧ t.cmd = s.cmd ∧ t.progLen = s.progLen ∧ t.text = s.text ∧ t.glyph = s.glyph

/-- An operation that was refused before any event (R73, R79, R177, R178): nothing has changed but STATUS, STATUS_INFO,
STATUS_LOG and `pc`; no work is left and no transfer has been made. -/
def RefusedWith (s : State) (r : Report) : State :=
  { s with status := r, statusLog := s.statusLog ++ [r], pc := s.pc + 12, work := [],
           stream := [], xferIx := 0 }

/-! ## Work lists (R111) -/

/-- A framed transfer: the DC level and the bytes (R111). -/
abbrev FT := Level × List Byte

/-- What `CMD(c)` contributes (R111). -/
def cmdWork (c : WireCmd) : List FT := [(false, [c.code])]

/-- What `DATA(s)` contributes, with CHUNK_MAX = `m` (R111). -/
def dataWork (m : Nat) (bytes : List Byte) : List FT := (chunks m bytes).map fun ch => (true, ch)

/-- The window program (R113, R124). -/
def windowWork (m : Nat) (x0 x1 y0 y1 : Half) : List FT :=
  cmdWork .colset ++ dataWork m (bytes16 x0 ++ bytes16 x1) ++
  cmdWork .rowset ++ dataWork m (bytes16 y0 ++ bytes16 y1) ++ cmdWork .memwr

/-- One pixel write (R117). -/
def pixelWork (m : Nat) (x y c : Half) : List FT := windowWork m x x y y ++ dataWork m (bytes16 c)

/-- A full-screen fill (R119). -/
def fillWork (m : Nat) (c : Half) : List FT := windowWork m 0 319 0 239 ++ dataWork m (repColor 76800 c)

/-- A wire instruction (R104 to R110). -/
def wireWork (m : Nat) : Instr → List FT
  | .wPixfmt p => cmdWork .pixfmt ++ dataWork m [p]
  | .wMemctl p => cmdWork .memctl ++ dataWork m [p]
  | .wSlpout => cmdWork .slpout
  | .wDispon => cmdWork .dispon
  | .wColset a b => cmdWork .colset ++ dataWork m (bytes16 a ++ bytes16 b)
  | .wRowset a b => cmdWork .rowset ++ dataWork m (bytes16 a ++ bytes16 b)
  | .wMemwr cs => cmdWork .memwr ++ dataWork m (pixelBytes cs)
  | .init => []
  | .teardown => []
  | .setwin _ _ _ _ => []
  | .drawpixel _ _ _ => []
  | .fillscreen _ => []
  | .drawtext _ _ _ _ _ => []

end Sys2Proof.Machine

namespace Sys2Proof

/-- An instruction of wire space (R59). -/
def Instr.isWire : Instr → Bool
  | .wPixfmt _ => true
  | .wMemctl _ => true
  | .wSlpout => true
  | .wDispon => true
  | .wColset _ _ => true
  | .wRowset _ _ => true
  | .wMemwr _ => true
  | .init => false
  | .teardown => false
  | .setwin _ _ _ _ => false
  | .drawpixel _ _ _ => false
  | .fillscreen _ => false
  | .drawtext _ _ _ _ _ => false

/-- A drawing operation (R189). -/
def Instr.isDrawing : Instr → Bool
  | .wPixfmt _ => false
  | .wMemctl _ => false
  | .wSlpout => false
  | .wDispon => false
  | .wColset _ _ => false
  | .wRowset _ _ => false
  | .wMemwr _ => false
  | .init => false
  | .teardown => false
  | .setwin _ _ _ _ => true
  | .drawpixel _ _ _ => true
  | .fillscreen _ => true
  | .drawtext _ _ _ _ _ => true

end Sys2Proof

namespace Sys2Proof.Machine

/-- The two events of a framed transfer with the environment's answer (R96, R111). -/
def ftEvents (f : FT) (r : Response) : List Event := [.pin .dc f.1, .xfer f.2 r]

/-- The events of a work list whose every transfer is accepted. -/
def okEvents (fts : List FT) : List Event := fts.flatMap fun f => ftEvents f .ok

/-- The events of a work list whose transfer number `k` is the first to fail: nothing later is emitted (R102). -/
def failEvents (fts : List FT) (k : Nat) : List Event :=
  okEvents (fts.take k) ++ (fts.drop k).head?.toList.flatMap fun f => ftEvents f .fail

/-- A small step of an operation in progress that is not its last (R111, R124): nothing is reported, `work` being what is left. -/
def ContinuesWith (s t : State) (work : List Work) : Prop :=
  t.work = work ∧ t.stream = s.stream ∧ t.claimed = s.claimed ∧ t.status = s.status ∧ t.statusLog = s.statusLog ∧ t.pc = s.pc

/-- `n` steps. -/
def steps : Nat → State → Host.Outcome State Fault Refusal
  | 0, s => .next s
  | n + 1, s =>
    match step s with
    | .next t => steps n t
    | .fault f => .fault f
    | .refused r => .refused r

/-! ## Initialisation (R88) -/

/-- The acquisition events of INIT, resource `k` answered `r k` (R80, R81). -/
def acquireEvents (p : Params) (r : Response) : List Event :=
  [.openBus p.busId p.channel p.baud r, .claim .dc p.dcInit r, .claim .rst p.rstInit r, .claim .bl p.blInit r]

/-- The hardware reset pulse (R82). -/
def pulseEvents (p : Params) : List Event :=
  [.pin .rst false, .delay p.tRstLow, .pin .rst true, .delay p.tRstHigh]

/-- The framed transfers of phases 3 and 4, up to sleep-out (R83, R84). -/
def configWork (p : Params) : List FT :=
  [(false, [0x3A]), (true, [0x05]), (false, [0x36]), (true, [p.madctlVal]), (false, [0x11])]

/-- The 22 events of a successful INIT, in order (R88). -/
def initEvents (p : Params) : List Event :=
  [.openBus p.busId p.channel p.baud .ok, .claim .dc p.dcInit .ok, .claim .rst p.rstInit .ok, .claim .bl p.blInit .ok,
   .pin .rst false, .delay p.tRstLow, .pin .rst true, .delay p.tRstHigh,
   .pin .dc false, .xfer [0x3A] .ok, .pin .dc true, .xfer [0x05] .ok,
   .pin .dc false, .xfer [0x36] .ok, .pin .dc true, .xfer [p.madctlVal] .ok,
   .pin .dc false, .xfer [0x11] .ok, .delay p.tSlpout, .pin .dc false, .xfer [0x29] .ok, .pin .bl p.blOn]

/-- The events of an INIT whose transfer `k`, one of six, fails: the sequence of R88 up to that transfer, and nothing later
(R87). -/
def initFailEvents (p : Params) (k : Nat) : List Event :=
  acquireEvents p .ok ++ pulseEvents p ++
  if k < 5 then failEvents (configWork p) k
  else okEvents (configWork p) ++ [.delay p.tSlpout] ++ ftEvents (false, [0x29]) .fail

/-- The CLAIMED flags after the first `k` acquisition calls, from none (R86). -/
def claimedFirst (k : Nat) : Claimed := ⟨decide (0 < k), decide (1 < k), decide (2 < k), decide (3 < k)⟩

/-- A resource is held (R16). -/
def Claimed.holds (c : Claimed) : Resource → Bool
  | .bus => c.bus
  | .dc => c.dc
  | .rst => c.rst
  | .bl => c.bl

/-- The event that releases a resource (R10). -/
def releaseEvent : Resource → Event
  | .bus => .closeBus
  | .dc => .release .dc
  | .rst => .release .rst
  | .bl => .release .bl

/-- The events of TEARDOWN: what is claimed is released, in the platform's order (R89, R90). -/
def releaseEvents (order : List Resource) (c : Claimed) : List Event :=
  (order.filter c.holds).map releaseEvent

/-! ## The receiver -/

/-- The receiver listens: it is not in Desync, its reset line is at 1 and has been quiet for 10 ms (R149, R150). -/
def Receiver.Listening (r : Receiver) : Prop :=
  r.desync = false ∧ r.rstn = some true ∧ Config.resetHold ≤ r.quiet

/-- No instruction is in progress at the receiver: no parameter and no pixel is awaited (R164, R166, R172e). -/
def Receiver.AtRest (r : Receiver) : Prop := r.pend = none ∧ r.payloadOpen = false

/-- The receiver is in step with the engine: it listens, nothing is in progress, and the 16-bit format and an orientation
are programmed (R158, R172). -/
def Receiver.Synced (r : Receiver) : Prop :=
  r.Listening ∧ r.AtRest ∧ r.pixfmt = some Config.pixfmt16 ∧ r.madctl.isSome = true

/-- A run ends well for the receiver (R173). -/
def Receiver.EndsWell (r : Receiver) : Prop := r.desync = false ∧ r.payloadOpen = false

/-- A window inside the panel (R33, R160). -/
def WindowInPanel (x0 x1 y0 y1 : Half) : Prop :=
  x0.toNat ≤ x1.toNat ∧ x1.toNat < 320 ∧ y0.toNat ≤ y1.toNat ∧ y1.toNat < 240

/-- A pixel inside the panel (R210). -/
def InPanel (x y : Half) : Prop := x.toNat < 320 ∧ y.toNat < 240

/-- A complete W_PIXFMT, W_MEMCTL, W_SLPOUT, wait and W_DISPON have been received since the last reset (R170). -/
def Receiver.Lit (p : Params) (r : Receiver) : Prop :=
  r.pixfmt = some Config.pixfmt16 ∧ r.madctl = some p.madctlVal ∧ r.sleepOut = true ∧ r.displayOn = true ∧
  r.visualUndefined = false

/-! ## Reference rendering of a text (R127), written apart from the machine's loops -/

/-- The character codes of a text: `TEXT[addr +16 0 .. addr +16 (len-1)]` (R127, R140). -/
def textCodes (s : State) (addr len : Half) : List Byte :=
  (List.range len.toNat).map fun i => s.textAt (addr + BitVec.ofNat 16 i)

/-- The cursor after a character (R128, R134): a newline, or an advanced position past 312, goes to the next line. -/
def cursorAfter (lsx : Half) (p : Half × Half) (ch : Byte) : Half × Half :=
  if ch = 0x0A ∨ 312 < p.1.toNat + 8 then (lsx, p.2 + 10) else (p.1 + 8, p.2)

/-- The lit pixels of a glyph drawn at `p`, by rows and in each row by columns (R131, R132). -/
def glyphPixels (s : State) (p : Half × Half) (g : Nat) : List (Half × Half) :=
  (List.range 8).flatMap fun r => (List.range 8).flatMap fun c =>
    if (s.glyphRow g (BitVec.ofNat 3 r)).getLsbD c then [(p.1 + BitVec.ofNat 16 c, p.2 + BitVec.ofNat 16 r)] else []

/-- The pixels a character draws: none for a newline, glyph '?' for a code of 128 or more (R128, R129). -/
def charPixels (s : State) (p : Half × Half) (ch : Byte) : List (Half × Half) :=
  if ch = 0x0A then [] else glyphPixels s p (if 128 ≤ ch.toNat then 0x3F else ch.toNat)

/-- The pixels a text draws, in order, and where its cursor ends. -/
def renderText (s : State) (lsx : Half) : Half × Half → List Byte → List (Half × Half) × (Half × Half)
  | p, [] => ([], p)
  | p, ch :: rest =>
    let q := renderText s lsx (cursorAfter lsx p ch) rest
    (charPixels s p ch ++ q.1, q.2)

/-- The pixels DRAWTEXT draws. -/
def textPixels (s : State) (x y addr len : Half) : List (Half × Half) :=
  (renderText s x (x, y) (textCodes s addr len)).1

/-- Where DRAWTEXT leaves its cursor. -/
def textCursor (s : State) (x y addr len : Half) : Half × Half :=
  (renderText s x (x, y) (textCodes s addr len)).2

/-- The work list of a text: one pixel write per lit pixel (R131, R145). -/
def textWork (s : State) (x y color addr len : Half) : List FT :=
  (textPixels s x y addr len).flatMap fun p => pixelWork s.par.chunkMax p.1 p.2 color

/-- The work list of a drawing operation. -/
def drawWork (s : State) : Instr → List FT
  | .setwin x0 x1 y0 y1 => windowWork s.par.chunkMax x0 x1 y0 y1
  | .drawpixel x y c => pixelWork s.par.chunkMax x y c
  | .fillscreen c => fillWork s.par.chunkMax c
  | .drawtext x y c addr len => textWork s x y c addr len
  | .wPixfmt _ => []
  | .wMemctl _ => []
  | .wSlpout => []
  | .wDispon => []
  | .wColset _ _ => []
  | .wRowset _ _ => []
  | .wMemwr _ => []
  | .init => []
  | .teardown => []

/-! ## The wire discipline (R122), as an automaton over `wire(TR)` -/

/-- Where the stream of wire items stands. -/
inductive Phase where
  /-- Between instructions. -/
  | rest
  /-- The one parameter of a W_PIXFMT or W_MEMCTL is awaited. -/
  | param
  /-- `n + 1` parameters of a W_COLSET are awaited. -/
  | col (n : Nat)
  /-- A column set is complete. -/
  | afterCol
  /-- `n + 1` parameters of a W_ROWSET are awaited. -/
  | row (n : Nat)
  /-- A row set right after a column set is complete. -/
  | afterRow
  /-- A memory write right after a window program: pixel data may follow. -/
  | pixels
deriving DecidableEq, Repr

/-- A command byte is allowed: nothing is awaited, and a window program goes straight on. -/
def Phase.command (p : Phase) (b : Byte) : Option Phase :=
  match WireCmd.ofCode b with
  | some .pixfmt => if p = .rest ∨ p = .pixels then some .param else none
  | some .memctl => if p = .rest ∨ p = .pixels then some .param else none
  | some .slpout => if p = .rest ∨ p = .pixels then some .rest else none
  | some .dispon => if p = .rest ∨ p = .pixels then some .rest else none
  | some .colset => if p = .rest ∨ p = .pixels then some (.col 3) else none
  | some .rowset => if p = .afterCol then some (.row 3) else none
  | some .memwr => if p = .afterRow then some .pixels else none
  | none => none

/-- A data byte is allowed: it is a parameter, or pixel data inside an active window program. -/
def Phase.datum : Phase → Option Phase
  | .rest => none
  | .param => some .rest
  | .col (n + 1) => some (.col n)
  | .col 0 => some .afterCol
  | .afterCol => none
  | .row (n + 1) => some (.row n)
  | .row 0 => some .afterRow
  | .afterRow => none
  | .pixels => some .pixels

/-- One symbol of `wire(TR)`; after LOST a new instruction may begin. -/
def Phase.next (p : Phase) : WireSym → Option Phase
  | .lost => some .rest
  | .item it => if it.dc then p.datum else p.command it.byte

/-- The phase after symbols, if every one of them was allowed. -/
def Phase.run (p : Phase) : List WireSym → Option Phase
  | [] => some p
  | w :: ws => match p.next w with
    | none => none
    | some q => Phase.run q ws

/-! ## Invariants -/

/-- Every memory is in canonical form. -/
def State.Canonical (s : State) : Prop :=
  Memory.wf s.cmd = true ∧ Memory.wf s.text = true ∧ Memory.wf s.glyph = true ∧ FrameMem.wf s.rx.fb = true

/-- The receiver's state is a function of the trace (R147). -/
def State.RxFollowsTrace (s : State) : Prop := s.rx = Receiver.after s.tr

/-- What the engine puts into a work list: framed transfers of at least one byte and at most CHUNK_MAX, a command byte being
one of its own (R93, R101, R111). -/
def Work.ok (m : Nat) : Work → Prop
  | .ft v bytes => 1 ≤ bytes.length ∧ bytes.length ≤ m ∧ (v = false → bytes.length = 1)
  | .load _ => True
  | .pin _ _ => True
  | .delay _ => True
  | .text _ _ _ => True
  | .ready => True
  | .done => True

/-- The remaining work list holds only what the engine puts there. -/
def State.WorkOk (s : State) : Prop := ∀ w ∈ s.work, w.ok s.par.chunkMax

/-- `pc` is a multiple of 12 inside a program shorter than 2^32 bytes (R21, D38). -/
def State.Aligned (s : State) : Prop :=
  s.Between ∧ s.pc.toNat % 12 = 0 ∧ s.pc.toNat ≤ 12 * s.progLen ∧ 12 * s.progLen < 2 ^ 32

/-- A line's level is known exactly while it is claimed (R17). -/
def State.PinsFollowClaims (s : State) : Prop :=
  (s.pins.dc.isSome = s.claimed.dc) ∧ (s.pins.rst.isSome = s.claimed.rst) ∧ (s.pins.bl.isSome = s.claimed.bl)

/-- The lifecycle between operations (R14 to R17): never `initializing`; nothing claimed in `uninitialized`; in `ready`
everything claimed, the reset line at 1 and the backlight on; levels known exactly of claimed lines. -/
def State.LifecycleOk (s : State) : Prop :=
  s.Between ∧ s.lc ≠ .initializing ∧
  (s.lc = .uninitialized → s.claimed = ⟨false, false, false, false⟩) ∧
  (s.lc = .ready → s.claimed = ⟨true, true, true, true⟩ ∧ s.pins.rst = some true ∧ s.pins.bl = some s.par.blOn) ∧
  s.PinsFollowClaims

/-- The backlight is on only over a configured controller, and only while its line is held (R170), on a platform whose
claim level of the backlight is not the level that lights it (R81). -/
def State.BacklightOk (s : State) : Prop :=
  s.LifecycleOk ∧ s.par.ok = true ∧ s.par.blInit ≠ s.par.blOn ∧
  (s.rx.bl = some s.par.blOn → s.claimed.bl = true ∧ s.rx.Lit s.par)

/-- How often line `l` was claimed with success. -/
def claimsOf (l : Line) (tr : List Event) : Nat :=
  tr.countP fun e => match e with
    | .claim l' _ .ok => l' == l
    | .claim _ _ .fail => false
    | .openBus _ _ _ _ => false
    | .closeBus => false
    | .release _ => false
    | .pin _ _ => false
    | .xfer _ _ => false
    | .delay _ => false

/-- How often line `l` was released. -/
def releasesOf (l : Line) (tr : List Event) : Nat :=
  tr.countP fun e => match e with
    | .release l' => l' == l
    | .claim _ _ _ => false
    | .openBus _ _ _ _ => false
    | .closeBus => false
    | .pin _ _ => false
    | .xfer _ _ => false
    | .delay _ => false

/-- How often the bus was opened with success. -/
def opensOf (tr : List Event) : Nat :=
  tr.countP fun e => match e with
    | .openBus _ _ _ .ok => true
    | .openBus _ _ _ .fail => false
    | .claim _ _ _ => false
    | .closeBus => false
    | .release _ => false
    | .pin _ _ => false
    | .xfer _ _ => false
    | .delay _ => false

/-- How often the bus was closed. -/
def closesOf (tr : List Event) : Nat :=
  tr.countP fun e => match e with
    | .closeBus => true
    | .openBus _ _ _ _ => false
    | .claim _ _ _ => false
    | .release _ => false
    | .pin _ _ => false
    | .xfer _ _ => false
    | .delay _ => false

/-- Every resource has been released once for each time it was acquired, but for what is held now (R16, R90, R214). -/
def State.Balanced (s : State) : Prop :=
  s.LifecycleOk ∧
  (∀ l, claimsOf l s.tr = releasesOf l s.tr + (s.claimed.line l).toNat) ∧
  opensOf s.tr = closesOf s.tr + s.claimed.bus.toNat

/-- The wire stream so far obeys the discipline of rule R122, and between operations no instruction is cut short. -/
def State.WireOk (s : State) : Prop :=
  s.Between ∧ (Phase.run .rest (wireOf s.tr) = some .rest ∨ Phase.run .rest (wireOf s.tr) = some .pixels)

end Sys2Proof.Machine
end

