-- ==== Sys2Proof/Certificates/Slice0/Obligations.lean ====
section
/-! DEFINITION. The statements for the provers, each a rule of spec/ or a consequence of several, in the order: encoding, the
step, reset, INIT and TEARDOWN, the gate, SETWIN, DRAWPIXEL, FILLSCREEN, DRAWTEXT, the wire instructions, the receiver, chunking,
invariants, frames. `AnswersOk s n` is premise P1 of R172; `Receiver.Synced` is what P1 to P5 establish of the receiver. -/

section

open Sys2Proof Sys2Proof.Machine

/-! ## Encoding -/

/-- R60 to R65, R68 to R72: no field of an encoding is dropped, in either space. -/
def Obligations.EncodedInstructionsDecodeBack : Prop :=
  ∀ i : Instr, i.wellFormed = true → decode (encode i) = .ok i

/-- R68 to R73, R75: a descriptor has a meaning only if it is the encoding of that meaning, so an unknown `op`, a non-zero
`rsv` or a non-zero unused field has none. -/
def Obligations.DescriptorsHaveOneEncoding : Prop :=
  ∀ (bytes : List Byte) (i : Instr), decodeHost bytes = .ok i → encode i = .host bytes

/-- R60, R61, R66: what the wire decoder reads from the front of a stream is the encoding of the instruction it gives. -/
def Obligations.WireInstructionsHaveOneEncoding : Prop :=
  ∀ (items : List Item) (i : Instr) (rest : List Item), decodeWire items = .ok (i, rest) →
    ∃ code, encode i = .wire code ∧ items = code ++ rest

/-- Words written out from the spec (R62, R71; 0x11 is a code of both spaces, log 33; vectors V-WIN-1, V-PIX-1, V-FILL-1, V-TEXT-1). -/
def Obligations.SpecWordsDecode : Prop :=
  decodeHost [0x10, 0, 0, 0, 0x01, 0x3F, 0, 0, 0, 0xEF, 0, 0] = .ok (.setwin 0 319 0 239) ∧
  decodeHost [0x11, 0, 0x01, 0x23, 0, 0xEF, 0xF8, 0, 0, 0, 0, 0] = .ok (.drawpixel 291 239 0xF800) ∧
  decodeHost [0x12, 0, 0x07, 0xE0, 0, 0, 0, 0, 0, 0, 0, 0] = .ok (.fillscreen 0x07E0) ∧
  decodeHost [0x13, 0, 0, 0, 0, 0, 0xFF, 0xFF, 0, 0, 0, 0x03] = .ok (.drawtext 0 0 0xFFFF 0 3) ∧
  decodeHost [0x02, 0, 0, 0, 0, 0, 0, 0, 0, 0, 0, 0] = .ok .teardown ∧
  decodeWire [⟨false, 0x2A⟩, ⟨true, 0⟩, ⟨true, 0⟩, ⟨true, 0x01⟩, ⟨true, 0x3F⟩] = .ok (.wColset 0 319, []) ∧
  decodeWire [⟨false, 0x2C⟩, ⟨true, 0xF8⟩, ⟨true, 0⟩] = .ok (.wMemwr [0xF800], []) ∧
  decodeWire [⟨false, 0x3A⟩, ⟨true, 0x05⟩] = .ok (.wPixfmt 0x05, [])

/-! ## The step -/

/-- R37, R75, R12, R203: between operations, with `pc` inside the program, a step is the whole operation of the descriptor at
`pc`; at the end of the program the engine fetches nothing more and is idle. R203 speaks of `pc = 12 * n`; that the engine is
idle at every `pc` past it too is the model's reading (log 23, DEDUCED). -/
def Obligations.StepRunsTheDescriptorAtPc : Prop :=
  ∀ s : State, s.Between →
    (∀ i : Instr, s.pc.toNat < 12 * s.progLen → decodeHost s.descriptor = .ok i → step s = exec i s) ∧
    (s.par.ok = true → 12 * s.progLen ≤ s.pc.toNat → step s = .next s)

/-- Log 1 (the model's choice; the spec has no step for it): where wire items are placed to be run, a step is the wire
instruction at their front (R60, R66), run with the other items remaining. -/
def Obligations.StepRunsTheNextWireInstruction : Prop :=
  ∀ (s : State) (i : Instr) (rest : List Item), s.work = [] → decodeWire s.stream = .ok (i, rest) →
    step s = exec i { s with stream := rest }

/-- R111, R124, R146: of an operation in progress a step takes the head of the work list. A framed transfer `FT(v, s)` emits its two
events and, where it is a chunk of DATA, counts it (R94); on `fail` the tail is discarded, LC is `failed` and the operation ends
with TransferFailure (`FAIL`). A `Pin` or `Delay` of INIT emits its event; `DONE` ends the operation with OK. The glyph expander goes
from `T_FETCH` through `T_ROW`, `T_BIT` and `T_ADV`, a lit bit putting the window machine before what is left. That SLEN and SPOS are
loaded, and LC becomes `ready`, in steps of their own, and that a placed item which begins no wire instruction is sent as one framed
transfer, are the model's (logs 1, 4); the codes of newline and '?' are the spec's presumption (log 19). -/
def Obligations.StepTakesTheHeadOfTheWork : Prop :=
  ∀ s : State, s.par.ok = true →
    (∀ v bytes rest, s.work = .ft v bytes :: rest →
      (s.responseAt 0 = .ok → ∃ t, step s = .next t ∧ t.tr = s.tr ++ [.pin .dc v, .xfer bytes .ok] ∧
        t.pins = { s.pins with dc := some v } ∧ t.xferIx = s.xferIx + 1 ∧ t.lc = s.lc ∧ t.dp = s.dp ∧ t.gx = s.gx ∧
        t.ck = (if v then { s.ck with clen := bytes.length, spos := s.ck.spos + bytes.length } else s.ck) ∧
        ContinuesWith s t rest) ∧
      (s.responseAt 0 = .fail → ∃ t, step s = .next t ∧ t.tr = s.tr ++ [.pin .dc v, .xfer bytes .fail] ∧
        t.Between ∧ t.lc = .failed ∧ t.claimed = s.claimed ∧ t.status = ⟨.transferFailure, s.xferIx⟩ ∧
        t.statusLog = s.statusLog ++ [⟨.transferFailure, s.xferIx⟩] ∧ t.pc = s.pc + 12)) ∧
    (∀ n rest, s.work = .load n :: rest →
      step s = .next { s with work := rest, ck := { s.ck with slen := n, spos := 0 } }) ∧
    (∀ l v rest, s.work = .pin l v :: rest → ∃ t, step s = .next t ∧ t.tr = s.tr ++ [.pin l v] ∧ t.lc = s.lc ∧
      t.dp = s.dp ∧ t.gx = s.gx ∧ ContinuesWith s t rest) ∧
    (∀ ms rest, s.work = .delay ms :: rest → ∃ t, step s = .next t ∧ t.tr = s.tr ++ [.delay ms] ∧ t.lc = s.lc ∧
      t.pins = s.pins ∧ t.dp = s.dp ∧ t.gx = s.gx ∧ ContinuesWith s t rest) ∧
    (∀ rest, s.work = .ready :: rest → step s = .next { s with work := rest, lc := .ready }) ∧
    (∀ rest, s.work = .done :: rest → ∃ t, step s = .next t ∧ t.Between ∧ t.tr = s.tr ∧ t.lc = s.lc ∧ t.status = ⟨.ok, 0⟩ ∧
      t.statusLog = s.statusLog ++ [⟨.ok, 0⟩] ∧ t.pc = s.pc + 12) ∧
    (∀ addr len rest, s.work = .text .fetch addr len :: rest →
      (s.gx.ci = len → step s = .next { s with work := rest }) ∧
      (s.gx.ci ≠ len → s.textAt (addr + s.gx.ci) = 0x0A →
        step s = .next { s with work := .text .fetch addr len :: rest, gx := { s.gx with ch := 0x0A, ci := s.gx.ci + 1 },
                                dp := { s.dp with cx := s.dp.lsx, cy := s.dp.cy + 10 } }) ∧
      (s.gx.ci ≠ len → s.textAt (addr + s.gx.ci) ≠ 0x0A →
        step s = .next { s with work := .text .row addr len :: rest,
                                gx := { s.gx with ch := s.textAt (addr + s.gx.ci), gr := 0 } })) ∧
    (∀ addr len rest, s.work = .text .row addr len :: rest →
      step s = .next { s with work := .text .bit addr len :: rest,
                              gx := { s.gx with rowb := s.glyphRow (if 128 ≤ s.gx.ch.toNat then 0x3F else s.gx.ch.toNat) s.gx.gr,
                                                gc := 0 } }) ∧
    (∀ addr len rest, s.work = .text .bit addr len :: rest → s.gx.rowb.getLsbD s.gx.gc.toNat = true →
      ∀ x y : Half, x = s.dp.cx + BitVec.ofNat 16 s.gx.gc.toNat → y = s.dp.cy + BitVec.ofNat 16 s.gx.gr.toNat →
        step s = .next { s with work := streamElems s.par.chunkMax x x y y [hi8 s.dp.color, lo8 s.dp.color] ++
                                  .text .pixelDone addr len :: rest,
                                dp := { s.dp with x0 := x, x1 := x, y0 := y, y1 := y } }) ∧
    (∀ q addr len rest, s.work = .text q addr len :: rest →
      q = .pixelDone ∨ (q = .bit ∧ s.gx.rowb.getLsbD s.gx.gc.toNat = false) →
      step s = .next
        (if s.gx.gc < 7 then { s with work := .text .bit addr len :: rest, gx := { s.gx with gc := s.gx.gc + 1 } }
         else if s.gx.gr < 7 then { s with work := .text .row addr len :: rest, gx := { s.gx with gr := s.gx.gr + 1 } }
         else { s with work := .text .adv addr len :: rest })) ∧
    (∀ addr len rest, s.work = .text .adv addr len :: rest →
      step s = .next { s with work := .text .fetch addr len :: rest, gx := { s.gx with ci := s.gx.ci + 1 },
                              dp := if 320 < s.dp.cx.toNat + 8 + 8 then { s.dp with cx := s.dp.lsx, cy := s.dp.cy + 10 }
                                    else { s.dp with cx := s.dp.cx + 8 } }) ∧
    (∀ (it : Item) (rest : List Item) (e : Reject), s.work = [] → s.stream = it :: rest → decodeWire s.stream = .error e →
      AnswersOk s 1 →
      ∃ t, step s = .next t ∧ t.tr = s.tr ++ [.pin .dc it.dc, .xfer [it.byte] .ok] ∧ t.stream = rest)

/-- R73, R178: bytes at `pc` that are the encoding of no operation end with IllegalOp and the `op` byte, in every state of
LC, with nothing changed but what a refusal records. -/
def Obligations.IllegalDescriptorsEndWithIllegalOp : Prop :=
  ∀ s : State, s.par.ok = true → s.Between → s.pc.toNat < 12 * s.progLen →
    (∀ i : Instr, encode i ≠ .host s.descriptor) →
    step s = .next (RefusedWith s ⟨.illegalOp, (s.cmdAt s.pc).toNat⟩)

/-- R183, R22, R21: every host operation that has a next state reports exactly one status, appended to STATUS_LOG, and
advances `pc` by 12; a fatal status leaves LC `failed` (R175, R176). -/
def Obligations.EveryHostOperationReportsOneStatus : Prop :=
  ∀ (s t : State) (i : Instr), i.isWire = false → exec i s = .next t →
    t.statusLog = s.statusLog ++ [t.status] ∧ t.pc = s.pc + 12 ∧
    (t.status.status = .resourceUnavailable ∨ t.status.status = .transferFailure → t.lc = .failed)

/-! ## Reset -/

/-- R30, R198: the values the power-on table states; `none` stands for its `unset`, `none` and `unspecified` (logs 10, 12). -/
def Obligations.ResetLeavesThePowerOnValues : Prop :=
  State.reset.lc = .uninitialized ∧ State.reset.claimed = ⟨false, false, false, false⟩ ∧ State.reset.pc = 0 ∧
  State.reset.status = ⟨.ok, 0⟩ ∧ State.reset.statusLog = [] ∧ State.reset.tr = [] ∧
  State.reset.pins = ⟨none, none, none⟩ ∧
  State.reset.rx.desync = false ∧ State.reset.rx.visualUndefined = false ∧
  State.reset.rx.pixfmt = none ∧ State.reset.rx.madctl = none ∧
  State.reset.rx.xs = none ∧ State.reset.rx.xe = none ∧ State.reset.rx.ys = none ∧ State.reset.rx.ye = none ∧
  State.reset.rx.dc = none ∧ State.reset.rx.rstn = none ∧ State.reset.rx.bl = none ∧
  State.reset.rx.sleepOut = false ∧ State.reset.rx.displayOn = false ∧ State.reset.rx.writing = false ∧
  State.reset.rx.pend = none ∧ State.reset.rx.latch = none ∧ State.reset.rx.sinceSlpout = none ∧
  State.reset.rx.winseq = 0 ∧ State.reset.rx.remaining = 0 ∧ State.reset.rx.quiet = 0 ∧
  (∀ x y, FrameMem.read State.reset.rx.fb x y = none)

/-- The invariants below hold at reset, with the parameters the model takes where R6 leaves them open (log 6). -/
def Obligations.ResetMeetsTheInvariants : Prop :=
  State.reset.Canonical ∧ State.reset.RxFollowsTrace ∧ State.reset.Aligned ∧ State.reset.LifecycleOk ∧
  State.reset.BacklightOk ∧ State.reset.Balanced ∧ State.reset.WireOk ∧ State.reset.WorkOk ∧
  State.reset.par.ok = true

/-! ## INIT and TEARDOWN -/

/-- R80, R88: with every answer `ok`, INIT emits the 22 events in order, holds everything and is `ready`. -/
def Obligations.InitRunsTheWholeSequence : Prop :=
  ∀ s : State, s.par.ok = true → s.lc = .uninitialized → AnswersOk s 10 →
    ∃ t, exec .init s = .next t ∧ t.tr = s.tr ++ initEvents s.par ∧ t.lc = .ready ∧
      t.claimed = ⟨true, true, true, true⟩ ∧ t.pins = ⟨some false, some true, some s.par.blOn⟩ ∧
      t.status = ⟨.ok, 0⟩ ∧ t.statusLog = s.statusLog ++ [⟨.ok, 0⟩] ∧ t.pc = s.pc + 12

/-- R149 to R155 along R80: a successful INIT leaves the receiver reset, configured, awake and on, with the backlight at
BL_ON, no Desync, and every pixel unspecified (V-INIT-1; the pointer, which R30 leaves unspecified, is the model's, log 11). -/
def Obligations.InitConfiguresTheReceiver : Prop :=
  ∀ s : State, s.par.ok = true → s.lc = .uninitialized → AnswersOk s 10 →
    ∃ t, exec .init s = .next t ∧
      t.rx = { Receiver.powerOn (some false) (some true) (some s.par.blOn) with
        pixfmt := some 0x05, madctl := some s.par.madctlVal, sleepOut := true, displayOn := true,
        quiet := s.par.tRstHigh + s.par.tSlpout, sinceSlpout := some s.par.tSlpout }

/-- R86, R175: the first acquisition call that fails ends INIT; the earlier resources stay claimed, nothing later is
emitted, LC is `failed`. -/
def Obligations.InitStopsAtARefusedResource : Prop :=
  ∀ (s : State) (k : Nat), s.par.ok = true → s.lc = .uninitialized → s.claimed = ⟨false, false, false, false⟩ →
    k < 4 → FailsFirstAt s k →
    ∃ t, exec .init s = .next t ∧
      t.tr = s.tr ++ (acquireEvents s.par .ok).take k ++ ((acquireEvents s.par .fail).drop k).take 1 ∧
      t.claimed = claimedFirst k ∧ t.lc = .failed ∧ t.status = ⟨.resourceUnavailable, k⟩ ∧ t.pc = s.pc + 12

/-- R87, R176: the first transfer of INIT that fails ends it; everything stays claimed, the backlight is not enabled, LC is
`failed`, the status carries the index of the transfer. -/
def Obligations.InitStopsAtARejectedTransfer : Prop :=
  ∀ (s : State) (k : Nat), s.par.ok = true → s.lc = .uninitialized → k < 6 → FailsFirstAt s (4 + k) →
    ∃ t, exec .init s = .next t ∧ t.tr = s.tr ++ initFailEvents s.par k ∧
      t.claimed = ⟨true, true, true, true⟩ ∧ t.pins.bl = some s.par.blInit ∧ t.pins.rst = some true ∧
      t.lc = .failed ∧ t.status = ⟨.transferFailure, k⟩ ∧ t.rx.desync = true ∧ t.pc = s.pc + 12

/-- R89, R90, R125, R148: TEARDOWN, in every state, releases what is claimed, each resource once and in the platform's order, and
ends `OK` in `uninitialized`; the receiver, if every line was held, is at its power-on values but for Desync, which the next
reset pulse clears, and visual_undefined, which the release leaves as it was (D29, U12, U1; V-RX-8 differs on both, log 32; the order is a parameter of the model, log 17, the pointer at
power-on is the model's, log 11). -/
def Obligations.TeardownReleasesWhatIsClaimed : Prop :=
  ∀ s : State, s.par.ok = true →
    (∃ t, exec .teardown s = .next t ∧ t.tr = s.tr ++ releaseEvents s.par.releaseOrder s.claimed ∧
      t.claimed = ⟨false, false, false, false⟩ ∧ t.lc = .uninitialized ∧
      t.status = ⟨.ok, 0⟩ ∧ t.statusLog = s.statusLog ++ [⟨.ok, 0⟩] ∧ t.pc = s.pc + 12 ∧
      (s.claimed = ⟨true, true, true, true⟩ → t.rx = { Receiver.powerOn none none none with desync := true, visualUndefined := s.rx.visualUndefined })) ∧
    (releaseEvents s.par.releaseOrder s.claimed).Perm (releaseEvents Resource.referenceOrder s.claimed)

/-- R89, R91, R92: after a TEARDOWN the lifecycle is as at power-on, and a second one emits nothing. -/
def Obligations.TeardownIsIdempotent : Prop :=
  ∀ s : State, s.par.ok = true → s.PinsFollowClaims →
    ∃ t u, exec .teardown s = .next t ∧ exec .teardown t = .next u ∧ u.tr = t.tr ∧ u.rx = t.rx ∧
      t.lc = State.reset.lc ∧ t.claimed = State.reset.claimed ∧ t.pins = State.reset.pins ∧
      u.lc = t.lc ∧ u.claimed = t.claimed ∧ u.pins = t.pins ∧ u.status = ⟨.ok, 0⟩

/-- R92, R185: from every state, a TEARDOWN and an INIT whose calls are all accepted recover the engine and the receiver. -/
def Obligations.TeardownAndInitRecover : Prop :=
  ∀ s : State, s.par.ok = true → AnswersOk s 10 →
    ∃ t u, exec .teardown s = .next t ∧ exec .init t = .next u ∧ u.lc = .ready ∧ u.rx.Synced ∧ u.rx.Lit s.par

/-! ## The gate -/

/-- R79, R80, R177, R189: INIT outside `uninitialized`, and a drawing operation outside `ready`, are refused with the code of
LC; no event is emitted and nothing else changes. -/
def Obligations.OperationsOutsideTheirStateAreRefused : Prop :=
  ∀ (s : State) (i : Instr), s.par.ok = true →
    (i = .init ∧ s.lc ≠ .uninitialized) ∨ (i.isDrawing = true ∧ s.lc ≠ .ready) →
    exec i s = .next (RefusedWith s ⟨.badState, s.lc.code⟩)

/-- R7: under a configuration that breaks a constraint no operation and no step has a meaning, the idle one at the end of the program
among them; the refusal that says so, and the two constraints beside those of R7, are the model's (log 7, log 17). -/
def Obligations.IllFormedConfigurationsAreRefused : Prop :=
  ∀ s : State, s.par.ok = false → (∀ i : Instr, exec i s = .refused .illFormedConfig) ∧ step s = .refused .illFormedConfig

/-! ## SETWIN -/

/-- R113: SETWIN sends the window program, whatever the coordinates, and loads the window registers, which keep it (log 16). -/
def Obligations.SetwinSendsTheWindowProgram : Prop :=
  ∀ (s : State) (x0 x1 y0 y1 : Half), s.par.ok = true → s.lc = .ready →
    AnswersOk s (windowWork s.par.chunkMax x0 x1 y0 y1).length →
    ∃ t, exec (.setwin x0 x1 y0 y1) s = .next t ∧
      t.tr = s.tr ++ okEvents (windowWork s.par.chunkMax x0 x1 y0 y1) ∧
      wireOf t.tr = wireOf s.tr ++ symsOf [⟨false, 0x2A⟩, ⟨true, hi8 x0⟩, ⟨true, lo8 x0⟩, ⟨true, hi8 x1⟩, ⟨true, lo8 x1⟩,
        ⟨false, 0x2B⟩, ⟨true, hi8 y0⟩, ⟨true, lo8 y0⟩, ⟨true, hi8 y1⟩, ⟨true, lo8 y1⟩, ⟨false, 0x2C⟩] ∧
      t.dp.x0 = x0 ∧ t.dp.x1 = x1 ∧ t.dp.y0 = y0 ∧ t.dp.y1 = y1 ∧
      t.lc = .ready ∧ t.status = ⟨.ok, 0⟩ ∧ t.pc = s.pc + 12

/-- R115, R158: after a SETWIN inside the panel the receiver awaits exactly the pixels of the window, from its first corner. -/
def Obligations.SetwinOpensItsWindow : Prop :=
  ∀ (s : State) (x0 x1 y0 y1 : Half), s.par.ok = true → s.lc = .ready → s.rx.Synced → WindowInPanel x0 x1 y0 y1 →
    AnswersOk s (windowWork s.par.chunkMax x0 x1 y0 y1).length →
    ∃ t, exec (.setwin x0 x1 y0 y1) s = .next t ∧ t.rx.desync = false ∧ t.rx.writing = true ∧
      t.rx.xs = some x0 ∧ t.rx.xe = some x1 ∧ t.rx.ys = some y0 ∧ t.rx.ye = some y1 ∧
      t.rx.px = x0.toNat ∧ t.rx.py = y0.toNat ∧ t.rx.latch = none ∧ t.rx.fb = s.rx.fb ∧
      t.rx.remaining = (x1.toNat - x0.toNat + 1) * (y1.toNat - y0.toNat + 1)

/-- R114, R160: SETWIN with a window outside the panel ends `OK` all the same, and the receiver is in Desync. -/
def Obligations.SetwinOutsideThePanelLosesTheReceiver : Prop :=
  ∀ (s : State) (x0 x1 y0 y1 : Half), s.par.ok = true → s.lc = .ready → s.rx.Synced → ¬WindowInPanel x0 x1 y0 y1 →
    AnswersOk s (windowWork s.par.chunkMax x0 x1 y0 y1).length →
    ∃ t, exec (.setwin x0 x1 y0 y1) s = .next t ∧ t.status = ⟨.ok, 0⟩ ∧ t.lc = .ready ∧ t.rx.desync = true

/-- R116: a drawing operation after a host-issued SETWIN inside the panel, whatever it is, begins with a command while pixels are
awaited: Desync (R164). A DRAWTEXT that lights no pixel sends nothing (R141) and is left out (log 19 for which do). -/
def Obligations.DrawingAfterSetwinLosesTheReceiver : Prop :=
  ∀ (s : State) (x0 x1 y0 y1 : Half) (i : Instr), s.par.ok = true → s.lc = .ready → s.rx.Synced →
    WindowInPanel x0 x1 y0 y1 → i.isDrawing = true → drawWork s i ≠ [] →
    AnswersOk s ((windowWork s.par.chunkMax x0 x1 y0 y1).length + (drawWork s i).length) →
    ∃ t u, exec (.setwin x0 x1 y0 y1) s = .next t ∧ exec i t = .next u ∧
      u.status = ⟨.ok, 0⟩ ∧ u.rx.desync = true

/-! ## DRAWPIXEL -/

/-- R117, R118: DRAWPIXEL sends a 1x1 window program and one big-endian pixel, whatever the coordinates; its registers keep what
it wrote (log 16). -/
def Obligations.DrawpixelSendsOnePixel : Prop :=
  ∀ (s : State) (x y c : Half), s.par.ok = true → s.lc = .ready →
    AnswersOk s (pixelWork s.par.chunkMax x y c).length →
    ∃ t, exec (.drawpixel x y c) s = .next t ∧
      t.tr = s.tr ++ okEvents (pixelWork s.par.chunkMax x y c) ∧
      wireOf t.tr = wireOf s.tr ++ symsOf [⟨false, 0x2A⟩, ⟨true, hi8 x⟩, ⟨true, lo8 x⟩, ⟨true, hi8 x⟩, ⟨true, lo8 x⟩,
        ⟨false, 0x2B⟩, ⟨true, hi8 y⟩, ⟨true, lo8 y⟩, ⟨true, hi8 y⟩, ⟨true, lo8 y⟩, ⟨false, 0x2C⟩,
        ⟨true, hi8 c⟩, ⟨true, lo8 c⟩] ∧
      t.dp.x0 = x ∧ t.dp.x1 = x ∧ t.dp.y0 = y ∧ t.dp.y1 = y ∧ t.dp.color = c ∧
      t.lc = .ready ∧ t.status = ⟨.ok, 0⟩ ∧ t.pc = s.pc + 12

/-- R172 (a), (c), (e): inside the panel exactly one pixel of the frame memory changes, and the receiver stays in step. -/
def Obligations.DrawpixelWritesExactlyOnePixel : Prop :=
  ∀ (s : State) (x y c : Half), s.par.ok = true → s.lc = .ready → s.rx.Synced → InPanel x y →
    AnswersOk s (pixelWork s.par.chunkMax x y c).length →
    ∃ t, exec (.drawpixel x y c) s = .next t ∧ t.rx.Synced ∧ t.rx.visualUndefined = s.rx.visualUndefined ∧
      ∀ x' y', FrameMem.read t.rx.fb x' y' =
        if x' = x.toNat ∧ y' = y.toNat then some c else FrameMem.read s.rx.fb x' y'

/-- R102, R113, R117, R119, R125, R142: a failing transfer `k` of a drawing operation ends it there, with the earlier
transfers delivered, LC `failed`, CLAIMED unchanged, the status carrying `k`, counted over the whole operation, and the
receiver in Desync (R168). The transfers of DRAWTEXT depend on the codes of newline and '?', which the spec presumes (log 19). -/
def Obligations.DrawingStopsAtARejectedTransfer : Prop :=
  ∀ (s : State) (i : Instr) (fts : List FT) (k : Nat),
    ((∃ x0 x1 y0 y1, i = .setwin x0 x1 y0 y1 ∧ fts = windowWork s.par.chunkMax x0 x1 y0 y1) ∨
     (∃ x y c, i = .drawpixel x y c ∧ fts = pixelWork s.par.chunkMax x y c) ∨
     (∃ c, i = .fillscreen c ∧ fts = fillWork s.par.chunkMax c) ∨
     (∃ x y c addr len, i = .drawtext x y c addr len ∧ fts = textWork s x y c addr len)) →
    s.par.ok = true → s.lc = .ready → k < fts.length → FailsFirstAt s k →
    ∃ t, exec i s = .next t ∧ t.tr = s.tr ++ failEvents fts k ∧ t.lc = .failed ∧ t.claimed = s.claimed ∧
      t.status = ⟨.transferFailure, k⟩ ∧ t.statusLog = s.statusLog ++ [⟨.transferFailure, k⟩] ∧ t.pc = s.pc + 12 ∧
      t.rx.desync = true

/-! ## FILLSCREEN -/

/-- R119, R121, R123: FILLSCREEN sends the full-panel window and 76800 copies of the colour, high byte first: with CHUNK_MAX
4096, 43 transfers, 86 events and 153611 wire items. Its registers keep what it wrote (log 16). -/
def Obligations.FillscreenSendsThePanel : Prop :=
  ∀ (s : State) (c : Half), s.par.ok = true → s.lc = .ready → AnswersOk s (fillWork s.par.chunkMax c).length →
    ∃ t, exec (.fillscreen c) s = .next t ∧
      t.tr = s.tr ++ okEvents (fillWork s.par.chunkMax c) ∧
      wireOf t.tr = wireOf s.tr ++ symsOf ([⟨false, 0x2A⟩, ⟨true, 0x00⟩, ⟨true, 0x00⟩, ⟨true, 0x01⟩, ⟨true, 0x3F⟩,
        ⟨false, 0x2B⟩, ⟨true, 0x00⟩, ⟨true, 0x00⟩, ⟨true, 0x00⟩, ⟨true, 0xEF⟩, ⟨false, 0x2C⟩] ++
        (List.replicate 76800 [⟨true, hi8 c⟩, ⟨true, lo8 c⟩]).flatten) ∧
      t.dp.color = c ∧ t.dp.x0 = 0 ∧ t.dp.x1 = 319 ∧ t.dp.y0 = 0 ∧ t.dp.y1 = 239 ∧
      t.lc = .ready ∧ t.status = ⟨.ok, 0⟩ ∧ t.pc = s.pc + 12 ∧
      (s.par.chunkMax = 4096 → xferCount t.tr = xferCount s.tr + 43 ∧ t.tr.length = s.tr.length + 86 ∧
        (wireOf t.tr).length = (wireOf s.tr).length + 153611)

/-- R172 (a), (b), (e): after FILLSCREEN every pixel of the panel has the colour, and the receiver stays in step. -/
def Obligations.FillscreenFillsThePanel : Prop :=
  ∀ (s : State) (c : Half), s.par.ok = true → s.lc = .ready → s.rx.Synced →
    AnswersOk s (fillWork s.par.chunkMax c).length →
    ∃ t, exec (.fillscreen c) s = .next t ∧ t.rx.Synced ∧ t.rx.remaining = 0 ∧
      ∀ x y, x < 320 → y < 240 → FrameMem.read t.rx.fb x y = some c

/-! ## DRAWTEXT -/

/-- R127 to R140: DRAWTEXT draws the pixels of the reference rendering, in order, each by the full body of DRAWPIXEL, and
leaves its cursor where the reference does (the codes of newline and '?' are the spec's presumption, log 19; CX, CY, LSX keep
what the operation wrote, log 16). -/
def Obligations.DrawtextDrawsTheReferenceText : Prop :=
  ∀ (s : State) (x y c addr len : Half), s.par.ok = true → s.lc = .ready →
    AnswersOk s (textWork s x y c addr len).length →
    ∃ t, exec (.drawtext x y c addr len) s = .next t ∧ t.tr = s.tr ++ okEvents (textWork s x y c addr len) ∧
      (t.dp.cx, t.dp.cy) = textCursor s x y addr len ∧ t.dp.lsx = x ∧
      t.lc = .ready ∧ t.status = ⟨.ok, 0⟩ ∧ t.pc = s.pc + 12

/-- R172 (a), (d), (e), R133 (log 19 for the codes of newline and '?'): if every lit pixel is inside the panel, exactly the lit pixels change, each to the colour. -/
def Obligations.DrawtextChangesExactlyTheLitPixels : Prop :=
  ∀ (s : State) (x y c addr len : Half), s.par.ok = true → s.lc = .ready → s.rx.Synced →
    (∀ p ∈ textPixels s x y addr len, InPanel p.1 p.2) →
    AnswersOk s (textWork s x y c addr len).length →
    ∃ t, exec (.drawtext x y c addr len) s = .next t ∧ t.rx.Synced ∧
      ∀ x' y', FrameMem.read t.rx.fb x' y' =
        if ∃ p ∈ textPixels s x y addr len, x' = p.1.toNat ∧ y' = p.2.toNat then some c
        else FrameMem.read s.rx.fb x' y'

/-- R141, R128: an empty text emits no event and ends `OK`; a newline draws nothing, returns the cursor to the call's x and
moves it down by 10 (0x0A is the spec's presumption, log 19; log 16 for the registers). -/
def Obligations.EmptyTextAndNewlineEmitNothing : Prop :=
  ∀ (s : State) (x y c addr : Half), s.par.ok = true → s.lc = .ready →
    (∃ t, exec (.drawtext x y c addr 0) s = .next t ∧ t.tr = s.tr ∧ t.rx = s.rx ∧ t.status = ⟨.ok, 0⟩ ∧
      t.lc = .ready ∧ t.dp.cx = x ∧ t.dp.cy = y ∧ t.dp.lsx = x) ∧
    (s.textAt addr = 0x0A →
      ∃ t, exec (.drawtext x y c addr 1) s = .next t ∧ t.tr = s.tr ∧ t.rx = s.rx ∧ t.status = ⟨.ok, 0⟩ ∧
        t.lc = .ready ∧ t.dp.cx = x ∧ t.dp.cy = y + 10)

/-- R134, R137: after any other character the cursor goes to `CX + 8`, or, where `CX + 8 + 8 > 320` on naturals, to the line
start of the next line (log 16, log 19). -/
def Obligations.CursorAdvancesAndWraps : Prop :=
  ∀ (s : State) (x y c addr : Half), s.par.ok = true → s.lc = .ready → s.textAt addr ≠ 0x0A →
    AnswersOk s (textWork s x y c addr 1).length →
    ∃ t, exec (.drawtext x y c addr 1) s = .next t ∧ t.status = ⟨.ok, 0⟩ ∧
      (320 < x.toNat + 8 + 8 → t.dp.cx = x ∧ t.dp.cy = y + 10) ∧
      (x.toNat + 8 + 8 ≤ 320 → t.dp.cx = x + 8 ∧ t.dp.cy = y)

/-- R136 (1): from x = 0 a line holds exactly 40 characters; the wrap happens after the 40th (log 16, log 19). -/
def Obligations.FortyCharactersFillALine : Prop :=
  ∀ (s : State) (y c addr len : Half), s.par.ok = true → s.lc = .ready →
    (∀ ch ∈ textCodes s addr len, ch ≠ 0x0A) → len.toNat ≤ 40 → AnswersOk s (textWork s 0 y c addr len).length →
    ∃ t, exec (.drawtext 0 y c addr len) s = .next t ∧ t.status = ⟨.ok, 0⟩ ∧
      (t.dp.cx, t.dp.cy) = if len.toNat = 40 then (0, y + 10) else (8 * len, y)

/-- R129: a code of 128 or more is rendered as '?' is: the same events, the same status and, where it ends `OK`, the same cursor
('?' is 0x3F by the spec's presumption, log 19; that the cursor keeps its value after the operation is log 16). -/
def Obligations.CodesFrom128AreRenderedAsQuestionMarks : Prop :=
  ∀ (s : State) (x y c addr : Half), s.par.ok = true → 128 ≤ (s.textAt addr).toNat →
    ∃ t u, exec (.drawtext x y c addr 1) s = .next t ∧
      exec (.drawtext x y c addr 1) { s with text := Mem.write s.text addr.toNat 0x3F } = .next u ∧
      u.tr = t.tr ∧ u.rx = t.rx ∧ u.status = t.status ∧ u.lc = t.lc ∧
      (t.status.status = .ok → u.dp.cx = t.dp.cx ∧ u.dp.cy = t.dp.cy)

/-! ## The wire instructions -/

/-- R104 to R110: each wire instruction emits its framed transfers (R111); with more left to do the operation goes on, with
nothing left it is done and ends `OK` (log 1). -/
def Obligations.WireInstructionsEmitTheirTransfers : Prop :=
  ∀ (s : State) (i : Instr), i.isWire = true → s.par.ok = true →
    AnswersOk s (wireWork s.par.chunkMax i).length →
    ∃ t, exec i s = .next t ∧ t.tr = s.tr ++ okEvents (wireWork s.par.chunkMax i) ∧ t.lc = s.lc ∧
      (¬s.Between → t.work = s.work ∧ t.stream = s.stream ∧ t.status = s.status ∧ t.statusLog = s.statusLog ∧ t.pc = s.pc ∧
        t.xferIx = s.xferIx + (wireWork s.par.chunkMax i).length) ∧
      (s.Between → t.Between ∧ t.status = ⟨.ok, 0⟩ ∧ t.statusLog = s.statusLog ++ [⟨.ok, 0⟩] ∧ t.pc = s.pc + 12)

/-- R60 to R64, R103: what a wire instruction puts on the wire is exactly its encoding. -/
def Obligations.WireInstructionsPutTheirEncodingOnTheWire : Prop :=
  ∀ (s : State) (i : Instr) (items : List Item), encode i = .wire items → s.par.ok = true →
    AnswersOk s (wireWork s.par.chunkMax i).length →
    ∃ t, exec i s = .next t ∧ wireOf t.tr = wireOf s.tr ++ symsOf items

/-- R102, R104 to R111: a failing transfer of a wire instruction discards the rest of the work and ends the operation. -/
def Obligations.WireInstructionsStopAtARejectedTransfer : Prop :=
  ∀ (s : State) (i : Instr) (k : Nat), i.isWire = true → s.par.ok = true →
    k < (wireWork s.par.chunkMax i).length → FailsFirstAt s k →
    ∃ t, exec i s = .next t ∧ t.tr = s.tr ++ failEvents (wireWork s.par.chunkMax i) k ∧ t.lc = .failed ∧ t.Between ∧
      t.status = ⟨.transferFailure, s.xferIx + k⟩ ∧ t.pc = s.pc + 12 ∧ t.rx.desync = true

/-- R152, R153: the receiver stores the pixel format and the orientation byte. -/
def Obligations.ReceiverStoresFormatAndOrientation : Prop :=
  ∀ (s : State) (p : Byte), s.par.ok = true → s.rx.Listening → s.rx.AtRest → AnswersOk s 2 →
    (∃ t, exec (.wPixfmt p) s = .next t ∧
      t.rx = { s.rx with dc := some true, writing := false, pend := none, winseq := 0, pixfmt := some p }) ∧
    (∃ t, exec (.wMemctl p) s = .next t ∧
      t.rx = { s.rx with dc := some true, writing := false, pend := none, winseq := 0, madctl := some p })

/-- R154, R155: sleep-out starts the wait; display-on sooner than 120 ms after it, or without it, leaves the visual output
undefined. -/
def Obligations.ReceiverWakesAndTurnsOn : Prop :=
  ∀ s : State, s.par.ok = true → s.rx.Listening → s.rx.AtRest → AnswersOk s 1 →
    (∃ t, exec .wSlpout s = .next t ∧ t.rx.sleepOut = true ∧ t.rx.sinceSlpout = some 0 ∧ t.rx.desync = false) ∧
    (∃ t, exec .wDispon s = .next t ∧ t.rx.displayOn = true ∧ t.rx.desync = false ∧
      (t.rx.visualUndefined = true ↔
        s.rx.visualUndefined = true ∨ s.rx.sinceSlpout = none ∨ ∃ ms, s.rx.sinceSlpout = some ms ∧ ms < 120))

/-- R156, R157, R64: the receiver takes the column range and the row range, and counts a row range only right after a column
range. -/
def Obligations.ReceiverTakesTheRanges : Prop :=
  ∀ (s : State) (a b : Half), s.par.ok = true → s.rx.Listening → s.rx.AtRest → AnswersOk s 5 →
    (∃ t, exec (.wColset a b) s = .next t ∧
      t.rx = { s.rx with dc := some true, writing := false, pend := none, winseq := 1, xs := some a, xe := some b }) ∧
    (∃ t, exec (.wRowset a b) s = .next t ∧
      t.rx = { s.rx with dc := some true, writing := false, pend := none, winseq := if s.rx.winseq = 1 then 2 else 0,
                         ys := some a, ye := some b })

/-- R65, R158, R161, R162, R164: after a window program, a W_MEMWR with at most as many pixels as the window holds writes pixel
`k` at column `x0 + k mod w` and row `y0 + k div w` and no other; the pointer stands at the next pixel, the receiver awaits the
rest of the window, and nothing is left open where it is full. -/
def Obligations.MemoryWriteIsRowMajor : Prop :=
  ∀ (s : State) (cs : List Half) (x0 x1 y0 y1 : Half) (w n : Nat), s.par.ok = true → s.rx.Synced → s.rx.winseq = 2 →
    s.rx.xs = some x0 → s.rx.xe = some x1 → s.rx.ys = some y0 → s.rx.ye = some y1 → WindowInPanel x0 x1 y0 y1 →
    w = x1.toNat - x0.toNat + 1 → n = w * (y1.toNat - y0.toNat + 1) → cs.length ≤ n →
    AnswersOk s (wireWork s.par.chunkMax (.wMemwr cs)).length →
    ∃ t, exec (.wMemwr cs) s = .next t ∧ t.rx.desync = false ∧ t.rx.writing = true ∧ t.rx.latch = none ∧
      t.rx.remaining = n - cs.length ∧
      t.rx.px = x0.toNat + cs.length % w ∧ t.rx.py = y0.toNat + cs.length / w ∧
      (cs.length = n → t.rx.Synced) ∧
      (∀ (k : Nat) (h : k < cs.length), FrameMem.read t.rx.fb (x0.toNat + k % w) (y0.toNat + k / w) = some cs[k]) ∧
      (∀ x y, (∀ k, k < cs.length → ¬(x = x0.toNat + k % w ∧ y = y0.toNat + k / w)) →
        FrameMem.read t.rx.fb x y = FrameMem.read s.rx.fb x y)

/-- R158 to R160, R163: a W_MEMWR without the window program right before it, or outside the panel, or without the 16-bit
format and an orientation, is Desync; and so are more pixels than the window holds. -/
def Obligations.BadMemoryWritesLoseTheReceiver : Prop :=
  ∀ (s : State) (cs : List Half), s.par.ok = true → s.rx.Listening → s.rx.AtRest →
    AnswersOk s (wireWork s.par.chunkMax (.wMemwr cs)).length →
    (s.rx.winseq ≠ 2 ∨ s.rx.windowOk = false ∨ s.rx.pixfmt ≠ some 0x05 ∨ s.rx.madctl = none ∨
      (∃ x0 x1 y0 y1, s.rx.xs = some x0 ∧ s.rx.xe = some x1 ∧ s.rx.ys = some y0 ∧ s.rx.ye = some y1 ∧
        (x1.toNat - x0.toNat + 1) * (y1.toNat - y0.toNat + 1) < cs.length)) →
    ∃ t, exec (.wMemwr cs) s = .next t ∧ t.rx.desync = true

/-! ## The receiver's rules -/

/-- R149, R150: a reset pulse shorter than 10 ms, and an item sooner than 10 ms after the reset line moved, are Desync; at 10 ms
neither is: the pulse leaves no Desync, and the item is handled as a datum or a command (R151, R161), so that a known command
other than W_MEMWR is no Desync where nothing is in progress. With the reset line not at 1 every item is Desync. -/
def Obligations.ResetPulseTiming : Prop :=
  ∀ (r : Receiver) (v : Level) (b : Byte), r.desync = false →
    (r.rstn = some false → ((r.observe (.pin .rst true)).desync = true ↔ r.quiet < 10)) ∧
    (r.rstn = some true → r.quiet < 10 → (r.item v b).desync = true) ∧
    (r.rstn = some true → 10 ≤ r.quiet → r.item v b = if v then r.datum b else r.command b) ∧
    (r.rstn = some true → 10 ≤ r.quiet → r.AtRest → ∀ c, WireCmd.ofCode b = some c → c ≠ .memwr →
      (r.item false b).desync = false) ∧
    (r.rstn ≠ some true → (r.item v b).desync = true)

/-- R163 to R167: a command while a parameter (R166) or a pixel (R164) is awaited, an unknown command (R167), a data byte with
nothing awaited (R165) and one after the last pixel of a window (R163) are each Desync; R166 and R167 are the spec's own
decision D29. -/
def Obligations.BrokenStreamsLoseTheReceiver : Prop :=
  ∀ (r : Receiver) (b : Byte), r.Listening →
    (r.pend ≠ none → (r.item false b).desync = true) ∧
    (r.payloadOpen = true → (r.item false b).desync = true) ∧
    (WireCmd.ofCode b = none → (r.item false b).desync = true) ∧
    (r.pend = none → r.writing = false → (r.item true b).desync = true) ∧
    (r.pend = none → r.writing = true → r.remaining = 0 → (r.item true b).desync = true)

/-- R125, R169, R149: in Desync no transfer changes anything, and only the reset line driven low ends it; the release of the reset
line sets it (D29, U12; log 32). R155: visual_undefined, once set, is cleared by the same events alone (U1; log 32). -/
def Obligations.DesyncIsStickyUntilReset : Prop :=
  ∀ (r : Receiver), r.desync = true → r.fb = [] →
    (∀ bytes a, r.observe (.xfer bytes a) = r) ∧
    (∀ e : Event, (r.observe e).desync = false → e = .pin .rst false ∨ e = .claim .rst false .ok) ∧
    (∀ r' : Receiver, (r'.observe (.release .rst)).desync = true) ∧
    (∀ (r' : Receiver) (e : Event), r'.visualUndefined = true → (r'.observe e).visualUndefined = false →
      e = .pin .rst false ∨ e = .claim .rst false .ok)

/-! ## Chunking -/

/-- R97 to R99: the chunks are the stream in order, `ceil(|s| / M)` of them, each with at least one byte and at most `M`, every
one but the last full. -/
def Obligations.ChunksPartitionTheStream : Prop :=
  ∀ (m : Nat) (bytes : List Byte), 1 ≤ m →
    (chunks m bytes).flatten = bytes ∧ (chunks m bytes).length = (bytes.length + m - 1) / m ∧
    (∀ ch ∈ chunks m bytes, 1 ≤ ch.length ∧ ch.length ≤ m) ∧
    (∀ ch ∈ (chunks m bytes).dropLast, ch.length = m)

/-- R58, R171: two runs of a drawing operation that differ only in CHUNK_MAX and in the answers, both ending `OK`, put the same
items on the wire and leave the receiver in the same state. -/
def Obligations.ChunkSizeIsInvisible : Prop :=
  ∀ (s t u : State) (i : Instr) (m : Nat) (answers : List Response), i.isDrawing = true →
    exec i s = .next t → t.status.status = .ok →
    exec i { s with par := { s.par with chunkMax := m }, env := answers } = .next u → u.status.status = .ok →
    wireOf u.tr = wireOf t.tr ∧ u.rx = t.rx

/-! ## Invariants every step keeps -/

/-- R147, R148: the receiver's state is a function of the trace. -/
def Obligations.ReceiverFollowsTheTrace : Prop :=
  ∀ s t : State, s.RxFollowsTrace → step s = .next t → t.RxFollowsTrace

/-- Every memory stays in canonical form. -/
def Obligations.MemoriesStayCanonical : Prop :=
  ∀ s t : State, s.Canonical → step s = .next t → t.Canonical

/-- R29, R56, R39: no step changes the parameters, the program, the text or the glyph ROM. -/
def Obligations.InputsNeverChange : Prop :=
  ∀ s t : State, step s = .next t → SameInputs s t

/-- R21, D38: `pc` stays a multiple of 12 inside the program. -/
def Obligations.PcStaysAligned : Prop :=
  ∀ s t : State, s.Aligned → step s = .next t → t.Aligned

/-- R14 to R17, R189: the lifecycle between operations. -/
def Obligations.LifecycleStaysLegal : Prop :=
  ∀ s t : State, s.LifecycleOk → step s = .next t → t.LifecycleOk

/-- R170, R85: the backlight is on only over a configured controller. -/
def Obligations.BacklightOnlyOverAConfiguredController : Prop :=
  ∀ s t : State, s.BacklightOk → step s = .next t → t.BacklightOk

/-- R16, R90, R214: every resource is released exactly as often as it was acquired, but for what is held. -/
def Obligations.EveryResourceIsReleasedOnce : Prop :=
  ∀ s t : State, s.Balanced → step s = .next t → t.Balanced

/-- R122, R36, R208: pixel data is only ever sent right after a window program, and every other data byte is a parameter of
its command. -/
def Obligations.WireStreamKeepsTheDiscipline : Prop :=
  ∀ s t : State, s.WireOk → step s = .next t → t.WireOk

/-- R95, R96, R101, R204, R211: from a work list the engine can have (R111), every transfer is immediately preceded by a write of
the DC line, carries at least one byte and at most CHUNK_MAX, and exactly one where the line is at 0; and what a step leaves of
the work list is one again. -/
def Obligations.EveryTransferIsFramed : Prop :=
  ∀ (s t : State), s.WorkOk → step s = .next t →
    t.WorkOk ∧
    ∃ evs, t.tr = s.tr ++ evs ∧
      ∀ pre bytes r post, evs = pre ++ .xfer bytes r :: post →
        ∃ pre' v, pre = pre' ++ [.pin .dc v] ∧ 1 ≤ bytes.length ∧ bytes.length ≤ s.par.chunkMax ∧
          s.par.chunkMax ≤ s.par.xferMax ∧ (v = false → bytes.length = 1)

/-! ## Frames -/

/-- The frame of the seven wire instructions: inputs, CLAIMED, the RST and BL pins, the datapath and glyph registers are
unchanged; LC is unchanged or `failed`; the receiver's reset and backlight levels and its quiet time are unchanged; and, unless
the receiver is in Desync, every pixel is unchanged, but for W_MEMWR those of the receiver's window. -/
def Obligations.FrameOfWireInstructions : Prop :=
  ∀ (s t : State) (i : Instr), i.isWire = true → exec i s = .next t →
    SameInputs s t ∧ t.claimed = s.claimed ∧ t.pins.rst = s.pins.rst ∧ t.pins.bl = s.pins.bl ∧
    t.dp = s.dp ∧ t.gx = s.gx ∧ (t.lc = s.lc ∨ t.lc = .failed) ∧
    t.rx.rstn = s.rx.rstn ∧ t.rx.bl = s.rx.bl ∧ t.rx.quiet = s.rx.quiet ∧
    ((∀ cs, i ≠ .wMemwr cs) → t.rx.desync = true ∨ t.rx.fb = s.rx.fb) ∧
    (∀ cs, i = .wMemwr cs → t.rx.desync = true ∨
      ∃ x0 x1 y0 y1, s.rx.xs = some x0 ∧ s.rx.xe = some x1 ∧ s.rx.ys = some y0 ∧ s.rx.ye = some y1 ∧
        ∀ x y, ¬(x0.toNat ≤ x ∧ x ≤ x1.toNat ∧ y0.toNat ≤ y ∧ y ≤ y1.toNat) →
          FrameMem.read t.rx.fb x y = FrameMem.read s.rx.fb x y)

/-- The frame of SETWIN, DRAWPIXEL, FILLSCREEN and DRAWTEXT: inputs, CLAIMED, the RST and BL pins are unchanged; LC is
unchanged or `failed`; the text cursor and the glyph registers are unchanged but by DRAWTEXT; of the receiver the line levels
of RST and BL, the clocks, the format, the orientation and the power state are unchanged; a pixel outside those the operation
writes is unchanged unless the receiver is in Desync. The pixels of a text are those of the reference rendering, which rests on
the codes of newline and '?' that the spec presumes (log 19). -/
def Obligations.FrameOfDrawing : Prop :=
  ∀ (s t : State) (i : Instr), i.isDrawing = true → exec i s = .next t →
    SameInputs s t ∧ t.claimed = s.claimed ∧ t.pins.rst = s.pins.rst ∧ t.pins.bl = s.pins.bl ∧
    (t.lc = s.lc ∨ t.lc = .failed) ∧
    ((∀ x y c addr len, i ≠ .drawtext x y c addr len) →
      t.dp.cx = s.dp.cx ∧ t.dp.cy = s.dp.cy ∧ t.dp.lsx = s.dp.lsx ∧ t.gx = s.gx) ∧
    t.rx.rstn = s.rx.rstn ∧ t.rx.bl = s.rx.bl ∧ t.rx.quiet = s.rx.quiet ∧ t.rx.sinceSlpout = s.rx.sinceSlpout ∧
    t.rx.pixfmt = s.rx.pixfmt ∧ t.rx.madctl = s.rx.madctl ∧ t.rx.sleepOut = s.rx.sleepOut ∧
    t.rx.displayOn = s.rx.displayOn ∧ t.rx.visualUndefined = s.rx.visualUndefined ∧
    (t.rx.desync = true ∨
      ((∀ x0 x1 y0 y1, i = .setwin x0 x1 y0 y1 → t.dp.color = s.dp.color ∧ t.rx.fb = s.rx.fb) ∧
       (∀ x y c, i = .drawpixel x y c → ∀ x' y', ¬(x' = x.toNat ∧ y' = y.toNat) →
          FrameMem.read t.rx.fb x' y' = FrameMem.read s.rx.fb x' y') ∧
       (∀ c, i = .fillscreen c → ∀ x' y', ¬(x' < 320 ∧ y' < 240) →
          FrameMem.read t.rx.fb x' y' = FrameMem.read s.rx.fb x' y') ∧
       (∀ x y c addr len, i = .drawtext x y c addr len → ∀ x' y',
          (∀ p ∈ textPixels s x y addr len, ¬(x' = p.1.toNat ∧ y' = p.2.toNat)) →
          FrameMem.read t.rx.fb x' y' = FrameMem.read s.rx.fb x' y')))

/-- The frame of INIT and TEARDOWN: inputs and every datapath and glyph register are unchanged; TEARDOWN changes no chunking
register either, consumes no answer of the environment, and, where the reset line is not claimed, changes no pixel. -/
def Obligations.FrameOfLifecycle : Prop :=
  ∀ (s t : State),
    (exec .init s = .next t → SameInputs s t ∧ t.dp = s.dp ∧ t.gx = s.gx) ∧
    (exec .teardown s = .next t → SameInputs s t ∧ t.dp = s.dp ∧ t.gx = s.gx ∧ t.ck = s.ck ∧
      t.env = s.env ∧ t.asked = s.asked ∧
      (s.claimed.rst = false → t.rx.fb = s.rx.fb ∧ t.rx.desync = s.rx.desync))

end
end

