-- ==== Sys2Proof/Laws/State.lean ====
section
/-! SUPPORT. One lemma per field per update of the state: what each named operation of the machine writes, and that it writes
nothing else. Proofs rewrite with these and do not unfold the updates. -/

namespace Sys2Proof.Machine

variable (s : State)

@[simp] theorem State.emit_par (e : Event) : (s.emit e).par = s.par := rfl
@[simp] theorem State.emit_cmd (e : Event) : (s.emit e).cmd = s.cmd := rfl
@[simp] theorem State.emit_progLen (e : Event) : (s.emit e).progLen = s.progLen := rfl
@[simp] theorem State.emit_text (e : Event) : (s.emit e).text = s.text := rfl
@[simp] theorem State.emit_glyph (e : Event) : (s.emit e).glyph = s.glyph := rfl
@[simp] theorem State.emit_env (e : Event) : (s.emit e).env = s.env := rfl
@[simp] theorem State.emit_asked (e : Event) : (s.emit e).asked = s.asked := rfl
@[simp] theorem State.emit_lc (e : Event) : (s.emit e).lc = s.lc := rfl
@[simp] theorem State.emit_claimed (e : Event) : (s.emit e).claimed = s.claimed := rfl
@[simp] theorem State.emit_pins (e : Event) : (s.emit e).pins = s.pins := rfl
@[simp] theorem State.emit_dp (e : Event) : (s.emit e).dp = s.dp := rfl
@[simp] theorem State.emit_gx (e : Event) : (s.emit e).gx = s.gx := rfl
@[simp] theorem State.emit_ck (e : Event) : (s.emit e).ck = s.ck := rfl
@[simp] theorem State.emit_pc (e : Event) : (s.emit e).pc = s.pc := rfl
@[simp] theorem State.emit_status (e : Event) : (s.emit e).status = s.status := rfl
@[simp] theorem State.emit_statusLog (e : Event) : (s.emit e).statusLog = s.statusLog := rfl
@[simp] theorem State.emit_tr (e : Event) : (s.emit e).tr = s.tr ++ [e] := rfl
@[simp] theorem State.emit_work (e : Event) : (s.emit e).work = s.work := rfl
@[simp] theorem State.emit_stream (e : Event) : (s.emit e).stream = s.stream := rfl
@[simp] theorem State.emit_xferIx (e : Event) : (s.emit e).xferIx = s.xferIx := rfl
@[simp] theorem State.emit_rx (e : Event) : (s.emit e).rx = s.rx.observe e := rfl

@[simp] theorem State.answered_par : (s.answered).par = s.par := rfl
@[simp] theorem State.answered_cmd : (s.answered).cmd = s.cmd := rfl
@[simp] theorem State.answered_progLen : (s.answered).progLen = s.progLen := rfl
@[simp] theorem State.answered_text : (s.answered).text = s.text := rfl
@[simp] theorem State.answered_glyph : (s.answered).glyph = s.glyph := rfl
@[simp] theorem State.answered_env : (s.answered).env = s.env.tail := rfl
@[simp] theorem State.answered_asked : (s.answered).asked = s.asked + 1 := rfl
@[simp] theorem State.answered_lc : (s.answered).lc = s.lc := rfl
@[simp] theorem State.answered_claimed : (s.answered).claimed = s.claimed := rfl
@[simp] theorem State.answered_pins : (s.answered).pins = s.pins := rfl
@[simp] theorem State.answered_dp : (s.answered).dp = s.dp := rfl
@[simp] theorem State.answered_gx : (s.answered).gx = s.gx := rfl
@[simp] theorem State.answered_ck : (s.answered).ck = s.ck := rfl
@[simp] theorem State.answered_pc : (s.answered).pc = s.pc := rfl
@[simp] theorem State.answered_status : (s.answered).status = s.status := rfl
@[simp] theorem State.answered_statusLog : (s.answered).statusLog = s.statusLog := rfl
@[simp] theorem State.answered_tr : (s.answered).tr = s.tr := rfl
@[simp] theorem State.answered_work : (s.answered).work = s.work := rfl
@[simp] theorem State.answered_stream : (s.answered).stream = s.stream := rfl
@[simp] theorem State.answered_xferIx : (s.answered).xferIx = s.xferIx := rfl
@[simp] theorem State.answered_rx : (s.answered).rx = s.rx := rfl

@[simp] theorem State.setPin_par (l : Line) (v : Option Level) : (s.setPin l v).par = s.par := rfl
@[simp] theorem State.setPin_cmd (l : Line) (v : Option Level) : (s.setPin l v).cmd = s.cmd := rfl
@[simp] theorem State.setPin_progLen (l : Line) (v : Option Level) : (s.setPin l v).progLen = s.progLen := rfl
@[simp] theorem State.setPin_text (l : Line) (v : Option Level) : (s.setPin l v).text = s.text := rfl
@[simp] theorem State.setPin_glyph (l : Line) (v : Option Level) : (s.setPin l v).glyph = s.glyph := rfl
@[simp] theorem State.setPin_env (l : Line) (v : Option Level) : (s.setPin l v).env = s.env := rfl
@[simp] theorem State.setPin_asked (l : Line) (v : Option Level) : (s.setPin l v).asked = s.asked := rfl
@[simp] theorem State.setPin_lc (l : Line) (v : Option Level) : (s.setPin l v).lc = s.lc := rfl
@[simp] theorem State.setPin_claimed (l : Line) (v : Option Level) : (s.setPin l v).claimed = s.claimed := rfl
@[simp] theorem State.setPin_dp (l : Line) (v : Option Level) : (s.setPin l v).dp = s.dp := rfl
@[simp] theorem State.setPin_gx (l : Line) (v : Option Level) : (s.setPin l v).gx = s.gx := rfl
@[simp] theorem State.setPin_ck (l : Line) (v : Option Level) : (s.setPin l v).ck = s.ck := rfl
@[simp] theorem State.setPin_pc (l : Line) (v : Option Level) : (s.setPin l v).pc = s.pc := rfl
@[simp] theorem State.setPin_status (l : Line) (v : Option Level) : (s.setPin l v).status = s.status := rfl
@[simp] theorem State.setPin_statusLog (l : Line) (v : Option Level) : (s.setPin l v).statusLog = s.statusLog := rfl
@[simp] theorem State.setPin_tr (l : Line) (v : Option Level) : (s.setPin l v).tr = s.tr := rfl
@[simp] theorem State.setPin_work (l : Line) (v : Option Level) : (s.setPin l v).work = s.work := rfl
@[simp] theorem State.setPin_stream (l : Line) (v : Option Level) : (s.setPin l v).stream = s.stream := rfl
@[simp] theorem State.setPin_xferIx (l : Line) (v : Option Level) : (s.setPin l v).xferIx = s.xferIx := rfl
@[simp] theorem State.setPin_rx (l : Line) (v : Option Level) : (s.setPin l v).rx = s.rx := rfl

@[simp] theorem State.setClaimed_par (l : Line) (v : Bool) : (s.setClaimed l v).par = s.par := rfl
@[simp] theorem State.setClaimed_cmd (l : Line) (v : Bool) : (s.setClaimed l v).cmd = s.cmd := rfl
@[simp] theorem State.setClaimed_progLen (l : Line) (v : Bool) : (s.setClaimed l v).progLen = s.progLen := rfl
@[simp] theorem State.setClaimed_text (l : Line) (v : Bool) : (s.setClaimed l v).text = s.text := rfl
@[simp] theorem State.setClaimed_glyph (l : Line) (v : Bool) : (s.setClaimed l v).glyph = s.glyph := rfl
@[simp] theorem State.setClaimed_env (l : Line) (v : Bool) : (s.setClaimed l v).env = s.env := rfl
@[simp] theorem State.setClaimed_asked (l : Line) (v : Bool) : (s.setClaimed l v).asked = s.asked := rfl
@[simp] theorem State.setClaimed_lc (l : Line) (v : Bool) : (s.setClaimed l v).lc = s.lc := rfl
@[simp] theorem State.setClaimed_pins (l : Line) (v : Bool) : (s.setClaimed l v).pins = s.pins := rfl
@[simp] theorem State.setClaimed_dp (l : Line) (v : Bool) : (s.setClaimed l v).dp = s.dp := rfl
@[simp] theorem State.setClaimed_gx (l : Line) (v : Bool) : (s.setClaimed l v).gx = s.gx := rfl
@[simp] theorem State.setClaimed_ck (l : Line) (v : Bool) : (s.setClaimed l v).ck = s.ck := rfl
@[simp] theorem State.setClaimed_pc (l : Line) (v : Bool) : (s.setClaimed l v).pc = s.pc := rfl
@[simp] theorem State.setClaimed_status (l : Line) (v : Bool) : (s.setClaimed l v).status = s.status := rfl
@[simp] theorem State.setClaimed_statusLog (l : Line) (v : Bool) : (s.setClaimed l v).statusLog = s.statusLog := rfl
@[simp] theorem State.setClaimed_tr (l : Line) (v : Bool) : (s.setClaimed l v).tr = s.tr := rfl
@[simp] theorem State.setClaimed_work (l : Line) (v : Bool) : (s.setClaimed l v).work = s.work := rfl
@[simp] theorem State.setClaimed_stream (l : Line) (v : Bool) : (s.setClaimed l v).stream = s.stream := rfl
@[simp] theorem State.setClaimed_xferIx (l : Line) (v : Bool) : (s.setClaimed l v).xferIx = s.xferIx := rfl
@[simp] theorem State.setClaimed_rx (l : Line) (v : Bool) : (s.setClaimed l v).rx = s.rx := rfl

@[simp] theorem State.drive_par (l : Line) (v : Level) : (s.drive l v).par = s.par := rfl
@[simp] theorem State.drive_cmd (l : Line) (v : Level) : (s.drive l v).cmd = s.cmd := rfl
@[simp] theorem State.drive_progLen (l : Line) (v : Level) : (s.drive l v).progLen = s.progLen := rfl
@[simp] theorem State.drive_text (l : Line) (v : Level) : (s.drive l v).text = s.text := rfl
@[simp] theorem State.drive_glyph (l : Line) (v : Level) : (s.drive l v).glyph = s.glyph := rfl
@[simp] theorem State.drive_env (l : Line) (v : Level) : (s.drive l v).env = s.env := rfl
@[simp] theorem State.drive_asked (l : Line) (v : Level) : (s.drive l v).asked = s.asked := rfl
@[simp] theorem State.drive_lc (l : Line) (v : Level) : (s.drive l v).lc = s.lc := rfl
@[simp] theorem State.drive_claimed (l : Line) (v : Level) : (s.drive l v).claimed = s.claimed := rfl
@[simp] theorem State.drive_dp (l : Line) (v : Level) : (s.drive l v).dp = s.dp := rfl
@[simp] theorem State.drive_gx (l : Line) (v : Level) : (s.drive l v).gx = s.gx := rfl
@[simp] theorem State.drive_ck (l : Line) (v : Level) : (s.drive l v).ck = s.ck := rfl
@[simp] theorem State.drive_pc (l : Line) (v : Level) : (s.drive l v).pc = s.pc := rfl
@[simp] theorem State.drive_status (l : Line) (v : Level) : (s.drive l v).status = s.status := rfl
@[simp] theorem State.drive_statusLog (l : Line) (v : Level) : (s.drive l v).statusLog = s.statusLog := rfl
@[simp] theorem State.drive_tr (l : Line) (v : Level) : (s.drive l v).tr = s.tr ++ [.pin l v] := rfl
@[simp] theorem State.drive_work (l : Line) (v : Level) : (s.drive l v).work = s.work := rfl
@[simp] theorem State.drive_stream (l : Line) (v : Level) : (s.drive l v).stream = s.stream := rfl
@[simp] theorem State.drive_xferIx (l : Line) (v : Level) : (s.drive l v).xferIx = s.xferIx := rfl
@[simp] theorem State.drive_rx (l : Line) (v : Level) : (s.drive l v).rx = s.rx.setLine l v := rfl

@[simp] theorem State.sleep_par (ms : Nat) : (s.sleep ms).par = s.par := rfl
@[simp] theorem State.sleep_cmd (ms : Nat) : (s.sleep ms).cmd = s.cmd := rfl
@[simp] theorem State.sleep_progLen (ms : Nat) : (s.sleep ms).progLen = s.progLen := rfl
@[simp] theorem State.sleep_text (ms : Nat) : (s.sleep ms).text = s.text := rfl
@[simp] theorem State.sleep_glyph (ms : Nat) : (s.sleep ms).glyph = s.glyph := rfl
@[simp] theorem State.sleep_env (ms : Nat) : (s.sleep ms).env = s.env := rfl
@[simp] theorem State.sleep_asked (ms : Nat) : (s.sleep ms).asked = s.asked := rfl
@[simp] theorem State.sleep_lc (ms : Nat) : (s.sleep ms).lc = s.lc := rfl
@[simp] theorem State.sleep_claimed (ms : Nat) : (s.sleep ms).claimed = s.claimed := rfl
@[simp] theorem State.sleep_pins (ms : Nat) : (s.sleep ms).pins = s.pins := rfl
@[simp] theorem State.sleep_dp (ms : Nat) : (s.sleep ms).dp = s.dp := rfl
@[simp] theorem State.sleep_gx (ms : Nat) : (s.sleep ms).gx = s.gx := rfl
@[simp] theorem State.sleep_ck (ms : Nat) : (s.sleep ms).ck = s.ck := rfl
@[simp] theorem State.sleep_pc (ms : Nat) : (s.sleep ms).pc = s.pc := rfl
@[simp] theorem State.sleep_status (ms : Nat) : (s.sleep ms).status = s.status := rfl
@[simp] theorem State.sleep_statusLog (ms : Nat) : (s.sleep ms).statusLog = s.statusLog := rfl
@[simp] theorem State.sleep_tr (ms : Nat) : (s.sleep ms).tr = s.tr ++ [.delay ms] := rfl
@[simp] theorem State.sleep_work (ms : Nat) : (s.sleep ms).work = s.work := rfl
@[simp] theorem State.sleep_stream (ms : Nat) : (s.sleep ms).stream = s.stream := rfl
@[simp] theorem State.sleep_xferIx (ms : Nat) : (s.sleep ms).xferIx = s.xferIx := rfl
@[simp] theorem State.sleep_rx (ms : Nat) : (s.sleep ms).rx = s.rx.wait ms := rfl

@[simp] theorem State.loadWindow_par (x0 x1 y0 y1 : Half) : (s.loadWindow x0 x1 y0 y1).par = s.par := rfl
@[simp] theorem State.loadWindow_cmd (x0 x1 y0 y1 : Half) : (s.loadWindow x0 x1 y0 y1).cmd = s.cmd := rfl
@[simp] theorem State.loadWindow_progLen (x0 x1 y0 y1 : Half) : (s.loadWindow x0 x1 y0 y1).progLen = s.progLen := rfl
@[simp] theorem State.loadWindow_text (x0 x1 y0 y1 : Half) : (s.loadWindow x0 x1 y0 y1).text = s.text := rfl
@[simp] theorem State.loadWindow_glyph (x0 x1 y0 y1 : Half) : (s.loadWindow x0 x1 y0 y1).glyph = s.glyph := rfl
@[simp] theorem State.loadWindow_env (x0 x1 y0 y1 : Half) : (s.loadWindow x0 x1 y0 y1).env = s.env := rfl
@[simp] theorem State.loadWindow_asked (x0 x1 y0 y1 : Half) : (s.loadWindow x0 x1 y0 y1).asked = s.asked := rfl
@[simp] theorem State.loadWindow_lc (x0 x1 y0 y1 : Half) : (s.loadWindow x0 x1 y0 y1).lc = s.lc := rfl
@[simp] theorem State.loadWindow_claimed (x0 x1 y0 y1 : Half) : (s.loadWindow x0 x1 y0 y1).claimed = s.claimed := rfl
@[simp] theorem State.loadWindow_pins (x0 x1 y0 y1 : Half) : (s.loadWindow x0 x1 y0 y1).pins = s.pins := rfl
@[simp] theorem State.loadWindow_dp (x0 x1 y0 y1 : Half) : (s.loadWindow x0 x1 y0 y1).dp = { s.dp with x0 := x0, x1 := x1, y0 := y0, y1 := y1 } := rfl
@[simp] theorem State.loadWindow_gx (x0 x1 y0 y1 : Half) : (s.loadWindow x0 x1 y0 y1).gx = s.gx := rfl
@[simp] theorem State.loadWindow_ck (x0 x1 y0 y1 : Half) : (s.loadWindow x0 x1 y0 y1).ck = s.ck := rfl
@[simp] theorem State.loadWindow_pc (x0 x1 y0 y1 : Half) : (s.loadWindow x0 x1 y0 y1).pc = s.pc := rfl
@[simp] theorem State.loadWindow_status (x0 x1 y0 y1 : Half) : (s.loadWindow x0 x1 y0 y1).status = s.status := rfl
@[simp] theorem State.loadWindow_statusLog (x0 x1 y0 y1 : Half) : (s.loadWindow x0 x1 y0 y1).statusLog = s.statusLog := rfl
@[simp] theorem State.loadWindow_tr (x0 x1 y0 y1 : Half) : (s.loadWindow x0 x1 y0 y1).tr = s.tr := rfl
@[simp] theorem State.loadWindow_work (x0 x1 y0 y1 : Half) : (s.loadWindow x0 x1 y0 y1).work = s.work := rfl
@[simp] theorem State.loadWindow_stream (x0 x1 y0 y1 : Half) : (s.loadWindow x0 x1 y0 y1).stream = s.stream := rfl
@[simp] theorem State.loadWindow_xferIx (x0 x1 y0 y1 : Half) : (s.loadWindow x0 x1 y0 y1).xferIx = s.xferIx := rfl
@[simp] theorem State.loadWindow_rx (x0 x1 y0 y1 : Half) : (s.loadWindow x0 x1 y0 y1).rx = s.rx := rfl

@[simp] theorem State.loadColor_par (c : Half) : (s.loadColor c).par = s.par := rfl
@[simp] theorem State.loadColor_cmd (c : Half) : (s.loadColor c).cmd = s.cmd := rfl
@[simp] theorem State.loadColor_progLen (c : Half) : (s.loadColor c).progLen = s.progLen := rfl
@[simp] theorem State.loadColor_text (c : Half) : (s.loadColor c).text = s.text := rfl
@[simp] theorem State.loadColor_glyph (c : Half) : (s.loadColor c).glyph = s.glyph := rfl
@[simp] theorem State.loadColor_env (c : Half) : (s.loadColor c).env = s.env := rfl
@[simp] theorem State.loadColor_asked (c : Half) : (s.loadColor c).asked = s.asked := rfl
@[simp] theorem State.loadColor_lc (c : Half) : (s.loadColor c).lc = s.lc := rfl
@[simp] theorem State.loadColor_claimed (c : Half) : (s.loadColor c).claimed = s.claimed := rfl
@[simp] theorem State.loadColor_pins (c : Half) : (s.loadColor c).pins = s.pins := rfl
@[simp] theorem State.loadColor_dp (c : Half) : (s.loadColor c).dp = { s.dp with color := c } := rfl
@[simp] theorem State.loadColor_gx (c : Half) : (s.loadColor c).gx = s.gx := rfl
@[simp] theorem State.loadColor_ck (c : Half) : (s.loadColor c).ck = s.ck := rfl
@[simp] theorem State.loadColor_pc (c : Half) : (s.loadColor c).pc = s.pc := rfl
@[simp] theorem State.loadColor_status (c : Half) : (s.loadColor c).status = s.status := rfl
@[simp] theorem State.loadColor_statusLog (c : Half) : (s.loadColor c).statusLog = s.statusLog := rfl
@[simp] theorem State.loadColor_tr (c : Half) : (s.loadColor c).tr = s.tr := rfl
@[simp] theorem State.loadColor_work (c : Half) : (s.loadColor c).work = s.work := rfl
@[simp] theorem State.loadColor_stream (c : Half) : (s.loadColor c).stream = s.stream := rfl
@[simp] theorem State.loadColor_xferIx (c : Half) : (s.loadColor c).xferIx = s.xferIx := rfl
@[simp] theorem State.loadColor_rx (c : Half) : (s.loadColor c).rx = s.rx := rfl

@[simp] theorem State.loadText_par (x y c : Half) : (s.loadText x y c).par = s.par := rfl
@[simp] theorem State.loadText_cmd (x y c : Half) : (s.loadText x y c).cmd = s.cmd := rfl
@[simp] theorem State.loadText_progLen (x y c : Half) : (s.loadText x y c).progLen = s.progLen := rfl
@[simp] theorem State.loadText_text (x y c : Half) : (s.loadText x y c).text = s.text := rfl
@[simp] theorem State.loadText_glyph (x y c : Half) : (s.loadText x y c).glyph = s.glyph := rfl
@[simp] theorem State.loadText_env (x y c : Half) : (s.loadText x y c).env = s.env := rfl
@[simp] theorem State.loadText_asked (x y c : Half) : (s.loadText x y c).asked = s.asked := rfl
@[simp] theorem State.loadText_lc (x y c : Half) : (s.loadText x y c).lc = s.lc := rfl
@[simp] theorem State.loadText_claimed (x y c : Half) : (s.loadText x y c).claimed = s.claimed := rfl
@[simp] theorem State.loadText_pins (x y c : Half) : (s.loadText x y c).pins = s.pins := rfl
@[simp] theorem State.loadText_dp (x y c : Half) : (s.loadText x y c).dp = { s.dp with cx := x, cy := y, lsx := x, color := c } := rfl
@[simp] theorem State.loadText_gx (x y c : Half) : (s.loadText x y c).gx = { s.gx with ci := 0 } := rfl
@[simp] theorem State.loadText_ck (x y c : Half) : (s.loadText x y c).ck = s.ck := rfl
@[simp] theorem State.loadText_pc (x y c : Half) : (s.loadText x y c).pc = s.pc := rfl
@[simp] theorem State.loadText_status (x y c : Half) : (s.loadText x y c).status = s.status := rfl
@[simp] theorem State.loadText_statusLog (x y c : Half) : (s.loadText x y c).statusLog = s.statusLog := rfl
@[simp] theorem State.loadText_tr (x y c : Half) : (s.loadText x y c).tr = s.tr := rfl
@[simp] theorem State.loadText_work (x y c : Half) : (s.loadText x y c).work = s.work := rfl
@[simp] theorem State.loadText_stream (x y c : Half) : (s.loadText x y c).stream = s.stream := rfl
@[simp] theorem State.loadText_xferIx (x y c : Half) : (s.loadText x y c).xferIx = s.xferIx := rfl
@[simp] theorem State.loadText_rx (x y c : Half) : (s.loadText x y c).rx = s.rx := rfl

@[simp] theorem State.newLine_par : (s.newLine).par = s.par := rfl
@[simp] theorem State.newLine_cmd : (s.newLine).cmd = s.cmd := rfl
@[simp] theorem State.newLine_progLen : (s.newLine).progLen = s.progLen := rfl
@[simp] theorem State.newLine_text : (s.newLine).text = s.text := rfl
@[simp] theorem State.newLine_glyph : (s.newLine).glyph = s.glyph := rfl
@[simp] theorem State.newLine_env : (s.newLine).env = s.env := rfl
@[simp] theorem State.newLine_asked : (s.newLine).asked = s.asked := rfl
@[simp] theorem State.newLine_lc : (s.newLine).lc = s.lc := rfl
@[simp] theorem State.newLine_claimed : (s.newLine).claimed = s.claimed := rfl
@[simp] theorem State.newLine_pins : (s.newLine).pins = s.pins := rfl
@[simp] theorem State.newLine_dp : (s.newLine).dp = { s.dp with cx := s.dp.lsx, cy := s.dp.cy + 10 } := rfl
@[simp] theorem State.newLine_gx : (s.newLine).gx = s.gx := rfl
@[simp] theorem State.newLine_ck : (s.newLine).ck = s.ck := rfl
@[simp] theorem State.newLine_pc : (s.newLine).pc = s.pc := rfl
@[simp] theorem State.newLine_status : (s.newLine).status = s.status := rfl
@[simp] theorem State.newLine_statusLog : (s.newLine).statusLog = s.statusLog := rfl
@[simp] theorem State.newLine_tr : (s.newLine).tr = s.tr := rfl
@[simp] theorem State.newLine_work : (s.newLine).work = s.work := rfl
@[simp] theorem State.newLine_stream : (s.newLine).stream = s.stream := rfl
@[simp] theorem State.newLine_xferIx : (s.newLine).xferIx = s.xferIx := rfl
@[simp] theorem State.newLine_rx : (s.newLine).rx = s.rx := rfl

@[simp] theorem State.loadStream_par (n : Nat) : (s.loadStream n).par = s.par := rfl
@[simp] theorem State.loadStream_cmd (n : Nat) : (s.loadStream n).cmd = s.cmd := rfl
@[simp] theorem State.loadStream_progLen (n : Nat) : (s.loadStream n).progLen = s.progLen := rfl
@[simp] theorem State.loadStream_text (n : Nat) : (s.loadStream n).text = s.text := rfl
@[simp] theorem State.loadStream_glyph (n : Nat) : (s.loadStream n).glyph = s.glyph := rfl
@[simp] theorem State.loadStream_env (n : Nat) : (s.loadStream n).env = s.env := rfl
@[simp] theorem State.loadStream_asked (n : Nat) : (s.loadStream n).asked = s.asked := rfl
@[simp] theorem State.loadStream_lc (n : Nat) : (s.loadStream n).lc = s.lc := rfl
@[simp] theorem State.loadStream_claimed (n : Nat) : (s.loadStream n).claimed = s.claimed := rfl
@[simp] theorem State.loadStream_pins (n : Nat) : (s.loadStream n).pins = s.pins := rfl
@[simp] theorem State.loadStream_dp (n : Nat) : (s.loadStream n).dp = s.dp := rfl
@[simp] theorem State.loadStream_gx (n : Nat) : (s.loadStream n).gx = s.gx := rfl
@[simp] theorem State.loadStream_ck (n : Nat) : (s.loadStream n).ck = { s.ck with slen := n, spos := 0 } := rfl
@[simp] theorem State.loadStream_pc (n : Nat) : (s.loadStream n).pc = s.pc := rfl
@[simp] theorem State.loadStream_status (n : Nat) : (s.loadStream n).status = s.status := rfl
@[simp] theorem State.loadStream_statusLog (n : Nat) : (s.loadStream n).statusLog = s.statusLog := rfl
@[simp] theorem State.loadStream_tr (n : Nat) : (s.loadStream n).tr = s.tr := rfl
@[simp] theorem State.loadStream_work (n : Nat) : (s.loadStream n).work = s.work := rfl
@[simp] theorem State.loadStream_stream (n : Nat) : (s.loadStream n).stream = s.stream := rfl
@[simp] theorem State.loadStream_xferIx (n : Nat) : (s.loadStream n).xferIx = s.xferIx := rfl
@[simp] theorem State.loadStream_rx (n : Nat) : (s.loadStream n).rx = s.rx := rfl

@[simp] theorem State.loadChunk_par (n : Nat) : (s.loadChunk n).par = s.par := rfl
@[simp] theorem State.loadChunk_cmd (n : Nat) : (s.loadChunk n).cmd = s.cmd := rfl
@[simp] theorem State.loadChunk_progLen (n : Nat) : (s.loadChunk n).progLen = s.progLen := rfl
@[simp] theorem State.loadChunk_text (n : Nat) : (s.loadChunk n).text = s.text := rfl
@[simp] theorem State.loadChunk_glyph (n : Nat) : (s.loadChunk n).glyph = s.glyph := rfl
@[simp] theorem State.loadChunk_env (n : Nat) : (s.loadChunk n).env = s.env := rfl
@[simp] theorem State.loadChunk_asked (n : Nat) : (s.loadChunk n).asked = s.asked := rfl
@[simp] theorem State.loadChunk_lc (n : Nat) : (s.loadChunk n).lc = s.lc := rfl
@[simp] theorem State.loadChunk_claimed (n : Nat) : (s.loadChunk n).claimed = s.claimed := rfl
@[simp] theorem State.loadChunk_pins (n : Nat) : (s.loadChunk n).pins = s.pins := rfl
@[simp] theorem State.loadChunk_dp (n : Nat) : (s.loadChunk n).dp = s.dp := rfl
@[simp] theorem State.loadChunk_gx (n : Nat) : (s.loadChunk n).gx = s.gx := rfl
@[simp] theorem State.loadChunk_ck (n : Nat) : (s.loadChunk n).ck = { s.ck with clen := n } := rfl
@[simp] theorem State.loadChunk_pc (n : Nat) : (s.loadChunk n).pc = s.pc := rfl
@[simp] theorem State.loadChunk_status (n : Nat) : (s.loadChunk n).status = s.status := rfl
@[simp] theorem State.loadChunk_statusLog (n : Nat) : (s.loadChunk n).statusLog = s.statusLog := rfl
@[simp] theorem State.loadChunk_tr (n : Nat) : (s.loadChunk n).tr = s.tr := rfl
@[simp] theorem State.loadChunk_work (n : Nat) : (s.loadChunk n).work = s.work := rfl
@[simp] theorem State.loadChunk_stream (n : Nat) : (s.loadChunk n).stream = s.stream := rfl
@[simp] theorem State.loadChunk_xferIx (n : Nat) : (s.loadChunk n).xferIx = s.xferIx := rfl
@[simp] theorem State.loadChunk_rx (n : Nat) : (s.loadChunk n).rx = s.rx := rfl

@[simp] theorem State.countChunk_par (n : Nat) : (s.countChunk n).par = s.par := rfl
@[simp] theorem State.countChunk_cmd (n : Nat) : (s.countChunk n).cmd = s.cmd := rfl
@[simp] theorem State.countChunk_progLen (n : Nat) : (s.countChunk n).progLen = s.progLen := rfl
@[simp] theorem State.countChunk_text (n : Nat) : (s.countChunk n).text = s.text := rfl
@[simp] theorem State.countChunk_glyph (n : Nat) : (s.countChunk n).glyph = s.glyph := rfl
@[simp] theorem State.countChunk_env (n : Nat) : (s.countChunk n).env = s.env := rfl
@[simp] theorem State.countChunk_asked (n : Nat) : (s.countChunk n).asked = s.asked := rfl
@[simp] theorem State.countChunk_lc (n : Nat) : (s.countChunk n).lc = s.lc := rfl
@[simp] theorem State.countChunk_claimed (n : Nat) : (s.countChunk n).claimed = s.claimed := rfl
@[simp] theorem State.countChunk_pins (n : Nat) : (s.countChunk n).pins = s.pins := rfl
@[simp] theorem State.countChunk_dp (n : Nat) : (s.countChunk n).dp = s.dp := rfl
@[simp] theorem State.countChunk_gx (n : Nat) : (s.countChunk n).gx = s.gx := rfl
@[simp] theorem State.countChunk_ck (n : Nat) : (s.countChunk n).ck = { s.ck with spos := s.ck.spos + n } := rfl
@[simp] theorem State.countChunk_pc (n : Nat) : (s.countChunk n).pc = s.pc := rfl
@[simp] theorem State.countChunk_status (n : Nat) : (s.countChunk n).status = s.status := rfl
@[simp] theorem State.countChunk_statusLog (n : Nat) : (s.countChunk n).statusLog = s.statusLog := rfl
@[simp] theorem State.countChunk_tr (n : Nat) : (s.countChunk n).tr = s.tr := rfl
@[simp] theorem State.countChunk_work (n : Nat) : (s.countChunk n).work = s.work := rfl
@[simp] theorem State.countChunk_stream (n : Nat) : (s.countChunk n).stream = s.stream := rfl
@[simp] theorem State.countChunk_xferIx (n : Nat) : (s.countChunk n).xferIx = s.xferIx := rfl
@[simp] theorem State.countChunk_rx (n : Nat) : (s.countChunk n).rx = s.rx := rfl

@[simp] theorem State.setGc_par (c : BitVec 3) : (s.setGc c).par = s.par := rfl
@[simp] theorem State.setGc_cmd (c : BitVec 3) : (s.setGc c).cmd = s.cmd := rfl
@[simp] theorem State.setGc_progLen (c : BitVec 3) : (s.setGc c).progLen = s.progLen := rfl
@[simp] theorem State.setGc_text (c : BitVec 3) : (s.setGc c).text = s.text := rfl
@[simp] theorem State.setGc_glyph (c : BitVec 3) : (s.setGc c).glyph = s.glyph := rfl
@[simp] theorem State.setGc_env (c : BitVec 3) : (s.setGc c).env = s.env := rfl
@[simp] theorem State.setGc_asked (c : BitVec 3) : (s.setGc c).asked = s.asked := rfl
@[simp] theorem State.setGc_lc (c : BitVec 3) : (s.setGc c).lc = s.lc := rfl
@[simp] theorem State.setGc_claimed (c : BitVec 3) : (s.setGc c).claimed = s.claimed := rfl
@[simp] theorem State.setGc_pins (c : BitVec 3) : (s.setGc c).pins = s.pins := rfl
@[simp] theorem State.setGc_dp (c : BitVec 3) : (s.setGc c).dp = s.dp := rfl
@[simp] theorem State.setGc_gx (c : BitVec 3) : (s.setGc c).gx = { s.gx with gc := c } := rfl
@[simp] theorem State.setGc_ck (c : BitVec 3) : (s.setGc c).ck = s.ck := rfl
@[simp] theorem State.setGc_pc (c : BitVec 3) : (s.setGc c).pc = s.pc := rfl
@[simp] theorem State.setGc_status (c : BitVec 3) : (s.setGc c).status = s.status := rfl
@[simp] theorem State.setGc_statusLog (c : BitVec 3) : (s.setGc c).statusLog = s.statusLog := rfl
@[simp] theorem State.setGc_tr (c : BitVec 3) : (s.setGc c).tr = s.tr := rfl
@[simp] theorem State.setGc_work (c : BitVec 3) : (s.setGc c).work = s.work := rfl
@[simp] theorem State.setGc_stream (c : BitVec 3) : (s.setGc c).stream = s.stream := rfl
@[simp] theorem State.setGc_xferIx (c : BitVec 3) : (s.setGc c).xferIx = s.xferIx := rfl
@[simp] theorem State.setGc_rx (c : BitVec 3) : (s.setGc c).rx = s.rx := rfl

@[simp] theorem State.setGr_par (r : BitVec 3) : (s.setGr r).par = s.par := rfl
@[simp] theorem State.setGr_cmd (r : BitVec 3) : (s.setGr r).cmd = s.cmd := rfl
@[simp] theorem State.setGr_progLen (r : BitVec 3) : (s.setGr r).progLen = s.progLen := rfl
@[simp] theorem State.setGr_text (r : BitVec 3) : (s.setGr r).text = s.text := rfl
@[simp] theorem State.setGr_glyph (r : BitVec 3) : (s.setGr r).glyph = s.glyph := rfl
@[simp] theorem State.setGr_env (r : BitVec 3) : (s.setGr r).env = s.env := rfl
@[simp] theorem State.setGr_asked (r : BitVec 3) : (s.setGr r).asked = s.asked := rfl
@[simp] theorem State.setGr_lc (r : BitVec 3) : (s.setGr r).lc = s.lc := rfl
@[simp] theorem State.setGr_claimed (r : BitVec 3) : (s.setGr r).claimed = s.claimed := rfl
@[simp] theorem State.setGr_pins (r : BitVec 3) : (s.setGr r).pins = s.pins := rfl
@[simp] theorem State.setGr_dp (r : BitVec 3) : (s.setGr r).dp = s.dp := rfl
@[simp] theorem State.setGr_gx (r : BitVec 3) : (s.setGr r).gx = { s.gx with gr := r } := rfl
@[simp] theorem State.setGr_ck (r : BitVec 3) : (s.setGr r).ck = s.ck := rfl
@[simp] theorem State.setGr_pc (r : BitVec 3) : (s.setGr r).pc = s.pc := rfl
@[simp] theorem State.setGr_status (r : BitVec 3) : (s.setGr r).status = s.status := rfl
@[simp] theorem State.setGr_statusLog (r : BitVec 3) : (s.setGr r).statusLog = s.statusLog := rfl
@[simp] theorem State.setGr_tr (r : BitVec 3) : (s.setGr r).tr = s.tr := rfl
@[simp] theorem State.setGr_work (r : BitVec 3) : (s.setGr r).work = s.work := rfl
@[simp] theorem State.setGr_stream (r : BitVec 3) : (s.setGr r).stream = s.stream := rfl
@[simp] theorem State.setGr_xferIx (r : BitVec 3) : (s.setGr r).xferIx = s.xferIx := rfl
@[simp] theorem State.setGr_rx (r : BitVec 3) : (s.setGr r).rx = s.rx := rfl

@[simp] theorem State.readRowb_par (g : Nat) : (s.readRowb g).par = s.par := rfl
@[simp] theorem State.readRowb_cmd (g : Nat) : (s.readRowb g).cmd = s.cmd := rfl
@[simp] theorem State.readRowb_progLen (g : Nat) : (s.readRowb g).progLen = s.progLen := rfl
@[simp] theorem State.readRowb_text (g : Nat) : (s.readRowb g).text = s.text := rfl
@[simp] theorem State.readRowb_glyph (g : Nat) : (s.readRowb g).glyph = s.glyph := rfl
@[simp] theorem State.readRowb_env (g : Nat) : (s.readRowb g).env = s.env := rfl
@[simp] theorem State.readRowb_asked (g : Nat) : (s.readRowb g).asked = s.asked := rfl
@[simp] theorem State.readRowb_lc (g : Nat) : (s.readRowb g).lc = s.lc := rfl
@[simp] theorem State.readRowb_claimed (g : Nat) : (s.readRowb g).claimed = s.claimed := rfl
@[simp] theorem State.readRowb_pins (g : Nat) : (s.readRowb g).pins = s.pins := rfl
@[simp] theorem State.readRowb_dp (g : Nat) : (s.readRowb g).dp = s.dp := rfl
@[simp] theorem State.readRowb_gx (g : Nat) : (s.readRowb g).gx = { s.gx with rowb := s.glyphRow g s.gx.gr } := rfl
@[simp] theorem State.readRowb_ck (g : Nat) : (s.readRowb g).ck = s.ck := rfl
@[simp] theorem State.readRowb_pc (g : Nat) : (s.readRowb g).pc = s.pc := rfl
@[simp] theorem State.readRowb_status (g : Nat) : (s.readRowb g).status = s.status := rfl
@[simp] theorem State.readRowb_statusLog (g : Nat) : (s.readRowb g).statusLog = s.statusLog := rfl
@[simp] theorem State.readRowb_tr (g : Nat) : (s.readRowb g).tr = s.tr := rfl
@[simp] theorem State.readRowb_work (g : Nat) : (s.readRowb g).work = s.work := rfl
@[simp] theorem State.readRowb_stream (g : Nat) : (s.readRowb g).stream = s.stream := rfl
@[simp] theorem State.readRowb_xferIx (g : Nat) : (s.readRowb g).xferIx = s.xferIx := rfl
@[simp] theorem State.readRowb_rx (g : Nat) : (s.readRowb g).rx = s.rx := rfl

@[simp] theorem State.readChar_par (addr : Half) : (s.readChar addr).par = s.par := rfl
@[simp] theorem State.readChar_cmd (addr : Half) : (s.readChar addr).cmd = s.cmd := rfl
@[simp] theorem State.readChar_progLen (addr : Half) : (s.readChar addr).progLen = s.progLen := rfl
@[simp] theorem State.readChar_text (addr : Half) : (s.readChar addr).text = s.text := rfl
@[simp] theorem State.readChar_glyph (addr : Half) : (s.readChar addr).glyph = s.glyph := rfl
@[simp] theorem State.readChar_env (addr : Half) : (s.readChar addr).env = s.env := rfl
@[simp] theorem State.readChar_asked (addr : Half) : (s.readChar addr).asked = s.asked := rfl
@[simp] theorem State.readChar_lc (addr : Half) : (s.readChar addr).lc = s.lc := rfl
@[simp] theorem State.readChar_claimed (addr : Half) : (s.readChar addr).claimed = s.claimed := rfl
@[simp] theorem State.readChar_pins (addr : Half) : (s.readChar addr).pins = s.pins := rfl
@[simp] theorem State.readChar_dp (addr : Half) : (s.readChar addr).dp = s.dp := rfl
@[simp] theorem State.readChar_gx (addr : Half) : (s.readChar addr).gx = { s.gx with ch := s.textAt (addr + s.gx.ci) } := rfl
@[simp] theorem State.readChar_ck (addr : Half) : (s.readChar addr).ck = s.ck := rfl
@[simp] theorem State.readChar_pc (addr : Half) : (s.readChar addr).pc = s.pc := rfl
@[simp] theorem State.readChar_status (addr : Half) : (s.readChar addr).status = s.status := rfl
@[simp] theorem State.readChar_statusLog (addr : Half) : (s.readChar addr).statusLog = s.statusLog := rfl
@[simp] theorem State.readChar_tr (addr : Half) : (s.readChar addr).tr = s.tr := rfl
@[simp] theorem State.readChar_work (addr : Half) : (s.readChar addr).work = s.work := rfl
@[simp] theorem State.readChar_stream (addr : Half) : (s.readChar addr).stream = s.stream := rfl
@[simp] theorem State.readChar_xferIx (addr : Half) : (s.readChar addr).xferIx = s.xferIx := rfl
@[simp] theorem State.readChar_rx (addr : Half) : (s.readChar addr).rx = s.rx := rfl

@[simp] theorem State.nextChar_par : (s.nextChar).par = s.par := rfl
@[simp] theorem State.nextChar_cmd : (s.nextChar).cmd = s.cmd := rfl
@[simp] theorem State.nextChar_progLen : (s.nextChar).progLen = s.progLen := rfl
@[simp] theorem State.nextChar_text : (s.nextChar).text = s.text := rfl
@[simp] theorem State.nextChar_glyph : (s.nextChar).glyph = s.glyph := rfl
@[simp] theorem State.nextChar_env : (s.nextChar).env = s.env := rfl
@[simp] theorem State.nextChar_asked : (s.nextChar).asked = s.asked := rfl
@[simp] theorem State.nextChar_lc : (s.nextChar).lc = s.lc := rfl
@[simp] theorem State.nextChar_claimed : (s.nextChar).claimed = s.claimed := rfl
@[simp] theorem State.nextChar_pins : (s.nextChar).pins = s.pins := rfl
@[simp] theorem State.nextChar_dp : (s.nextChar).dp = s.dp := rfl
@[simp] theorem State.nextChar_gx : (s.nextChar).gx = { s.gx with ci := s.gx.ci + 1 } := rfl
@[simp] theorem State.nextChar_ck : (s.nextChar).ck = s.ck := rfl
@[simp] theorem State.nextChar_pc : (s.nextChar).pc = s.pc := rfl
@[simp] theorem State.nextChar_status : (s.nextChar).status = s.status := rfl
@[simp] theorem State.nextChar_statusLog : (s.nextChar).statusLog = s.statusLog := rfl
@[simp] theorem State.nextChar_tr : (s.nextChar).tr = s.tr := rfl
@[simp] theorem State.nextChar_work : (s.nextChar).work = s.work := rfl
@[simp] theorem State.nextChar_stream : (s.nextChar).stream = s.stream := rfl
@[simp] theorem State.nextChar_xferIx : (s.nextChar).xferIx = s.xferIx := rfl
@[simp] theorem State.nextChar_rx : (s.nextChar).rx = s.rx := rfl

@[simp] theorem State.pushWork_par (ws : List Work) : (s.pushWork ws).par = s.par := rfl
@[simp] theorem State.pushWork_cmd (ws : List Work) : (s.pushWork ws).cmd = s.cmd := rfl
@[simp] theorem State.pushWork_progLen (ws : List Work) : (s.pushWork ws).progLen = s.progLen := rfl
@[simp] theorem State.pushWork_text (ws : List Work) : (s.pushWork ws).text = s.text := rfl
@[simp] theorem State.pushWork_glyph (ws : List Work) : (s.pushWork ws).glyph = s.glyph := rfl
@[simp] theorem State.pushWork_env (ws : List Work) : (s.pushWork ws).env = s.env := rfl
@[simp] theorem State.pushWork_asked (ws : List Work) : (s.pushWork ws).asked = s.asked := rfl
@[simp] theorem State.pushWork_lc (ws : List Work) : (s.pushWork ws).lc = s.lc := rfl
@[simp] theorem State.pushWork_claimed (ws : List Work) : (s.pushWork ws).claimed = s.claimed := rfl
@[simp] theorem State.pushWork_pins (ws : List Work) : (s.pushWork ws).pins = s.pins := rfl
@[simp] theorem State.pushWork_dp (ws : List Work) : (s.pushWork ws).dp = s.dp := rfl
@[simp] theorem State.pushWork_gx (ws : List Work) : (s.pushWork ws).gx = s.gx := rfl
@[simp] theorem State.pushWork_ck (ws : List Work) : (s.pushWork ws).ck = s.ck := rfl
@[simp] theorem State.pushWork_pc (ws : List Work) : (s.pushWork ws).pc = s.pc := rfl
@[simp] theorem State.pushWork_status (ws : List Work) : (s.pushWork ws).status = s.status := rfl
@[simp] theorem State.pushWork_statusLog (ws : List Work) : (s.pushWork ws).statusLog = s.statusLog := rfl
@[simp] theorem State.pushWork_tr (ws : List Work) : (s.pushWork ws).tr = s.tr := rfl
@[simp] theorem State.pushWork_work (ws : List Work) : (s.pushWork ws).work = ws ++ s.work := rfl
@[simp] theorem State.pushWork_stream (ws : List Work) : (s.pushWork ws).stream = s.stream := rfl
@[simp] theorem State.pushWork_xferIx (ws : List Work) : (s.pushWork ws).xferIx = s.xferIx := rfl
@[simp] theorem State.pushWork_rx (ws : List Work) : (s.pushWork ws).rx = s.rx := rfl

@[simp] theorem State.endOp_par (r : Report) : (s.endOp r).par = s.par := rfl
@[simp] theorem State.endOp_cmd (r : Report) : (s.endOp r).cmd = s.cmd := rfl
@[simp] theorem State.endOp_progLen (r : Report) : (s.endOp r).progLen = s.progLen := rfl
@[simp] theorem State.endOp_text (r : Report) : (s.endOp r).text = s.text := rfl
@[simp] theorem State.endOp_glyph (r : Report) : (s.endOp r).glyph = s.glyph := rfl
@[simp] theorem State.endOp_env (r : Report) : (s.endOp r).env = s.env := rfl
@[simp] theorem State.endOp_asked (r : Report) : (s.endOp r).asked = s.asked := rfl
@[simp] theorem State.endOp_lc (r : Report) : (s.endOp r).lc = s.lc := rfl
@[simp] theorem State.endOp_claimed (r : Report) : (s.endOp r).claimed = s.claimed := rfl
@[simp] theorem State.endOp_pins (r : Report) : (s.endOp r).pins = s.pins := rfl
@[simp] theorem State.endOp_dp (r : Report) : (s.endOp r).dp = s.dp := rfl
@[simp] theorem State.endOp_gx (r : Report) : (s.endOp r).gx = s.gx := rfl
@[simp] theorem State.endOp_ck (r : Report) : (s.endOp r).ck = s.ck := rfl
@[simp] theorem State.endOp_pc (r : Report) : (s.endOp r).pc = s.pc + 12 := rfl
@[simp] theorem State.endOp_status (r : Report) : (s.endOp r).status = r := rfl
@[simp] theorem State.endOp_statusLog (r : Report) : (s.endOp r).statusLog = s.statusLog ++ [r] := rfl
@[simp] theorem State.endOp_tr (r : Report) : (s.endOp r).tr = s.tr := rfl
@[simp] theorem State.endOp_work (r : Report) : (s.endOp r).work = [] := rfl
@[simp] theorem State.endOp_stream (r : Report) : (s.endOp r).stream = [] := rfl
@[simp] theorem State.endOp_xferIx (r : Report) : (s.endOp r).xferIx = 0 := rfl
@[simp] theorem State.endOp_rx (r : Report) : (s.endOp r).rx = s.rx := rfl

@[simp] theorem State.raise_par (st : Status) (info : Nat) : (s.raise st info).par = s.par := by cases st <;> rfl
@[simp] theorem State.raise_cmd (st : Status) (info : Nat) : (s.raise st info).cmd = s.cmd := by cases st <;> rfl
@[simp] theorem State.raise_progLen (st : Status) (info : Nat) : (s.raise st info).progLen = s.progLen := by cases st <;> rfl
@[simp] theorem State.raise_text (st : Status) (info : Nat) : (s.raise st info).text = s.text := by cases st <;> rfl
@[simp] theorem State.raise_glyph (st : Status) (info : Nat) : (s.raise st info).glyph = s.glyph := by cases st <;> rfl
@[simp] theorem State.raise_env (st : Status) (info : Nat) : (s.raise st info).env = s.env := by cases st <;> rfl
@[simp] theorem State.raise_asked (st : Status) (info : Nat) : (s.raise st info).asked = s.asked := by cases st <;> rfl
@[simp] theorem State.raise_lc (st : Status) (info : Nat) : (s.raise st info).lc = if st.fatal then .failed else s.lc := by cases st <;> rfl
@[simp] theorem State.raise_claimed (st : Status) (info : Nat) : (s.raise st info).claimed = s.claimed := by cases st <;> rfl
@[simp] theorem State.raise_pins (st : Status) (info : Nat) : (s.raise st info).pins = s.pins := by cases st <;> rfl
@[simp] theorem State.raise_dp (st : Status) (info : Nat) : (s.raise st info).dp = s.dp := by cases st <;> rfl
@[simp] theorem State.raise_gx (st : Status) (info : Nat) : (s.raise st info).gx = s.gx := by cases st <;> rfl
@[simp] theorem State.raise_ck (st : Status) (info : Nat) : (s.raise st info).ck = s.ck := by cases st <;> rfl
@[simp] theorem State.raise_pc (st : Status) (info : Nat) : (s.raise st info).pc = s.pc + 12 := by cases st <;> rfl
@[simp] theorem State.raise_status (st : Status) (info : Nat) : (s.raise st info).status = ⟨st, info⟩ := by cases st <;> rfl
@[simp] theorem State.raise_statusLog (st : Status) (info : Nat) : (s.raise st info).statusLog = s.statusLog ++ [⟨st, info⟩] := by cases st <;> rfl
@[simp] theorem State.raise_tr (st : Status) (info : Nat) : (s.raise st info).tr = s.tr := by cases st <;> rfl
@[simp] theorem State.raise_work (st : Status) (info : Nat) : (s.raise st info).work = [] := by cases st <;> rfl
@[simp] theorem State.raise_stream (st : Status) (info : Nat) : (s.raise st info).stream = [] := by cases st <;> rfl
@[simp] theorem State.raise_xferIx (st : Status) (info : Nat) : (s.raise st info).xferIx = 0 := by cases st <;> rfl
@[simp] theorem State.raise_rx (st : Status) (info : Nat) : (s.raise st info).rx = s.rx := by cases st <;> rfl

@[simp] theorem State.setPin_dc (v : Option Level) : (s.setPin .dc v).pins = { s.pins with dc := v } := rfl
@[simp] theorem State.setPin_rst (v : Option Level) : (s.setPin .rst v).pins = { s.pins with rst := v } := rfl
@[simp] theorem State.setPin_bl (v : Option Level) : (s.setPin .bl v).pins = { s.pins with bl := v } := rfl
@[simp] theorem State.drive_dc (v : Level) : (s.drive .dc v).pins = { s.pins with dc := some v } := rfl
@[simp] theorem State.drive_rst (v : Level) : (s.drive .rst v).pins = { s.pins with rst := some v } := rfl
@[simp] theorem State.drive_bl (v : Level) : (s.drive .bl v).pins = { s.pins with bl := some v } := rfl
@[simp] theorem State.setClaimed_dc (v : Bool) : (s.setClaimed .dc v).claimed = { s.claimed with dc := v } := rfl
@[simp] theorem State.setClaimed_rst (v : Bool) : (s.setClaimed .rst v).claimed = { s.claimed with rst := v } := rfl
@[simp] theorem State.setClaimed_bl (v : Bool) : (s.setClaimed .bl v).claimed = { s.claimed with bl := v } := rfl

end Sys2Proof.Machine
end

