-- ==== Sys2Proof/Laws/Ops.lean ====
section
/-! SUPPORT. What each shared operation of the engine can do, said once: sequencing, the environment's answers, one framed
transfer, and a whole work list (`Performs`: all its transfers are accepted and the operation goes on, or the first
rejected one ends it). -/

namespace Sys2Proof.Machine

@[simp] theorem Flow.bind_go (s : State) (k : State → Flow) : (Flow.go s).bind k = k s := rfl
@[simp] theorem Flow.bind_ended (s : State) (k : State → Flow) : (Flow.ended s).bind k = .ended s := rfl
@[simp] theorem Flow.finish_go (s : State) : (Flow.go s).finish = s.endOp ⟨.ok, 0⟩ := rfl
@[simp] theorem Flow.finish_ended (s : State) : (Flow.ended s).finish = s := rfl
@[simp] theorem Flow.state_go (s : State) : (Flow.go s).state = s := rfl
@[simp] theorem Flow.state_ended (s : State) : (Flow.ended s).state = s := rfl

theorem Flow.bind_assoc (f : Flow) (g h : State → Flow) : (f.bind g).bind h = f.bind fun s => (g s).bind h := by
  cases f <;> rfl

/-- An answer given, the next one is the next answer. -/
@[simp] theorem State.responseAt_answered (s : State) (i : Nat) : s.answered.responseAt i = s.responseAt (i + 1) := by
  simp only [State.responseAt, State.answered, List.getElem?_tail]
  cases s.env[i + 1]? <;> simp [Nat.add_comm, Nat.add_left_comm]

/-- The answers to come depend on the environment's two fields alone. -/
theorem State.responseAt_congr {s t : State} (he : t.env = s.env) (ha : t.asked = s.asked) (i : Nat) :
    t.responseAt i = s.responseAt i := by simp [State.responseAt, he, ha]

theorem AnswersOk.mono {s : State} {m n : Nat} (h : AnswersOk s n) (hm : m ≤ n) : AnswersOk s m :=
  fun i hi => h i (by omega)

/-- The next `n` answers are all `ok`, or one of them is the first to fail. -/
theorem answers_cases (s : State) (n : Nat) : AnswersOk s n ∨ ∃ k, k < n ∧ FailsFirstAt s k := by
  induction n with
  | zero => exact .inl fun i hi => absurd hi (by omega)
  | succ n ih =>
    rcases ih with h | ⟨k, hk, hf⟩
    · cases hr : s.responseAt n with
      | ok =>
        refine .inl fun i hi => ?_
        rcases Nat.lt_succ_iff_lt_or_eq.mp hi with h' | h'
        · exact h i h'
        · exact h' ▸ hr
      | fail => exact .inr ⟨n, by omega, h, hr⟩
    · exact .inr ⟨k, by omega, hf⟩

theorem State.xfer_ok {s : State} (bytes : List Byte) (h : s.responseAt 0 = .ok) :
    s.xfer bytes = .go { (s.emit (.xfer bytes .ok)).answered with xferIx := s.xferIx + 1 } := by
  simp [State.xfer, h]

theorem State.xfer_fail {s : State} (bytes : List Byte) (h : s.responseAt 0 = .fail) :
    s.xfer bytes = .ended (((s.emit (.xfer bytes .fail)).answered).raise .transferFailure s.xferIx) := by
  simp [State.xfer, h]

/-- PIN[DC] after a work list: the level of its last transfer. -/
def pinsAfter (p : Pins) (fts : List FT) : Pins :=
  match fts.getLast? with
  | none => p
  | some f => { p with dc := some f.1 }

/-- The state after a work list whose every transfer was accepted, registers apart. -/
def State.sent (s : State) (fts : List FT) : State :=
  { s with tr := s.tr ++ okEvents fts, rx := (okEvents fts).foldl Receiver.observe s.rx,
           env := s.env.drop fts.length, asked := s.asked + fts.length, xferIx := s.xferIx + fts.length,
           pins := pinsAfter s.pins fts }

/-- The state after a work list whose transfer `f`, after the accepted ones `fts`, was rejected, registers apart. -/
def State.broke (s : State) (fts : List FT) (f : FT) : State :=
  let t := s.sent fts
  State.raise { t with tr := t.tr ++ ftEvents f .fail, rx := (ftEvents f .fail).foldl Receiver.observe t.rx,
                       env := t.env.tail, asked := t.asked + 1, pins := { t.pins with dc := some f.1 } }
    .transferFailure t.xferIx

/-- The registers take these values. -/
def State.withRegs (s : State) (dp : Datapath) (gx : GlyphRegs) (ck : ChunkRegs) : State :=
  { s with dp := dp, gx := gx, ck := ck }

@[simp] theorem okEvents_nil : okEvents [] = [] := rfl
theorem okEvents_append (a b : List FT) : okEvents (a ++ b) = okEvents a ++ okEvents b := by simp [okEvents]
theorem okEvents_single (f : FT) : okEvents [f] = ftEvents f .ok := by simp [okEvents]

@[simp] theorem State.sent_nil (s : State) : s.sent [] = s := by simp [State.sent, pinsAfter]

theorem pinsAfter_append (p : Pins) (a b : List FT) : pinsAfter p (a ++ b) = pinsAfter (pinsAfter p a) b := by
  unfold pinsAfter
  cases hb : b.getLast? with
  | none =>
    have : b = [] := by simpa using hb
    subst this
    simp
  | some f =>
    have : (a ++ b).getLast? = some f := by simp [List.getLast?_append, hb]
    rw [this]
    cases a.getLast? <;> rfl

theorem State.sent_append (s : State) (a b : List FT) : (s.sent a).sent b = s.sent (a ++ b) := by
  simp [State.sent, okEvents_append, pinsAfter_append, List.foldl_append, List.drop_drop, Nat.add_assoc]

theorem State.sent_withRegs (s : State) (dp : Datapath) (gx : GlyphRegs) (ck : ChunkRegs) (fts : List FT) :
    (s.withRegs dp gx ck).sent fts = (s.sent fts).withRegs dp gx ck := rfl

theorem State.broke_withRegs (s : State) (dp : Datapath) (gx : GlyphRegs) (ck : ChunkRegs) (fts : List FT) (f : FT) :
    (s.withRegs dp gx ck).broke fts f = (s.broke fts f).withRegs dp gx ck := rfl

theorem State.sent_broke (s : State) (a b : List FT) (f : FT) : (s.sent a).broke b f = s.broke (a ++ b) f := by
  simp only [State.broke, State.sent_append]

/-- The answers to come after a work list. -/
theorem State.responseAt_sent (s : State) (fts : List FT) (i : Nat) :
    (s.sent fts).responseAt i = s.responseAt (fts.length + i) := by
  simp [State.responseAt, State.sent, List.getElem?_drop, Nat.add_assoc]

theorem State.responseAt_withRegs (s : State) (dp : Datapath) (gx : GlyphRegs) (ck : ChunkRegs) (i : Nat) :
    (s.withRegs dp gx ck).responseAt i = s.responseAt i := rfl

/-- `f` run from `s` does the work `fts` and nothing else but set the registers: if all its transfers are accepted it goes
on, if transfer `k` is the first rejected one it ends there, with the datapath at `dp` and the glyph registers at `gx` in
both cases: they are set before the first transfer. -/
def Performs (f : State → Flow) (s : State) (fts : List FT) (dp : Datapath) (gx : GlyphRegs) : Prop :=
  (AnswersOk s fts.length → ∃ ck, f s = .go ((s.sent fts).withRegs dp gx ck)) ∧
  (∀ (k : Nat) (h : k < fts.length), FailsFirstAt s k →
    ∃ ck, f s = .ended ((s.broke (fts.take k) fts[k]).withRegs dp gx ck))

theorem performs_go (s : State) : Performs Flow.go s [] s.dp s.gx := by
  refine ⟨fun _ => ⟨s.ck, by simp [State.withRegs]⟩, fun k h => absurd h (by simp)⟩

/-- One framed transfer that is accepted (R111). -/
theorem State.framed_ok {s : State} (v : Level) (bytes : List Byte) (h : s.responseAt 0 = .ok) :
    s.framed v bytes = .go (s.sent [(v, bytes)]) := by
  have h0 : (s.drive .dc v).responseAt 0 = .ok := (State.responseAt_congr (s := s) rfl rfl 0).trans h
  simp only [State.framed, State.xfer_ok _ h0]
  simp [State.sent, okEvents_single, ftEvents, pinsAfter, State.drive, State.emit, State.setPin, State.answered]

/-- One framed transfer that is rejected (R102, R111). -/
theorem State.framed_fail {s : State} (v : Level) (bytes : List Byte) (h : s.responseAt 0 = .fail) :
    s.framed v bytes = .ended (s.broke [] (v, bytes)) := by
  have h0 : (s.drive .dc v).responseAt 0 = .fail := (State.responseAt_congr (s := s) rfl rfl 0).trans h
  simp only [State.framed, State.xfer_fail _ h0]
  simp [State.broke, ftEvents, State.drive, State.emit, State.setPin, State.answered, State.raise, State.endOp,
    Status.fatal]

theorem performs_framed (s : State) (v : Level) (bytes : List Byte) :
    Performs (fun s => s.framed v bytes) s [(v, bytes)] s.dp s.gx := by
  refine ⟨fun h => ⟨s.ck, State.framed_ok v bytes (h 0 (by simp))⟩, fun k hk hf => ?_⟩
  obtain rfl : k = 0 := by simpa using hk
  exact ⟨s.ck, State.framed_fail v bytes hf.2⟩

/-- Setting registers first. -/
theorem performs_withRegs {f : State → Flow} {s : State} {fts : List FT} {dp dp1 : Datapath} {gx gx1 : GlyphRegs}
    {ck1 : ChunkRegs} (h : Performs f (s.withRegs dp1 gx1 ck1) fts dp gx) :
    Performs (fun s => f (s.withRegs dp1 gx1 ck1)) s fts dp gx := by
  refine ⟨fun ha => ?_, fun k hk hf => ?_⟩
  · obtain ⟨ck, e⟩ := h.1 ha
    exact ⟨ck, e⟩
  · obtain ⟨ck, e⟩ := h.2 k hk hf
    exact ⟨ck, e⟩

/-- Sequencing two pieces of work. -/
theorem performs_bind {f g : State → Flow} {s : State} {a b : List FT} {dp : Datapath} {gx : GlyphRegs}
    (hf : Performs f s a dp gx) (hg : ∀ ck, Performs g ((s.sent a).withRegs dp gx ck) b dp gx) :
    Performs (fun s => (f s).bind g) s (a ++ b) dp gx := by
  refine ⟨fun h => ?_, fun k hk hfail => ?_⟩
  · obtain ⟨ck, e⟩ := hf.1 (h.mono (by simp))
    have hb : AnswersOk ((s.sent a).withRegs dp gx ck) b.length := fun i hi => by
      rw [State.responseAt_withRegs, State.responseAt_sent]
      exact h _ (by simp; omega)
    obtain ⟨ck2, e2⟩ := (hg ck).1 hb
    refine ⟨ck2, ?_⟩
    simp only [e, Flow.bind_go, e2, State.sent_withRegs, State.sent_append]
    rfl
  · by_cases hka : k < a.length
    · obtain ⟨ck', e⟩ := hf.2 k hka hfail
      refine ⟨ck', ?_⟩
      simp only [e, Flow.bind_ended]
      rw [List.take_append_of_le_length (by omega), List.getElem_append_left hka]
    · obtain ⟨ck, e⟩ := hf.1 (hfail.1.mono (by omega))
      have hkb : k - a.length < b.length := by simp at hk; omega
      have hb : FailsFirstAt ((s.sent a).withRegs dp gx ck) (k - a.length) := by
        refine ⟨fun i hi => ?_, ?_⟩
        · rw [State.responseAt_withRegs, State.responseAt_sent]
          exact hfail.1 _ (by omega)
        · rw [State.responseAt_withRegs, State.responseAt_sent, Nat.add_sub_cancel' (by omega)]
          exact hfail.2
      obtain ⟨ck', e2⟩ := (hg ck).2 _ hkb hb
      refine ⟨ck', ?_⟩
      simp only [e, Flow.bind_go, e2, State.broke_withRegs, State.sent_broke]
      rw [List.getElem_append_right (by omega), List.take_append, List.take_of_length_le (l := a) (by omega)]
      rfl

theorem performs_congr {f g : State → Flow} {s : State} {a b : List FT} {dp dp' : Datapath} {gx gx' : GlyphRegs}
    (h : Performs f s a dp gx) (hfg : f s = g s) (hab : a = b) (hd : dp = dp') (hx : gx = gx') :
    Performs g s b dp' gx' := by
  subst hab hd hx
  exact ⟨fun ha => hfg ▸ h.1 ha, fun k hk hf => hfg ▸ h.2 k hk hf⟩

theorem performs_command (c : WireCmd) (s : State) : Performs (State.command c) s (cmdWork c) s.dp s.gx :=
  performs_framed s false [c.code]

/-- One round of DATA is one framed transfer (R94). -/
theorem performs_sendChunk (ch : List Byte) (s : State) : Performs (State.sendChunk ch) s [(true, ch)] s.dp s.gx := by
  have h1 : Performs (fun s => (s.loadChunk ch.length).framed true ch) s [(true, ch)] s.dp s.gx :=
    performs_withRegs (s := s) (dp1 := s.dp) (gx1 := s.gx) (ck1 := { s.ck with clen := ch.length })
      (performs_framed _ true ch)
  have h2 (u : State) : Performs (fun t => .go (t.countChunk ch.length)) u [] u.dp u.gx :=
    performs_withRegs (s := u) (dp1 := u.dp) (gx1 := u.gx) (ck1 := { u.ck with spos := u.ck.spos + ch.length })
      (performs_go _)
  exact performs_bind h1 fun ck => h2 _

theorem performs_sendChunks (chs : List (List Byte)) (s : State) :
    Performs (sendChunks chs) s (chs.map fun ch => (true, ch)) s.dp s.gx := by
  induction chs generalizing s with
  | nil => exact performs_go s
  | cons ch rest ih => exact performs_bind (performs_sendChunk ch s) fun ck => ih _

/-- DATA does the work list of R111, and no more. -/
theorem performs_data (bytes : List Byte) (s : State) :
    Performs (State.data bytes) s (dataWork s.par.chunkMax bytes) s.dp s.gx := by
  refine performs_congr (performs_withRegs (dp1 := s.dp) (gx1 := s.gx)
    (ck1 := { s.ck with slen := bytes.length, spos := 0 })
    (performs_sendChunks (chunks s.par.chunkMax bytes) _)) rfl rfl rfl rfl

theorem performs_sendPayload (c : WireCmd) (payload : List Byte) (s : State) :
    Performs (sendPayload c payload) s (cmdWork c ++ dataWork s.par.chunkMax payload) s.dp s.gx :=
  performs_bind (performs_command c s) fun _ => performs_data payload _

/-- The window program does its work list (R113, R124) and loads the window registers. -/
theorem performs_sendWindow (x0 x1 y0 y1 : Half) (s : State) :
    Performs (sendWindow x0 x1 y0 y1) s (windowWork s.par.chunkMax x0 x1 y0 y1)
      { s.dp with x0 := x0, x1 := x1, y0 := y0, y1 := y1 } s.gx := by
  let d : Datapath := { s.dp with x0 := x0, x1 := x1, y0 := y0, y1 := y1 }
  let m := s.par.chunkMax
  have h1 : Performs (fun s => sendColset x0 x1 (s.loadWindow x0 x1 y0 y1)) s
      (cmdWork .colset ++ dataWork m (rangePayload x0 x1)) d s.gx :=
    performs_withRegs (s := s) (dp1 := d) (gx1 := s.gx) (ck1 := s.ck)
      (performs_sendPayload .colset (rangePayload x0 x1) _)
  have h2 := performs_bind (g := sendRowset y0 y1) (b := cmdWork .rowset ++ dataWork m (rangePayload y0 y1)) h1 fun ck => performs_sendPayload .rowset (rangePayload y0 y1) _
  have h3 := performs_bind (g := sendMemwr) (b := cmdWork .memwr) h2
    fun ck => performs_command .memwr _
  refine performs_congr h3 rfl ?_ rfl rfl
  simp only [windowWork, rangePayload, List.append_assoc]
  rfl

/-- A pixel write does its work list (R117) and loads the window registers and COLOR. -/
theorem performs_sendPixel (x y c : Half) (s : State) :
    Performs (sendPixel x y c) s (pixelWork s.par.chunkMax x y c)
      { s.dp with x0 := x, x1 := x, y0 := y, y1 := y, color := c } s.gx := by
  let d : Datapath := { s.dp with x0 := x, x1 := x, y0 := y, y1 := y, color := c }
  have h1 : Performs (fun s => sendWindow x x y y (s.loadColor c)) s (windowWork s.par.chunkMax x x y y) d s.gx :=
    performs_withRegs (s := s) (dp1 := { s.dp with color := c }) (gx1 := s.gx) (ck1 := s.ck)
      (performs_sendWindow x x y y _)
  exact performs_bind (b := dataWork s.par.chunkMax (bytes16 c)) h1
    fun ck => performs_data (bytes16 c) _

/-- The body of FILLSCREEN does its work list (R119). -/
theorem performs_fillBody (c : Half) (s : State) :
    Performs (fillBody c) s (fillWork s.par.chunkMax c)
      { s.dp with x0 := 0, x1 := 319, y0 := 0, y1 := 239, color := c } s.gx := by
  let d : Datapath := { s.dp with x0 := 0, x1 := 319, y0 := 0, y1 := 239, color := c }
  have h1 : Performs (fun s => sendWindow 0 319 0 239 (s.loadColor c)) s
      (windowWork s.par.chunkMax 0 319 0 239) d s.gx :=
    performs_withRegs (s := s) (dp1 := { s.dp with color := c }) (gx1 := s.gx) (ck1 := s.ck)
      (performs_sendWindow 0 319 0 239 _)
  exact performs_bind (b := dataWork s.par.chunkMax (repColor 76800 c)) h1
    fun ck => performs_data (repColor 76800 c) _

end Sys2Proof.Machine
end

