-- ==== Sys2Proof/Laws/Framing.lean ====
section
/-! SUPPORT. The laws of the chunking function (R97, R98) and what the receiver makes of a work list. -/

namespace Sys2Proof.Machine

theorem chunksFuel_flatten {n m : Nat} {bytes : List Byte} (hm : 1 ≤ m) (hn : bytes.length ≤ n) :
    (chunksFuel n m bytes).flatten = bytes := by
  induction n generalizing bytes with
  | zero =>
    have : bytes = [] := List.eq_nil_of_length_eq_zero (by omega)
    simp [chunksFuel, this]
  | succ n ih =>
    simp only [chunksFuel]
    split
    · simp [*]
    · rename_i h
      have : 0 < bytes.length := List.length_pos_iff.mpr h
      rw [List.flatten_cons, ih (by simp; omega), List.take_append_drop]

/-- The chunks, in order, are the stream (R98). -/
theorem chunks_flatten {m : Nat} (bytes : List Byte) (hm : 1 ≤ m) : (chunks m bytes).flatten = bytes :=
  chunksFuel_flatten hm (Nat.le_refl _)

theorem chunksFuel_bound {n m : Nat} {bytes ch : List Byte} (hm : 1 ≤ m) (h : ch ∈ chunksFuel n m bytes) :
    1 ≤ ch.length ∧ ch.length ≤ m := by
  induction n generalizing bytes with
  | zero => simp [chunksFuel] at h
  | succ n ih =>
    simp only [chunksFuel] at h
    split at h
    · simp at h
    · rename_i hb
      have : 0 < bytes.length := List.length_pos_iff.mpr hb
      rcases List.mem_cons.mp h with rfl | h'
      · simp; omega
      · exact ih h'

/-- Every chunk has at least one byte and at most CHUNK_MAX (R98, R101). -/
theorem chunks_bound {m : Nat} {bytes ch : List Byte} (hm : 1 ≤ m) (h : ch ∈ chunks m bytes) :
    1 ≤ ch.length ∧ ch.length ≤ m := chunksFuel_bound hm h

theorem chunksFuel_length {n m : Nat} {bytes : List Byte} (hm : 1 ≤ m) (hn : bytes.length ≤ n) :
    (chunksFuel n m bytes).length = (bytes.length + m - 1) / m := by
  induction n generalizing bytes with
  | zero =>
    have : bytes = [] := List.eq_nil_of_length_eq_zero (by omega)
    subst this
    exact (Nat.div_eq_of_lt (by simp; omega)).symm
  | succ n ih =>
    simp only [chunksFuel]
    split
    · rename_i h
      subst h
      exact (Nat.div_eq_of_lt (by simp; omega)).symm
    · rename_i h
      have hl : 0 < bytes.length := List.length_pos_iff.mpr h
      rw [List.length_cons, ih (by simp; omega), List.length_drop]
      by_cases hle : bytes.length ≤ m
      · have h1 : bytes.length - m = 0 := by omega
        rw [h1, Nat.div_eq_of_lt (by omega), ← Nat.sub_add_cancel (n := bytes.length + m - 1) (m := m) (by omega),
          Nat.add_div_right _ hm, Nat.div_eq_of_lt (by omega)]
      · rw [← Nat.add_div_right _ hm]
        congr 1
        omega

/-- There are `ceil(|s| / M)` chunks (R97). -/
theorem chunks_length {m : Nat} (bytes : List Byte) (hm : 1 ≤ m) :
    (chunks m bytes).length = (bytes.length + m - 1) / m := chunksFuel_length hm (Nat.le_refl _)

@[simp] theorem chunks_nil (m : Nat) : chunks m [] = [] := rfl

theorem chunks_single {m : Nat} (b : Byte) (hm : 1 ≤ m) : chunks m [b] = [[b]] := by
  obtain ⟨m, rfl⟩ : ∃ k, m = k + 1 := ⟨m - 1, by omega⟩
  simp [chunks, chunksFuel]

theorem dataWork_single {m : Nat} (b : Byte) (hm : 1 ≤ m) : dataWork m [b] = [(true, [b])] := by
  simp [dataWork, chunks_single b hm]

/-! ## The receiver and framed transfers -/

/-- The receiver after the events of an accepted work list. -/
def rxAfter (r : Receiver) (fts : List FT) : Receiver := (okEvents fts).foldl Receiver.observe r

@[simp] theorem rxAfter_nil (r : Receiver) : rxAfter r [] = r := rfl

theorem rxAfter_append (r : Receiver) (a b : List FT) : rxAfter r (a ++ b) = rxAfter (rxAfter r a) b := by
  simp [rxAfter, okEvents_append, List.foldl_append]

/-- The items of some bytes, at one DC level, arrive in order. -/
def Receiver.items (r : Receiver) (v : Level) (bytes : List Byte) : Receiver :=
  bytes.foldl (fun r b => r.item v b) r

/-- One framed transfer: the DC level, then the items (R148). -/
theorem rxAfter_single (r : Receiver) (v : Level) (bytes : List Byte) :
    rxAfter r [(v, bytes)] = Receiver.items { r with dc := some v } v bytes := rfl

theorem rxAfter_cmd (r : Receiver) (c : WireCmd) :
    rxAfter r (cmdWork c) = Receiver.item { r with dc := some false } false c.code := rfl

/-- What no item changes: the levels of the lines and the quiet time. -/
theorem Receiver.item_lines (r : Receiver) (v : Level) (b : Byte) :
    (r.item v b).dc = r.dc ∧ (r.item v b).rstn = r.rstn ∧ (r.item v b).bl = r.bl ∧ (r.item v b).quiet = r.quiet := by
  unfold Receiver.item
  split
  · simp
  split
  · simp [Receiver.lose]
  split
  · unfold Receiver.datum
    split
    · unfold Receiver.param
      split <;> simp
    · unfold Receiver.pixelByte Receiver.advance
      split
      · split
        · simp [Receiver.lose]
        · split
          · simp
          · split <;> simp
      · simp [Receiver.lose]
  · unfold Receiver.command
    split
    · simp [Receiver.lose]
    · unfold Receiver.dispatch
      split <;> simp [Receiver.openParam, Receiver.onSlpout, Receiver.onDispon, Receiver.onColset, Receiver.onRowset,
        Receiver.onMemwr, Receiver.lose]
      split <;> simp

/-- No item clears visual_undefined (R155). -/
theorem Receiver.item_visualUndefined (r : Receiver) (v : Level) (b : Byte) (h : r.visualUndefined = true) :
    (r.item v b).visualUndefined = true := by
  unfold Receiver.item
  split
  · exact h
  split
  · exact h
  split
  · unfold Receiver.datum
    split
    · unfold Receiver.param
      split <;> exact h
    · unfold Receiver.pixelByte Receiver.advance
      split
      · split
        · exact h
        · split
          · exact h
          · split <;> exact h
      · exact h
  · unfold Receiver.command
    split
    · exact h
    · unfold Receiver.dispatch
      split <;> try exact h
      · simp [Receiver.onDispon, h]
      · unfold Receiver.onMemwr
        split <;> exact h

theorem Receiver.items_lines (r : Receiver) (v : Level) (bytes : List Byte) :
    (r.items v bytes).dc = r.dc ∧ (r.items v bytes).rstn = r.rstn ∧ (r.items v bytes).bl = r.bl ∧
    (r.items v bytes).quiet = r.quiet := by
  induction bytes generalizing r with
  | nil => simp [Receiver.items]
  | cons b bs ih =>
    have h1 := Receiver.item_lines r v b
    have h2 := ih (r.item v b)
    simp only [Receiver.items, List.foldl_cons] at h2 ⊢
    exact ⟨h2.1.trans h1.1, h2.2.1.trans h1.2.1, h2.2.2.1.trans h1.2.2.1, h2.2.2.2.trans h1.2.2.2⟩

theorem Receiver.items_append (r : Receiver) (v : Level) (a b : List Byte) :
    r.items v (a ++ b) = (r.items v a).items v b := by simp [Receiver.items, List.foldl_append]

theorem Receiver.items_cons (r : Receiver) (v : Level) (b : Byte) (bs : List Byte) :
    r.items v (b :: bs) = (r.item v b).items v bs := rfl

@[simp] theorem Receiver.items_nil (r : Receiver) (v : Level) : r.items v [] = r := rfl

/-- Data chunks, the DC line already at 1: their grouping does not matter (R58, R171). -/
theorem rxAfter_chunks (r : Receiver) (chs : List (List Byte)) (h : r.dc = some true) :
    rxAfter r (chs.map fun ch => (true, ch)) = r.items true chs.flatten := by
  induction chs generalizing r with
  | nil => rfl
  | cons ch rest ih =>
    have hr : ({ r with dc := some true } : Receiver) = r := by rw [← h]
    have := ih (r.items true ch) ((Receiver.items_lines r true ch).1.trans h)
    rw [List.map_cons, ← List.singleton_append, rxAfter_append, rxAfter_single, hr, this, List.flatten_cons,
      Receiver.items_append]

/-- What the receiver makes of `DATA(s)`: the bytes as data items, whatever CHUNK_MAX is (R58, R171). -/
theorem rxAfter_data (r : Receiver) {m : Nat} (bytes : List Byte) (hm : 1 ≤ m) (hb : bytes ≠ []) :
    rxAfter r (dataWork m bytes) = Receiver.items { r with dc := some true } true bytes := by
  cases hc : chunks m bytes with
  | nil =>
    have := chunks_flatten bytes hm
    rw [hc] at this
    exact absurd this.symm hb
  | cons ch rest =>
    have hf : ch ++ rest.flatten = bytes := by rw [← List.flatten_cons, ← hc, chunks_flatten bytes hm]
    have h2 := rxAfter_chunks (Receiver.items { r with dc := some true } true ch) rest
      ((Receiver.items_lines _ true ch).1)
    rw [dataWork, hc, List.map_cons, ← List.singleton_append, rxAfter_append, rxAfter_single, h2,
      ← Receiver.items_append, hf]

end Sys2Proof.Machine
end

