-- ==== Sys2Proof/Laws/Text.lean ====
section
/-! SUPPORT. What the text expander does, said once: `Works` is `Performs` with a condition on the state reached, and the body of
DRAWTEXT works off the work list of the reference rendering (R127 to R146). -/

namespace Sys2Proof.Machine

/-- `f` run from `s` does the work `fts` and nothing else but set the registers, and where all its transfers are accepted
the state it goes on in meets `Q`. -/
def Works (f : State → Flow) (s : State) (fts : List FT) (Q : State → Prop) : Prop :=
  (AnswersOk s fts.length → ∃ dp gx ck, f s = .go ((s.sent fts).withRegs dp gx ck) ∧
    Q ((s.sent fts).withRegs dp gx ck)) ∧
  (∀ (k : Nat) (h : k < fts.length), FailsFirstAt s k →
    ∃ dp gx ck, f s = .ended ((s.broke (fts.take k) fts[k]).withRegs dp gx ck))

theorem Performs.works {f : State → Flow} {s : State} {fts : List FT} {dp : Datapath} {gx : GlyphRegs} {Q : State → Prop}
    (h : Performs f s fts dp gx) (hq : ∀ ck, Q ((s.sent fts).withRegs dp gx ck)) : Works f s fts Q := by
  refine ⟨fun ha => ?_, fun k hk hf => ?_⟩
  · obtain ⟨ck, e⟩ := h.1 ha
    exact ⟨dp, gx, ck, e, hq ck⟩
  · obtain ⟨ck, e⟩ := h.2 k hk hf
    exact ⟨dp, gx, ck, e⟩

theorem Works.mono {f : State → Flow} {s : State} {fts : List FT} {Q R : State → Prop} (h : Works f s fts Q)
    (hq : ∀ t, Q t → R t) : Works f s fts R := by
  refine ⟨fun ha => ?_, h.2⟩
  obtain ⟨dp, gx, ck, e, hQ⟩ := h.1 ha
  exact ⟨dp, gx, ck, e, hq _ hQ⟩

/-- The same function at the state in question, and the same work. -/
theorem Works.congr {f g : State → Flow} {s : State} {a b : List FT} {Q : State → Prop} (h : Works f s a Q)
    (hfg : f s = g s) (hab : a = b) : Works g s b Q := by
  subst hab
  exact ⟨fun ha => hfg ▸ h.1 ha, fun k hk hf => hfg ▸ h.2 k hk hf⟩

theorem works_go {s : State} {Q : State → Prop} (h : Q s) : Works Flow.go s [] Q := by
  refine ⟨fun _ => ⟨s.dp, s.gx, s.ck, ?_⟩, fun k hk => absurd hk (by simp)⟩
  have e : (s.sent []).withRegs s.dp s.gx s.ck = s := by simp [State.withRegs]
  exact ⟨by rw [e], by rw [e]; exact h⟩

/-- Setting registers first. -/
theorem works_withRegs {f : State → Flow} {s : State} {fts : List FT} {dp : Datapath} {gx : GlyphRegs} {ck : ChunkRegs}
    {Q : State → Prop} (h : Works f (s.withRegs dp gx ck) fts Q) : Works (fun s => f (s.withRegs dp gx ck)) s fts Q := by
  refine ⟨fun ha => ?_, fun k hk hf => ?_⟩
  · obtain ⟨dp', gx', ck', e, hQ⟩ := h.1 ha
    exact ⟨dp', gx', ck', e, hQ⟩
  · obtain ⟨dp', gx', ck', e⟩ := h.2 k hk hf
    exact ⟨dp', gx', ck', e⟩

/-- Sequencing two pieces of work. -/
theorem works_bind {f g : State → Flow} {s : State} {a b : List FT} {Q R : State → Prop} (hf : Works f s a Q)
    (hg : ∀ dp gx ck, Q ((s.sent a).withRegs dp gx ck) → Works g ((s.sent a).withRegs dp gx ck) b R) :
    Works (fun s => (f s).bind g) s (a ++ b) R := by
  refine ⟨fun h => ?_, fun k hk hfail => ?_⟩
  · obtain ⟨dp, gx, ck, e, hQ⟩ := hf.1 (h.mono (by simp))
    have hb : AnswersOk ((s.sent a).withRegs dp gx ck) b.length := fun i hi => by
      rw [State.responseAt_withRegs, State.responseAt_sent]
      exact h _ (by simp; omega)
    obtain ⟨dp2, gx2, ck2, e2, hR⟩ := (hg dp gx ck hQ).1 hb
    rw [State.sent_withRegs, State.sent_append] at e2 hR
    exact ⟨dp2, gx2, ck2, by simp only [e, Flow.bind_go, e2]; rfl, hR⟩
  · by_cases hka : k < a.length
    · obtain ⟨dp', gx', ck', e⟩ := hf.2 k hka hfail
      refine ⟨dp', gx', ck', ?_⟩
      simp only [e, Flow.bind_ended]
      rw [List.take_append_of_le_length (by omega), List.getElem_append_left hka]
    · obtain ⟨dp, gx, ck, e, hQ⟩ := hf.1 (hfail.1.mono (by omega))
      have hkb : k - a.length < b.length := by simp at hk; omega
      have hb : FailsFirstAt ((s.sent a).withRegs dp gx ck) (k - a.length) := by
        refine ⟨fun i hi => ?_, ?_⟩
        · rw [State.responseAt_withRegs, State.responseAt_sent]
          exact hfail.1 _ (by omega)
        · rw [State.responseAt_withRegs, State.responseAt_sent, Nat.add_sub_cancel' (by omega)]
          exact hfail.2
      obtain ⟨dp', gx', ck', e2⟩ := (hg dp gx ck hQ).2 _ hkb hb
      refine ⟨dp', gx', ck', ?_⟩
      simp only [e, Flow.bind_go, e2, State.broke_withRegs, State.sent_broke]
      rw [List.getElem_append_right (by omega), List.take_append, List.take_of_length_le (l := a) (by omega)]
      rfl

/-- A loop whose body keeps `J` and whose work for an element does not depend on where the loop stands. -/
theorem works_forEach {α : Type} {f : α → State → Flow} {w : α → List FT} {J : State → Prop}
    (h : ∀ a s, J s → Works (f a) s (w a) J) (as : List α) {s : State} (hs : J s) :
    Works (forEach f as) s (as.flatMap w) J := by
  induction as generalizing s with
  | nil => exact works_go hs
  | cons a as ih =>
    exact (works_bind (h a s hs) fun dp gx ck hJ => ih hJ).congr rfl (by simp)

/-- The inputs and the cursor a text works with. -/
structure TextAt (s0 : State) (cx cy lsx : Half) (ci : BitVec 16) (s : State) : Prop where
  par : s.par = s0.par
  text : s.text = s0.text
  glyph : s.glyph = s0.glyph
  cx : s.dp.cx = cx
  cy : s.dp.cy = cy
  lsx : s.dp.lsx = lsx
  ci : s.gx.ci = ci

/-- The work of one bit of a glyph row. -/
def bitWork (m : Nat) (color cx cy : Half) (rowb : Byte) (gr gc : BitVec 3) : List FT :=
  if glyphBit rowb gc then pixelWork m (cx + gc.setWidth 16) (cy + gr.setWidth 16) color else []

theorem works_drawBit {s0 s : State} {color cx cy lsx : Half} {ci : BitVec 16} {rowb : Byte} {gr : BitVec 3} (gc : BitVec 3)
    (h : TextAt s0 cx cy lsx ci s ∧ s.gx.rowb = rowb ∧ s.gx.gr = gr) :
    Works (drawBit color gc) s (bitWork s0.par.chunkMax color cx cy rowb gr gc)
      (fun s => TextAt s0 cx cy lsx ci s ∧ s.gx.rowb = rowb ∧ s.gx.gr = gr) := by
  obtain ⟨h, rfl, rfl⟩ := h
  obtain ⟨hp, ht, hg, rfl, rfl, rfl, rfl⟩ := h
  let t := s.withRegs s.dp { s.gx with gc := gc } s.ck
  by_cases hb : glyphBit s.gx.rowb gc
  · have := (performs_sendPixel (s.dp.cx + gc.setWidth 16) (s.dp.cy + s.gx.gr.setWidth 16) color t).works
      (Q := fun u => TextAt s0 s.dp.cx s.dp.cy s.dp.lsx s.gx.ci u ∧ u.gx.rowb = s.gx.rowb ∧ u.gx.gr = s.gx.gr)
      fun ck => ⟨⟨hp, ht, hg, rfl, rfl, rfl, rfl⟩, rfl, rfl⟩
    refine (works_withRegs this).congr ?_ ?_
    · simp [drawBit, hb]; rfl
    · simp only [bitWork, hb, if_true, ← hp]; rfl
  · have := works_go (s := t)
      (Q := fun u => TextAt s0 s.dp.cx s.dp.cy s.dp.lsx s.gx.ci u ∧ u.gx.rowb = s.gx.rowb ∧ u.gx.gr = s.gx.gr)
      ⟨⟨hp, ht, hg, rfl, rfl, rfl, rfl⟩, rfl, rfl⟩
    refine (works_withRegs this).congr ?_ ?_
    · simp [drawBit, hb]; rfl
    · simp [bitWork, hb]

/-- The work of one row of glyph `g`. -/
def rowWork (s0 : State) (color cx cy : Half) (g : Nat) (gr : BitVec 3) : List FT :=
  idx8.flatMap (bitWork s0.par.chunkMax color cx cy (s0.glyphRow g gr) gr)

theorem works_drawRow {s0 s : State} {color cx cy lsx : Half} {ci : BitVec 16} (g : Nat) (gr : BitVec 3)
    (h : TextAt s0 cx cy lsx ci s) :
    Works (drawRow color g gr) s (rowWork s0 color cx cy g gr) (TextAt s0 cx cy lsx ci) := by
  let t := s.withRegs s.dp { s.gx with gr := gr, rowb := s.glyphRow g gr } s.ck
  have hr : s.glyphRow g gr = s0.glyphRow g gr := by simp [State.glyphRow, h.glyph]
  have hJ : TextAt s0 cx cy lsx ci t ∧ t.gx.rowb = s0.glyphRow g gr ∧ t.gx.gr = gr :=
    ⟨⟨h.par, h.text, h.glyph, h.cx, h.cy, h.lsx, h.ci⟩, hr, rfl⟩
  have := works_forEach (f := drawBit color) (fun gc s h => works_drawBit gc h) idx8 hJ
  exact (works_withRegs (this.mono fun _ h => h.1)).congr rfl rfl

theorem works_drawGlyph {s0 s : State} {color cx cy lsx : Half} {ci : BitVec 16} (g : Nat)
    (h : TextAt s0 cx cy lsx ci s) :
    Works (drawGlyph color g) s (idx8.flatMap (rowWork s0 color cx cy g)) (TextAt s0 cx cy lsx ci) :=
  works_forEach (f := drawRow color g) (fun gr _ h => works_drawRow g gr h) idx8 h

/-- The loops over rows and columns are the glyph's lit pixels, each one pixel write (R131, R132). -/
theorem glyphWork_eq (s0 : State) (color cx cy : Half) (g : Nat) :
    idx8.flatMap (rowWork s0 color cx cy g) =
      (glyphPixels s0 (cx, cy) g).flatMap fun p => pixelWork s0.par.chunkMax p.1 p.2 color := by
  have hi : idx8 = (List.range 8).map (BitVec.ofNat 3) := by decide
  have hw : ∀ n, n ∈ List.range 8 → (BitVec.ofNat 3 n).setWidth 16 = BitVec.ofNat 16 n ∧ (BitVec.ofNat 3 n).toNat = n := by
    decide
  simp only [glyphPixels, hi, List.flatMap_map, List.flatMap_assoc, rowWork]
  refine List.flatMap_congr fun r hr => List.flatMap_congr fun c hc => ?_
  simp only [bitWork, glyphBit, (hw r hr).1, (hw c hc).1, (hw c hc).2]
  split <;> simp_all

/-- The work of one character at `p`. -/
def charWork (s0 : State) (color : Half) (p : Half × Half) (ch : Byte) : List FT :=
  (charPixels s0 p ch).flatMap fun q => pixelWork s0.par.chunkMax q.1 q.2 color

theorem TextAt.advance {s0 s : State} {p : Half × Half} {lsx : Half} {ci : BitVec 16} {ch : Byte}
    (h : TextAt s0 p.1 p.2 lsx ci s) (hn : ch ≠ 0x0A) :
    TextAt s0 (cursorAfter lsx p ch).1 (cursorAfter lsx p ch).2 lsx ci s.advanceCursor := by
  obtain ⟨hp, ht, hg, h1, h2, h3, h4⟩ := h
  have hw : wraps s.dp.cx = true ↔ 312 < p.1.toNat + 8 := by
    simp [wraps, Config.glyphPitch, Config.glyphW, Config.panelW, h1]
    omega
  by_cases hc : 312 < p.1.toNat + 8
  · have hw := hw.mpr hc
    simp only [State.advanceCursor, hw, if_true, cursorAfter, hc, or_true]
    exact ⟨hp, ht, hg, h3, by simp [State.newLine, h2, Config.linePitch], h3, h4⟩
  · have hw : wraps s.dp.cx = false := by rw [Bool.eq_false_iff]; exact fun h => hc (hw.mp h)
    simp only [State.advanceCursor, hw, Bool.false_eq_true, if_false, cursorAfter, hc, hn, or_self]
    exact ⟨hp, ht, hg, by simp [h1, Config.glyphPitch], h2, h3, h4⟩

theorem TextAt.newLine {s0 s : State} {cx cy lsx : Half} {ci : BitVec 16} (h : TextAt s0 cx cy lsx ci s) :
    TextAt s0 lsx (cy + 10) lsx ci s.newLine := by
  obtain ⟨hp, ht, hg, h1, h2, h3, h4⟩ := h
  exact ⟨hp, ht, hg, h3, by simp [State.newLine, h2, Config.linePitch], h3, h4⟩

/-- A newline moves the cursor and draws nothing (R128). -/
theorem drawChar_newline {s : State} {addr : Half} (color : Half) (h : isNewline (s.readChar addr).gx.ch = true) :
    drawChar color addr s = .go (s.readChar addr).newLine := if_pos h

/-- Any other character is drawn and the cursor advances (R129, R134). -/
theorem drawChar_glyph {s : State} {addr : Half} (color : Half) (h : isNewline (s.readChar addr).gx.ch = false) :
    drawChar color addr s = (drawGlyph color (glyphIndex (s.readChar addr).gx.ch) (s.readChar addr)).bind
      fun u => .go u.advanceCursor := if_neg (ne_true_of_eq_false h)

theorem works_drawChar {s0 s : State} {color addr lsx : Half} {p : Half × Half} {ci : BitVec 16}
    (h : TextAt s0 p.1 p.2 lsx ci s) :
    Works (drawChar color addr) s (charWork s0 color p (s0.textAt (addr + ci)))
      (TextAt s0 (cursorAfter lsx p (s0.textAt (addr + ci))).1 (cursorAfter lsx p (s0.textAt (addr + ci))).2 lsx ci) := by
  have hch : s.textAt (addr + s.gx.ci) = s0.textAt (addr + ci) := by simp [State.textAt, h.text, h.ci]
  let t := s.withRegs s.dp { s.gx with ch := s.textAt (addr + s.gx.ci) } s.ck
  have ht : TextAt s0 p.1 p.2 lsx ci t := ⟨h.par, h.text, h.glyph, h.cx, h.cy, h.lsx, h.ci⟩
  generalize s0.textAt (addr + ci) = ch at hch
  have htc : t.gx.ch = ch := hch
  by_cases hn : ch = 0x0A
  · subst hn
    have hs := works_go (s := t.newLine) ht.newLine
    have := works_withRegs (s := s) (f := Flow.go) (dp := t.newLine.dp) (gx := t.newLine.gx) (ck := t.newLine.ck) hs
    refine (this.mono fun u hu => ?_).congr ?_ ?_
    · simpa [cursorAfter] using hu
    · rw [drawChar_newline color (by simp [hch, isNewline, Config.newline])]
      rfl
    · simp [charWork, charPixels]
  · have hg := works_drawGlyph (color := color) (glyphIndex ch) ht
    have hb := works_bind hg (g := fun u => .go u.advanceCursor) (b := [])
      (R := TextAt s0 (cursorAfter lsx p ch).1 (cursorAfter lsx p ch).2 lsx ci) (fun dp gx ck hu => by
        have hs := works_go (hu.advance hn)
        let v := (((t.sent (idx8.flatMap (rowWork s0 color p.1 p.2 (glyphIndex ch)))).withRegs dp gx ck))
        have hv : v.advanceCursor = v.withRegs v.advanceCursor.dp v.advanceCursor.gx v.advanceCursor.ck := by
          simp only [State.advanceCursor, State.newLine]
          split <;> rfl
        exact (works_withRegs (s := v) (f := Flow.go) (hv ▸ hs)).congr (by show Flow.go _ = Flow.go _; rw [← hv]) rfl)
    refine (works_withRegs hb).congr ?_ ?_
    · subst hch
      rw [drawChar_glyph color (by simpa [isNewline, Config.newline] using hn)]
      rfl
    · rw [List.append_nil, glyphWork_eq, charWork, charPixels, if_neg hn]
      rfl

/-- The characters of a text from index `i` (R140, R146). -/
theorem works_drawChars {s0 : State} {color addr lsx : Half} (n i : Nat) {s : State} {p : Half × Half}
    (h : TextAt s0 p.1 p.2 lsx (BitVec.ofNat 16 i) s) :
    Works (drawChars color addr n) s
      ((renderText s0 lsx p ((List.range' i n).map fun j => s0.textAt (addr + BitVec.ofNat 16 j))).1.flatMap
        fun q => pixelWork s0.par.chunkMax q.1 q.2 color)
      (fun t => (t.dp.cx, t.dp.cy) =
          (renderText s0 lsx p ((List.range' i n).map fun j => s0.textAt (addr + BitVec.ofNat 16 j))).2 ∧
        t.dp.lsx = lsx) := by
  induction n generalizing i s p with
  | zero => exact works_go ⟨by simp [renderText, h.cx, h.cy], h.lsx⟩
  | succ n ih =>
    have h1 := works_drawChar (color := color) (addr := addr) h
    have := works_bind h1 (g := fun t => drawChars color addr n t.nextChar)
      (fun dp gx ck hu => works_withRegs (gx := { gx with ci := gx.ci + 1 }) (dp := dp) (ck := ck)
        (ih (i + 1) (p := cursorAfter lsx p (s0.textAt (addr + BitVec.ofNat 16 i)))
          ⟨hu.par, hu.text, hu.glyph, hu.cx, hu.cy, hu.lsx, by
            have : gx.ci = BitVec.ofNat 16 i := hu.ci
            simp [State.withRegs, this, BitVec.ofNat_add]⟩))
    refine (this.mono fun t ht => ?_).congr rfl ?_
    · simpa [List.range'_succ, renderText] using ht
    · simp [List.range'_succ, renderText, charWork]

/-- The body of DRAWTEXT works off the pixels of the reference rendering and leaves its cursor (R127). -/
theorem works_textBody (x y color addr len : Half) (s : State) :
    Works (textBody x y color addr len) s (textWork s x y color addr len)
      (fun t => (t.dp.cx, t.dp.cy) = textCursor s x y addr len ∧ t.dp.lsx = x) := by
  let t := s.loadText x y color
  have ht : TextAt s x y x (BitVec.ofNat 16 0) t := ⟨rfl, rfl, rfl, rfl, rfl, rfl, rfl⟩
  have := works_drawChars (color := color) (addr := addr) len.toNat 0 (p := (x, y)) ht
  refine (works_withRegs (s := s) (dp := t.dp) (gx := t.gx) (ck := t.ck)
    (this.mono fun u hu => ?_)).congr rfl ?_
  · simpa [textCursor, textCodes, List.range_eq_range'] using hu
  · simp [textWork, textPixels, textCodes, List.range_eq_range']

/-- The reference rendering reads TEXT and GLYPH alone. -/
theorem renderText_congr {s t : State} (hg : t.glyph = s.glyph) (lsx : Half) (p : Half × Half) (chs : List Byte) :
    renderText t lsx p chs = renderText s lsx p chs := by
  induction chs generalizing p with
  | nil => rfl
  | cons ch rest ih => simp [renderText, ih, charPixels, glyphPixels, State.glyphRow, hg]

theorem textCodes_congr {s t : State} (ht : t.text = s.text) (addr len : Half) :
    textCodes t addr len = textCodes s addr len := by simp [textCodes, State.textAt, ht]

theorem textWork_congr {s t : State} (hp : t.par = s.par) (ht : t.text = s.text) (hg : t.glyph = s.glyph)
    (x y c addr len : Half) : textWork t x y c addr len = textWork s x y c addr len := by
  simp [textWork, textPixels, textCodes_congr ht, renderText_congr hg, hp]

theorem textCursor_congr {s t : State} (ht : t.text = s.text) (hg : t.glyph = s.glyph) (x y addr len : Half) :
    textCursor t x y addr len = textCursor s x y addr len := by
  simp [textCursor, textCodes_congr ht, renderText_congr hg]

end Sys2Proof.Machine
end

