-- ==== Sys2Proof/Laws/Exec.lean ====
section
/-! SUPPORT. What exec can answer, said once per shape: a drawing operation (its work list sent, or broken off at the first
rejected transfer), a wire instruction, INIT, TEARDOWN, and the refusals. Later proofs cite these and unfold no meaning. -/

namespace Sys2Proof.Machine

/-! ## Host operations whose body works off a list of transfers -/

/-- The state after a host operation whose every transfer was accepted. -/
def State.finished (s : State) (fts : List FT) (dp : Datapath) (gx : GlyphRegs) (ck : ChunkRegs) : State :=
  (((State.sent { s with xferIx := 0 } fts).withRegs dp gx ck)).endOp ⟨.ok, 0⟩

/-- The state after a host operation whose transfer `f` was rejected, the transfers `fts` before it accepted. -/
def State.stopped (s : State) (fts : List FT) (f : FT) (dp : Datapath) (gx : GlyphRegs) (ck : ChunkRegs) : State :=
  (State.broke { s with xferIx := 0 } fts f).withRegs dp gx ck

@[simp] theorem State.finished_tr (s : State) (fts : List FT) (dp : Datapath) (gx : GlyphRegs) (ck : ChunkRegs) :
    (s.finished fts dp gx ck).tr = s.tr ++ okEvents fts := rfl
@[simp] theorem State.finished_rx (s : State) (fts : List FT) (dp : Datapath) (gx : GlyphRegs) (ck : ChunkRegs) :
    (s.finished fts dp gx ck).rx = rxAfter s.rx fts := rfl
@[simp] theorem State.finished_lc (s : State) (fts : List FT) (dp : Datapath) (gx : GlyphRegs) (ck : ChunkRegs) :
    (s.finished fts dp gx ck).lc = s.lc := rfl
@[simp] theorem State.finished_claimed (s : State) (fts : List FT) (dp : Datapath) (gx : GlyphRegs) (ck : ChunkRegs) :
    (s.finished fts dp gx ck).claimed = s.claimed := rfl
@[simp] theorem State.finished_par (s : State) (fts : List FT) (dp : Datapath) (gx : GlyphRegs) (ck : ChunkRegs) :
    (s.finished fts dp gx ck).par = s.par := rfl
@[simp] theorem State.finished_status (s : State) (fts : List FT) (dp : Datapath) (gx : GlyphRegs) (ck : ChunkRegs) :
    (s.finished fts dp gx ck).status = ⟨.ok, 0⟩ := rfl
@[simp] theorem State.finished_statusLog (s : State) (fts : List FT) (dp : Datapath) (gx : GlyphRegs) (ck : ChunkRegs) :
    (s.finished fts dp gx ck).statusLog = s.statusLog ++ [⟨.ok, 0⟩] := rfl
@[simp] theorem State.finished_pc (s : State) (fts : List FT) (dp : Datapath) (gx : GlyphRegs) (ck : ChunkRegs) :
    (s.finished fts dp gx ck).pc = s.pc + 12 := rfl
@[simp] theorem State.finished_dp (s : State) (fts : List FT) (dp : Datapath) (gx : GlyphRegs) (ck : ChunkRegs) :
    (s.finished fts dp gx ck).dp = dp := rfl
@[simp] theorem State.finished_work (s : State) (fts : List FT) (dp : Datapath) (gx : GlyphRegs) (ck : ChunkRegs) :
    (s.finished fts dp gx ck).work = [] := rfl
@[simp] theorem State.finished_stream (s : State) (fts : List FT) (dp : Datapath) (gx : GlyphRegs) (ck : ChunkRegs) :
    (s.finished fts dp gx ck).stream = [] := rfl
theorem State.finished_responseAt (s : State) (fts : List FT) (dp : Datapath) (gx : GlyphRegs) (ck : ChunkRegs) (i : Nat) :
    (s.finished fts dp gx ck).responseAt i = s.responseAt (fts.length + i) := State.responseAt_sent s fts i

theorem hostOp_refused {admits : Lifecycle → Bool} (body : State → Flow) {s : State} (hok : s.par.ok = true)
    (ha : admits s.lc = false) : hostOp admits body s = .next (RefusedWith s ⟨.badState, s.lc.code⟩) := by
  simp [hostOp, configured, hok, ha, State.raise, Status.fatal, State.endOp, RefusedWith, Config.descLen]

theorem hostOp_illFormed (admits : Lifecycle → Bool) (body : State → Flow) {s : State} (hok : s.par.ok = false) :
    hostOp admits body s = .refused .illFormedConfig := by simp [hostOp, configured, hok]

theorem hostOp_works {admits : Lifecycle → Bool} {body : State → Flow} {s : State} {fts : List FT} {Q : State → Prop}
    (hok : s.par.ok = true) (ha : admits s.lc = true) (hw : Works body { s with xferIx := 0 } fts Q) :
    (AnswersOk s fts.length → ∃ dp gx ck, hostOp admits body s = .next (s.finished fts dp gx ck) ∧
      Q ((State.sent { s with xferIx := 0 } fts).withRegs dp gx ck)) ∧
    (∀ (k : Nat) (h : k < fts.length), FailsFirstAt s k →
      ∃ dp gx ck, hostOp admits body s = .next (s.stopped (fts.take k) fts[k] dp gx ck)) := by
  refine ⟨fun h => ?_, fun k hk hf => ?_⟩
  · obtain ⟨dp, gx, ck, e, hQ⟩ := hw.1 h
    exact ⟨dp, gx, ck, by simp [hostOp, configured, hok, ha, e]; rfl, hQ⟩
  · obtain ⟨dp, gx, ck, e⟩ := hw.2 k hk hf
    exact ⟨dp, gx, ck, by simp [hostOp, configured, hok, ha, e]; rfl⟩

theorem hostOp_performs {admits : Lifecycle → Bool} {body : State → Flow} {s : State} {fts : List FT} {dp : Datapath}
    {gx : GlyphRegs} (hok : s.par.ok = true) (ha : admits s.lc = true)
    (hw : Performs body { s with xferIx := 0 } fts dp gx) :
    (AnswersOk s fts.length → ∃ ck, hostOp admits body s = .next (s.finished fts dp gx ck)) ∧
    (∀ (k : Nat) (h : k < fts.length), FailsFirstAt s k →
      ∃ ck, hostOp admits body s = .next (s.stopped (fts.take k) fts[k] dp gx ck)) := by
  refine ⟨fun h => ?_, fun k hk hf => ?_⟩
  · obtain ⟨ck, e⟩ := hw.1 h
    exact ⟨ck, by simp [hostOp, configured, hok, ha, e]; rfl⟩
  · obtain ⟨ck, e⟩ := hw.2 k hk hf
    exact ⟨ck, by simp [hostOp, configured, hok, ha, e]; rfl⟩

/-- What a drawing operation that runs to its end leaves in the datapath. -/
def DrawRegs (s : State) (i : Instr) (t : State) : Prop :=
  match i with
  | .setwin x0 x1 y0 y1 => t.dp = { s.dp with x0 := x0, x1 := x1, y0 := y0, y1 := y1 } ∧ t.gx = s.gx
  | .drawpixel x y c => t.dp = { s.dp with x0 := x, x1 := x, y0 := y, y1 := y, color := c } ∧ t.gx = s.gx
  | .fillscreen c => t.dp = { s.dp with x0 := 0, x1 := 319, y0 := 0, y1 := 239, color := c } ∧ t.gx = s.gx
  | .drawtext x y _ addr len => (t.dp.cx, t.dp.cy) = textCursor s x y addr len ∧ t.dp.lsx = x
  | .wPixfmt _ => True
  | .wMemctl _ => True
  | .wSlpout => True
  | .wDispon => True
  | .wColset _ _ => True
  | .wRowset _ _ => True
  | .wMemwr _ => True
  | .init => True
  | .teardown => True

/-- What a drawing operation that is broken off leaves in the datapath: a text has loaded its own registers only in part. -/
def StopRegs (s : State) (i : Instr) (t : State) : Prop :=
  (∀ x y c addr len, i ≠ .drawtext x y c addr len) → DrawRegs s i t

/-- A drawing operation in `ready`. -/
theorem exec_drawing {s : State} {i : Instr} (hi : i.isDrawing = true) (hok : s.par.ok = true) (hl : s.lc = .ready) :
    (AnswersOk s (drawWork s i).length → ∃ dp gx ck, exec i s = .next (s.finished (drawWork s i) dp gx ck) ∧
      DrawRegs s i (s.finished (drawWork s i) dp gx ck)) ∧
    (∀ (k : Nat) (h : k < (drawWork s i).length), FailsFirstAt s k →
      ∃ dp gx ck, exec i s = .next (s.stopped ((drawWork s i).take k) (drawWork s i)[k] dp gx ck) ∧
        StopRegs s i (s.stopped ((drawWork s i).take k) (drawWork s i)[k] dp gx ck)) := by
  have ha : admitsDrawing s.lc = true := by simp [admitsDrawing, hl]
  cases i <;> simp only [Instr.isDrawing, Bool.false_eq_true] at hi
  case setwin x0 x1 y0 y1 =>
    obtain ⟨h1, h2⟩ := hostOp_performs hok ha (performs_sendWindow x0 x1 y0 y1 _)
    exact ⟨fun h => (h1 h).elim fun ck e => ⟨_, _, ck, e, rfl, rfl⟩,
      fun k hk hf => (h2 k hk hf).elim fun ck e => ⟨_, _, ck, e, fun _ => ⟨rfl, rfl⟩⟩⟩
  case drawpixel x y c =>
    obtain ⟨h1, h2⟩ := hostOp_performs hok ha (performs_sendPixel x y c _)
    exact ⟨fun h => (h1 h).elim fun ck e => ⟨_, _, ck, e, rfl, rfl⟩,
      fun k hk hf => (h2 k hk hf).elim fun ck e => ⟨_, _, ck, e, fun _ => ⟨rfl, rfl⟩⟩⟩
  case fillscreen c =>
    obtain ⟨h1, h2⟩ := hostOp_performs hok ha (performs_fillBody c _)
    exact ⟨fun h => (h1 h).elim fun ck e => ⟨_, _, ck, e, rfl, rfl⟩,
      fun k hk hf => (h2 k hk hf).elim fun ck e => ⟨_, _, ck, e, fun _ => ⟨rfl, rfl⟩⟩⟩
  case drawtext x y c addr len =>
    have hw := works_textBody x y c addr len { s with xferIx := 0 }
    rw [textWork_congr (s := s) (t := { s with xferIx := 0 }) rfl rfl rfl] at hw
    simp only [textCursor_congr (s := s) (t := { s with xferIx := 0 }) rfl rfl] at hw
    obtain ⟨h1, h2⟩ := hostOp_works hok ha hw
    exact ⟨h1, fun k hk hf => by
      obtain ⟨dp, gx, ck, e⟩ := h2 k hk hf
      exact ⟨dp, gx, ck, e, fun hn => absurd rfl (hn x y c addr len)⟩⟩

theorem exec_drawing_refused {s : State} {i : Instr} (hi : i.isDrawing = true) (hok : s.par.ok = true)
    (hl : s.lc ≠ .ready) : exec i s = .next (RefusedWith s ⟨.badState, s.lc.code⟩) := by
  have ha : admitsDrawing s.lc = false := by simpa [admitsDrawing] using hl
  cases i <;> simp only [Instr.isDrawing, Bool.false_eq_true] at hi <;> exact hostOp_refused _ hok ha

/-- Whatever the instruction, a next state means a configuration that keeps rule R7. -/
theorem exec_ok {s t : State} {i : Instr} (h : exec i s = .next t) : s.par.ok = true := by
  cases hok : s.par.ok with
  | true => rfl
  | false =>
    cases i <;> simp [exec, execWPixfmt, execWMemctl, execWSlpout, execWDispon, execWColset, execWRowset, execWMemwr,
      execInit, execTeardown, execSetwin, execDrawpixel, execFillscreen, execDrawtext, hostOp, wireOp, configured,
      hok] at h

/-- Everything a drawing operation can answer. -/
theorem exec_drawing_cases {s t : State} {i : Instr} (hi : i.isDrawing = true) (h : exec i s = .next t) :
    s.par.ok = true ∧
    ((s.lc ≠ .ready ∧ t = RefusedWith s ⟨.badState, s.lc.code⟩) ∨
     (s.lc = .ready ∧ AnswersOk s (drawWork s i).length ∧
        ∃ dp gx ck, t = s.finished (drawWork s i) dp gx ck ∧ DrawRegs s i t) ∨
     (s.lc = .ready ∧ ∃ (k : Nat) (_ : k < (drawWork s i).length), FailsFirstAt s k ∧
        ∃ dp gx ck, t = s.stopped ((drawWork s i).take k) (drawWork s i)[k] dp gx ck ∧ StopRegs s i t)) := by
  have hok := exec_ok h
  refine ⟨hok, ?_⟩
  by_cases hl : s.lc = .ready
  · obtain ⟨h1, h2⟩ := exec_drawing hi hok hl
    rcases answers_cases s (drawWork s i).length with ha | ⟨k, hk, hf⟩
    · obtain ⟨dp, gx, ck, e, hd⟩ := h1 ha
      obtain rfl := Host.Outcome.next.inj (e.symm.trans h)
      exact .inr (.inl ⟨hl, ha, dp, gx, ck, rfl, hd⟩)
    · obtain ⟨dp, gx, ck, e, hd⟩ := h2 k hk hf
      obtain rfl := Host.Outcome.next.inj (e.symm.trans h)
      exact .inr (.inr ⟨hl, k, hk, hf, dp, gx, ck, rfl, hd⟩)
  · obtain rfl := Host.Outcome.next.inj ((exec_drawing_refused hi hok hl).symm.trans h)
    exact .inl ⟨hl, rfl⟩

/-! ## Wire instructions -/

/-- The state after a wire instruction whose every transfer was accepted: the operation goes on, or it is done. -/
def State.wired (s : State) (fts : List FT) (ck : ChunkRegs) : State :=
  let t := (s.sent fts).withRegs s.dp s.gx ck
  if s.Between then t.endOp ⟨.ok, 0⟩ else t

theorem wireOp_performs {body : State → Flow} {s : State} {fts : List FT} (hok : s.par.ok = true)
    (hw : Performs body s fts s.dp s.gx) :
    (AnswersOk s fts.length → ∃ ck, wireOp body s = .next (s.wired fts ck)) ∧
    (∀ (k : Nat) (h : k < fts.length), FailsFirstAt s k →
      ∃ ck, wireOp body s = .next ((s.broke (fts.take k) fts[k]).withRegs s.dp s.gx ck)) := by
  refine ⟨fun h => ?_, fun k hk hf => ?_⟩
  · obtain ⟨ck, e⟩ := hw.1 h
    refine ⟨ck, ?_⟩
    simp only [wireOp, configured, hok, e, if_true, State.wired]
    rfl
  · obtain ⟨ck, e⟩ := hw.2 k hk hf
    exact ⟨ck, by simp [wireOp, configured, hok, e]⟩

/-- What the body of a wire instruction does. -/
theorem exec_wire {s : State} {i : Instr} (hi : i.isWire = true) (hok : s.par.ok = true) :
    (AnswersOk s (wireWork s.par.chunkMax i).length → ∃ ck, exec i s = .next (s.wired (wireWork s.par.chunkMax i) ck)) ∧
    (∀ (k : Nat) (h : k < (wireWork s.par.chunkMax i).length), FailsFirstAt s k →
      ∃ ck, exec i s = .next ((s.broke ((wireWork s.par.chunkMax i).take k)
        (wireWork s.par.chunkMax i)[k]).withRegs s.dp s.gx ck)) := by
  cases i <;> simp only [Instr.isWire, Bool.false_eq_true] at hi
  case wPixfmt p => exact wireOp_performs hok (performs_sendPayload _ _ s)
  case wMemctl p => exact wireOp_performs hok (performs_sendPayload _ _ s)
  case wSlpout => exact wireOp_performs hok (performs_command _ s)
  case wDispon => exact wireOp_performs hok (performs_command _ s)
  case wColset a b => exact wireOp_performs hok (performs_sendPayload _ _ s)
  case wRowset a b => exact wireOp_performs hok (performs_sendPayload _ _ s)
  case wMemwr cs =>
    exact wireOp_performs hok (performs_bind (performs_command _ s) fun ck => performs_data _ _)

/-- Everything a wire instruction can answer. -/
theorem exec_wire_cases {s t : State} {i : Instr} (hi : i.isWire = true) (h : exec i s = .next t) :
    s.par.ok = true ∧
    ((AnswersOk s (wireWork s.par.chunkMax i).length ∧ ∃ ck, t = s.wired (wireWork s.par.chunkMax i) ck) ∨
     (∃ (k : Nat) (_ : k < (wireWork s.par.chunkMax i).length), FailsFirstAt s k ∧
        ∃ ck, t = (s.broke ((wireWork s.par.chunkMax i).take k)
          (wireWork s.par.chunkMax i)[k]).withRegs s.dp s.gx ck)) := by
  have hok := exec_ok h
  refine ⟨hok, ?_⟩
  obtain ⟨h1, h2⟩ := exec_wire hi hok
  rcases answers_cases s (wireWork s.par.chunkMax i).length with ha | ⟨k, hk, hf⟩
  · obtain ⟨ck, e⟩ := h1 ha
    exact .inl ⟨ha, ck, (Host.Outcome.next.inj (e.symm.trans h)).symm⟩
  · obtain ⟨ck, e⟩ := h2 k hk hf
    exact .inr ⟨k, hk, hf, ck, (Host.Outcome.next.inj (e.symm.trans h)).symm⟩

/-- Everything a stray item can answer. -/
theorem execRaw_cases {s t : State} {it : Item} (h : execRaw it s = .next t) :
    s.par.ok = true ∧
    ((AnswersOk s 1 ∧ ∃ ck, t = s.wired [(it.dc, [it.byte])] ck) ∨
     (FailsFirstAt s 0 ∧ ∃ ck, t = (s.broke [] (it.dc, [it.byte])).withRegs s.dp s.gx ck)) := by
  have hok : s.par.ok = true := by
    cases hok : s.par.ok with
    | true => rfl
    | false => simp [execRaw, wireOp, configured, hok] at h
  refine ⟨hok, ?_⟩
  obtain ⟨h1, h2⟩ := wireOp_performs hok (performs_framed s it.dc [it.byte])
  rcases answers_cases s 1 with ha | ⟨k, hk, hf⟩
  · obtain ⟨ck, e⟩ := h1 ha
    exact .inl ⟨ha, ck, (Host.Outcome.next.inj (e.symm.trans h)).symm⟩
  · obtain rfl : k = 0 := by omega
    obtain ⟨ck, e⟩ := h2 0 (by simp) hf
    exact .inr ⟨hf, ck, (Host.Outcome.next.inj (e.symm.trans h)).symm⟩

/-- The glyph expander sets registers and puts work before what is left; it emits nothing (R146). -/
theorem State.expand_eq (s : State) (q : TextPhase) (addr len : Half) :
    ∃ dp gx ws, s.expand q addr len = (s.withRegs dp gx s.ck).pushWork ws := by
  have hb (u : State) : ∃ gx ws, u.afterBit addr len = (u.withRegs u.dp gx u.ck).pushWork ws := by
    unfold State.afterBit
    split
    · exact ⟨_, _, rfl⟩
    · split
      · exact ⟨_, _, rfl⟩
      · exact ⟨u.gx, _, rfl⟩
  cases q with
  | fetch =>
    simp only [State.expand, State.fetchChar]
    split
    · exact ⟨s.dp, s.gx, [], rfl⟩
    · split
      · exact ⟨_, _, _, rfl⟩
      · exact ⟨s.dp, _, _, rfl⟩
  | row => exact ⟨s.dp, _, _, rfl⟩
  | bit =>
    simp only [State.expand, State.testBit]
    split
    · exact ⟨_, s.gx, _, rfl⟩
    · obtain ⟨gx, ws, e⟩ := hb s
      exact ⟨s.dp, gx, ws, e⟩
  | pixelDone =>
    obtain ⟨gx, ws, e⟩ := hb s
    exact ⟨s.dp, gx, ws, e⟩
  | adv =>
    simp only [State.expand, State.advanceCursor]
    split
    · exact ⟨_, _, _, rfl⟩
    · exact ⟨_, _, _, rfl⟩

/-- What a small step answers, but for a transfer (R111, R124, R146). -/
theorem execWork_eq {s : State} (hok : s.par.ok = true) (w : Work) : execWork w s = .next (s.runWork w).state := by
  simp [execWork, configured, hok]

/-- The framed transfer of one small step does what a framed transfer does. -/
theorem performs_runWork (s : State) (v : Level) (bytes : List Byte) :
    Performs (fun s => s.runWork (.ft v bytes)) s [(v, bytes)] s.dp s.gx := by
  cases v with
  | false => exact performs_framed s false bytes
  | true => exact performs_sendChunk bytes s

/-- What a small step answers, where it is a transfer (R111): CLEN and SPOS of DATA apart. -/
theorem execWork_ft {s : State} (hok : s.par.ok = true) (v : Level) (bytes : List Byte) :
    (s.responseAt 0 = .ok → ∃ ck, execWork (.ft v bytes) s = .next ((s.sent [(v, bytes)]).withRegs s.dp s.gx ck)) ∧
    (s.responseAt 0 = .fail → ∃ ck, execWork (.ft v bytes) s = .next ((s.broke [] (v, bytes)).withRegs s.dp s.gx ck)) := by
  obtain ⟨h1, h2⟩ := performs_runWork s v bytes
  constructor <;> intro h
  · obtain ⟨ck, e⟩ := h1 fun i hi => by
      obtain rfl : i = 0 := by simpa using hi
      exact h
    exact ⟨ck, (execWork_eq hok _).trans (congrArg (fun f => Host.Outcome.next (Flow.state f)) e)⟩
  · obtain ⟨ck, e⟩ := h2 0 (by simp) ⟨fun i hi => absurd hi (by omega), h⟩
    exact ⟨ck, (execWork_eq hok _).trans (congrArg (fun f => Host.Outcome.next (Flow.state f)) e)⟩

/-- Everything a small step can answer. -/
theorem execWork_cases {s t : State} {w : Work} (h : execWork w s = .next t) :
    s.par.ok = true ∧
    ((∃ v bytes, w = .ft v bytes ∧
      ((s.responseAt 0 = .ok ∧ ∃ ck, t = (s.sent [(v, bytes)]).withRegs s.dp s.gx ck) ∨
       (s.responseAt 0 = .fail ∧ ∃ ck, t = (s.broke [] (v, bytes)).withRegs s.dp s.gx ck))) ∨
     (∃ l v, w = .pin l v ∧ t = s.drive l v) ∨ (∃ ms, w = .delay ms ∧ t = s.sleep ms) ∨
     (∃ n, w = .load n ∧ t = s.loadStream n) ∨
     (∃ q addr len, w = .text q addr len ∧ t = s.expand q addr len) ∨
     (w = .ready ∧ t = { s with lc := .ready }) ∨ (w = .done ∧ t = s.endOp ⟨.ok, 0⟩)) := by
  have hok : s.par.ok = true := by
    cases hok : s.par.ok with
    | true => rfl
    | false => simp [execWork, configured, hok] at h
  refine ⟨hok, ?_⟩
  cases w with
  | ft v bytes =>
    obtain ⟨h1, h2⟩ := execWork_ft hok v bytes
    refine .inl ⟨v, bytes, rfl, ?_⟩
    cases hr : s.responseAt 0 with
    | ok =>
      obtain ⟨ck, e⟩ := h1 hr
      exact .inl ⟨rfl, ck, (Host.Outcome.next.inj (e.symm.trans h)).symm⟩
    | fail =>
      obtain ⟨ck, e⟩ := h2 hr
      exact .inr ⟨rfl, ck, (Host.Outcome.next.inj (e.symm.trans h)).symm⟩
  | pin l v => exact .inr (.inl ⟨l, v, rfl, (Host.Outcome.next.inj ((execWork_eq hok _).symm.trans h)).symm⟩)
  | delay ms => exact .inr (.inr (.inl ⟨ms, rfl, (Host.Outcome.next.inj ((execWork_eq hok _).symm.trans h)).symm⟩))
  | load n => exact .inr (.inr (.inr (.inl ⟨n, rfl, (Host.Outcome.next.inj ((execWork_eq hok _).symm.trans h)).symm⟩)))
  | text q addr len =>
    exact .inr (.inr (.inr (.inr (.inl ⟨q, addr, len, rfl, (Host.Outcome.next.inj ((execWork_eq hok _).symm.trans h)).symm⟩))))
  | ready => exact .inr (.inr (.inr (.inr (.inr (.inl ⟨rfl, (Host.Outcome.next.inj ((execWork_eq hok _).symm.trans h)).symm⟩)))))
  | done => exact .inr (.inr (.inr (.inr (.inr (.inr ⟨rfl, (Host.Outcome.next.inj ((execWork_eq hok _).symm.trans h)).symm⟩)))))

/-- Everything an illegal descriptor can answer. -/
theorem execIllegal_eq {s : State} (op : Byte) (hok : s.par.ok = true) :
    execIllegal op s = .next (RefusedWith s ⟨.illegalOp, op.toNat⟩) := by
  simp [execIllegal, configured, hok, State.raise, Status.fatal, State.endOp, RefusedWith, Config.descLen]

/-! ## INIT and TEARDOWN -/

/-- The state after events that were answered by `n` answers, with these resources and levels. -/
def State.after (s : State) (evs : List Event) (n : Nat) (c : Claimed) (p : Pins) : State :=
  { s with tr := s.tr ++ evs, rx := evs.foldl Receiver.observe s.rx, env := s.env.drop n, asked := s.asked + n,
           claimed := c, pins := p }

@[simp] theorem State.responseAt_after (s : State) (evs : List Event) (n : Nat) (c : Claimed) (p : Pins) (i : Nat) :
    (s.after evs n c p).responseAt i = s.responseAt (n + i) := by
  simp [State.responseAt, State.after, List.getElem?_drop, Nat.add_assoc]

@[simp] theorem State.after_after (s : State) (a b : List Event) (n m : Nat) (c d : Claimed) (p q : Pins) :
    (s.after a n c p).after b m d q = s.after (a ++ b) (n + m) d q := by
  simp [State.after, List.foldl_append, List.drop_drop, Nat.add_assoc]

theorem acquireBus_ok {s : State} (h : s.responseAt 0 = .ok) :
    acquireBus s = .go (s.after [.openBus s.par.busId s.par.channel s.par.baud .ok] 1
      { s.claimed with bus := true } s.pins) := by
  simp [acquireBus, acquire, h, State.after, State.emit, State.answered]

theorem acquireBus_fail {s : State} (h : s.responseAt 0 = .fail) :
    acquireBus s = .ended (State.raise (s.after [.openBus s.par.busId s.par.channel s.par.baud .fail] 1
      s.claimed s.pins) .resourceUnavailable 0) := by
  simp [acquireBus, acquire, h, State.after, State.emit, State.answered]

/-- CLAIMED with a line held. -/
def Claimed.hold (c : Claimed) : Line → Claimed
  | .dc => { c with dc := true }
  | .rst => { c with rst := true }
  | .bl => { c with bl := true }

/-- PIN with a line at a level. -/
def Pins.set (p : Pins) (v : Level) : Line → Pins
  | .dc => { p with dc := some v }
  | .rst => { p with rst := some v }
  | .bl => { p with bl := some v }

theorem acquireLine_ok {s : State} (k : Nat) (l : Line) (v : Level) (h : s.responseAt 0 = .ok) :
    acquireLine k l v s = .go (s.after [.claim l v .ok] 1 (s.claimed.hold l) (s.pins.set v l)) := by
  cases l <;> simp [acquireLine, acquire, h, State.after, State.emit, State.answered, State.setClaimed, State.setPin,
    Claimed.hold, Pins.set]

theorem acquireLine_fail {s : State} (k : Nat) (l : Line) (v : Level) (h : s.responseAt 0 = .fail) :
    acquireLine k l v s = .ended (State.raise (s.after [.claim l v .fail] 1 s.claimed s.pins) .resourceUnavailable k) := by
  simp [acquireLine, acquire, h, State.after, State.emit, State.answered]

/-- The acquisition phase, every call accepted (R81). -/
theorem initAcquire_ok {s : State} (h : AnswersOk s 4) :
    initAcquire s = .go (s.after (acquireEvents s.par .ok) 4 ⟨true, true, true, true⟩
      ⟨some s.par.dcInit, some s.par.rstInit, some s.par.blInit⟩) := by
  simp only [initAcquire, acquireBus_ok (h 0 (by omega)), Flow.bind_go]
  rw [acquireLine_ok, Flow.bind_go, acquireLine_ok, Flow.bind_go, acquireLine_ok]
  · rw [State.after_after, State.after_after, State.after_after]
    rfl
  · simpa [State.after_after] using h 3 (by omega)
  · simpa [State.after_after] using h 2 (by omega)
  · simpa using h 1 (by omega)

/-- PIN after the first `k` acquisition calls. -/
def claimPins (s : State) (k : Nat) : Pins :=
  ⟨if 1 < k then some s.par.dcInit else s.pins.dc, if 2 < k then some s.par.rstInit else s.pins.rst, s.pins.bl⟩

/-- CLAIMED after the first `k` acquisition calls. -/
def claimedAfter (c : Claimed) (k : Nat) : Claimed :=
  ⟨c.bus || decide (0 < k), c.dc || decide (1 < k), c.rst || decide (2 < k), c.bl || decide (3 < k)⟩

theorem claimedAfter_none (k : Nat) : claimedAfter ⟨false, false, false, false⟩ k = claimedFirst k := by
  simp [claimedAfter, claimedFirst]

/-- The acquisition phase, call `k` the first refused (R86). -/
theorem initAcquire_fail {s : State} {k : Nat} (hk : k < 4) (hf : FailsFirstAt s k) :
    initAcquire s = .ended (State.raise
      (s.after ((acquireEvents s.par .ok).take k ++ ((acquireEvents s.par .fail).drop k).take 1) (k + 1)
        (claimedAfter s.claimed k) (claimPins s k)) .resourceUnavailable k) := by
  obtain ⟨ha, hf⟩ := hf
  rcases hc : s.claimed with ⟨bus, dc, rst, bl⟩
  match k, hk with
  | 0, _ =>
    simp [initAcquire, acquireBus_fail hf, claimedAfter, hc, claimPins, acquireEvents]
  | 1, _ =>
    simp only [initAcquire, acquireBus_ok (ha 0 (by omega)), Flow.bind_go, hc]
    rw [acquireLine_fail]
    · rw [State.after_after]
      simp [claimedAfter, claimPins, acquireEvents, State.after]
    · simpa using hf
  | 2, _ =>
    simp only [initAcquire, acquireBus_ok (ha 0 (by omega)), Flow.bind_go, hc]
    rw [acquireLine_ok, Flow.bind_go, acquireLine_fail]
    · rw [State.after_after, State.after_after]
      simp [claimedAfter, Claimed.hold, Pins.set, claimPins, acquireEvents, State.after]
    · simpa [State.after_after] using hf
    · simpa using ha 1 (by omega)
  | 3, _ =>
    simp only [initAcquire, acquireBus_ok (ha 0 (by omega)), Flow.bind_go, hc]
    rw [acquireLine_ok, Flow.bind_go, acquireLine_ok, Flow.bind_go, acquireLine_fail]
    · rw [State.after_after, State.after_after, State.after_after]
      simp [claimedAfter, Claimed.hold, Pins.set, claimPins, acquireEvents, State.after]
    · simpa [State.after_after] using hf
    · simpa [State.after_after] using ha 2 (by omega)
    · simpa using ha 1 (by omega)

/-- The reset pulse (R82). -/
theorem initReset_eq (s : State) :
    initReset s = s.after (pulseEvents s.par) 0 s.claimed { s.pins with rst := some true } := by
  simp [initReset, State.after, State.drive, State.sleep, State.emit, State.setPin, pulseEvents]

/-- The transfers of phases 3 and 4 up to sleep-out (R83, R84). -/
theorem performs_config {s : State} (hm : 1 ≤ s.par.chunkMax) :
    Performs (fun s => ((sendPixfmt Config.pixfmt16 s).bind fun s => sendMemctl s.par.madctlVal s).bind sendSlpout) s
      (configWork s.par) s.dp s.gx := by
  have h1 := performs_sendPayload .pixfmt [Config.pixfmt16] s
  have h2 := performs_bind h1 (g := fun s => sendMemctl s.par.madctlVal s)
    (b := cmdWork .memctl ++ dataWork s.par.chunkMax [s.par.madctlVal])
    fun ck => performs_congr (performs_sendPayload .memctl [s.par.madctlVal] _) rfl rfl rfl rfl
  have h3 := performs_bind h2 (g := sendSlpout) fun ck => performs_command .slpout _
  refine performs_congr h3 rfl ?_ rfl rfl
  have e : ∀ b, dataWork s.par.chunkMax [b] = [(true, [b])] := fun b => dataWork_single b hm
  show (cmdWork .pixfmt ++ dataWork s.par.chunkMax _ ++ (cmdWork .memctl ++ dataWork s.par.chunkMax _)) ++ _ = _
  rw [e, e]
  rfl

/-- Some transfers done, as `State.after` (the counters and the chunking registers apart). -/
theorem State.sent_eq_after (s : State) (fts : List FT) (dp : Datapath) (gx : GlyphRegs) (ck : ChunkRegs) :
    (s.sent fts).withRegs dp gx ck =
      { s.after (okEvents fts) fts.length s.claimed (pinsAfter s.pins fts) with
        xferIx := s.xferIx + fts.length, dp := dp, gx := gx, ck := ck } := rfl

/-- The events of phases 3 and 4 when every transfer is accepted (R83, R84). -/
def configEvents (p : Params) : List Event :=
  okEvents (configWork p) ++ [.delay p.tSlpout] ++ ftEvents (false, [0x29]) .ok

/-- The events of phases 3 and 4 when transfer `k` is the first to be rejected (R87). -/
def configFailEvents (p : Params) (k : Nat) : List Event :=
  if k < 5 then failEvents (configWork p) k
  else okEvents (configWork p) ++ [.delay p.tSlpout] ++ ftEvents (false, [0x29]) .fail

/-- Phases 3 and 4, every transfer accepted. -/
theorem initConfigure_ok {u : State} (hm : 1 ≤ u.par.chunkMax) (h : AnswersOk u 6) :
    ∃ ck, initConfigure u = .go { u.after (configEvents u.par) 6 u.claimed { u.pins with dc := some false } with
      xferIx := u.xferIx + 6, ck := ck } := by
  obtain ⟨ck, e⟩ := (performs_config hm).1 (h.mono (by simp [configWork]))
  have e : (((sendPixfmt Config.pixfmt16 u).bind fun s => sendMemctl s.par.madctlVal s).bind sendSlpout) = _ := e
  let v := State.sleep ((u.sent (configWork u.par)).withRegs u.dp u.gx ck) u.par.tSlpout
  have hV : AnswersOk v (cmdWork .dispon).length := fun i hi => by
    have : v.responseAt i = (u.sent (configWork u.par)).responseAt i := rfl
    rw [this, State.responseAt_sent]
    exact h _ (by simp [configWork, cmdWork] at hi ⊢; omega)
  obtain ⟨ck', e'⟩ := (performs_command .dispon v).1 hV
  refine ⟨ck', ?_⟩
  simp only [initConfigure, e, Flow.bind_go]
  refine Eq.trans e' ?_
  simp [v, State.sent, State.withRegs, State.sleep, State.emit, State.after, configEvents, pinsAfter, cmdWork, configWork,
    okEvents, ftEvents, WireCmd.code, Nat.add_assoc]

/-- The level of the DC line in transfer `k` of INIT (R88). -/
def initLevel (k : Nat) : Level := k = 1 || k = 3

/-- Phases 3 and 4, transfer `k` the first to be rejected. -/
theorem initConfigure_fail {u : State} {k : Nat} (hm : 1 ≤ u.par.chunkMax) (hk : k < 6) (hf : FailsFirstAt u k) :
    ∃ ck, initConfigure u = .ended (State.raise
      { u.after (configFailEvents u.par k) (k + 1) u.claimed { u.pins with dc := some (initLevel k) } with
        xferIx := u.xferIx + k, ck := ck } .transferFailure (u.xferIx + k)) := by
  by_cases h5 : k < 5
  · obtain ⟨ck, e⟩ := (performs_config hm).2 k (by simpa [configWork] using h5) hf
    have e : (((sendPixfmt Config.pixfmt16 u).bind fun s => sendMemctl s.par.madctlVal s).bind sendSlpout) = _ := e
    refine ⟨ck, ?_⟩
    simp only [initConfigure, e, Flow.bind_ended, configFailEvents, h5, if_true, failEvents]
    match k, h5 with
    | 0, _ =>
      simp [State.broke, State.sent, State.withRegs, State.after, configWork, okEvents, ftEvents, pinsAfter,
        initLevel, State.raise, State.endOp, Status.fatal]
    | 1, _ =>
      simp [-List.drop_one, State.broke, State.sent, State.withRegs, State.after, configWork, okEvents, ftEvents, pinsAfter,
        initLevel, State.raise, State.endOp, Status.fatal]
    | 2, _ =>
      simp [-List.drop_one, State.broke, State.sent, State.withRegs, State.after, configWork, okEvents, ftEvents, pinsAfter,
        initLevel, State.raise, State.endOp, Status.fatal]
    | 3, _ =>
      simp [-List.drop_one, State.broke, State.sent, State.withRegs, State.after, configWork, okEvents, ftEvents, pinsAfter,
        initLevel, State.raise, State.endOp, Status.fatal]
    | 4, _ =>
      simp [-List.drop_one, State.broke, State.sent, State.withRegs, State.after, configWork, okEvents, ftEvents, pinsAfter,
        initLevel, State.raise, State.endOp, Status.fatal]
  · obtain rfl : k = 5 := by omega
    obtain ⟨ck, e⟩ := (performs_config hm).1 (hf.1.mono (by simp [configWork]))
    have e : (((sendPixfmt Config.pixfmt16 u).bind fun s => sendMemctl s.par.madctlVal s).bind sendSlpout) = _ := e
    let v := State.sleep ((u.sent (configWork u.par)).withRegs u.dp u.gx ck) u.par.tSlpout
    have hV : FailsFirstAt v 0 := by
      refine ⟨fun i hi => absurd hi (by omega), ?_⟩
      have : v.responseAt 0 = (u.sent (configWork u.par)).responseAt 0 := rfl
      rw [this, State.responseAt_sent]
      exact hf.2
    obtain ⟨ck', e'⟩ := (performs_command .dispon v).2 0 (by simp [cmdWork]) hV
    refine ⟨ck', ?_⟩
    simp only [initConfigure, e, Flow.bind_go]
    refine Eq.trans e' ?_
    simp [v, State.broke, State.sent, State.withRegs, State.sleep, State.emit, State.after, configFailEvents, pinsAfter,
      cmdWork, configWork, okEvents, ftEvents, WireCmd.code, Nat.add_assoc, initLevel, State.raise, State.endOp,
      Status.fatal]

/-- The state INIT starts its phases in. -/
def State.starting (s : State) : State := { s with xferIx := 0, lc := .initializing }

/-- INIT done (R85). -/
def State.inited (s : State) (ck : ChunkRegs) : State :=
  State.endOp { s.starting.after (initEvents s.par) 10 ⟨true, true, true, true⟩
      ⟨some false, some true, some s.par.blOn⟩ with xferIx := 6, lc := .ready, ck := ck } ⟨.ok, 0⟩

/-- INIT ended by a refused acquisition (R86). -/
def State.initRefused (s : State) (k : Nat) : State :=
  State.raise (s.starting.after ((acquireEvents s.par .ok).take k ++ ((acquireEvents s.par .fail).drop k).take 1) (k + 1)
    (claimedAfter s.claimed k) (claimPins s k)) .resourceUnavailable k

/-- INIT ended by a rejected transfer (R87). -/
def State.initBroke (s : State) (k : Nat) (ck : ChunkRegs) : State :=
  State.raise { s.starting.after (initFailEvents s.par k) (5 + k) ⟨true, true, true, true⟩
      ⟨some (initLevel k), some true, some s.par.blInit⟩ with xferIx := k, ck := ck } .transferFailure k

theorem hostOp_init {s : State} (hok : s.par.ok = true) (hl : s.lc = .uninitialized) :
    exec .init s = .next (Flow.finish ((initAcquire s.starting).bind fun s =>
      (initConfigure (initReset s)).bind fun s => .go (initLight s))) := by
  have ha : admitsInit s.lc = true := by simp [admitsInit, hl]
  simp only [exec, execInit, hostOp, configured, hok, if_true, ha, initBody, Flow.bind_assoc]
  rfl

theorem Params.one_le_chunkMax {p : Params} (h : p.ok = true) : 1 ≤ p.chunkMax := by
  simp only [Params.ok, Bool.and_eq_true, decide_eq_true_eq] at h
  exact h.1.1.1.1.1.1.1.1

/-- The state before phase 3, everything acquired. -/
def State.pulsed (s : State) : State :=
  s.starting.after (acquireEvents s.par .ok ++ pulseEvents s.par) 4 ⟨true, true, true, true⟩
    ⟨some s.par.dcInit, some true, some s.par.blInit⟩

theorem exec_init_acquired {s : State} (hok : s.par.ok = true) (hl : s.lc = .uninitialized) (h : AnswersOk s 4) :
    exec .init s = .next (Flow.finish ((initConfigure s.pulsed).bind fun s => .go (initLight s))) := by
  rw [hostOp_init hok hl, initAcquire_ok (s := s.starting) h, Flow.bind_go, initReset_eq, State.after_after]
  rfl

theorem exec_init_ok {s : State} (hok : s.par.ok = true) (hl : s.lc = .uninitialized) (h : AnswersOk s 10) :
    ∃ ck, exec .init s = .next (s.inited ck) := by
  have h6 : AnswersOk s.pulsed 6 := fun i hi => by
    rw [State.pulsed, State.responseAt_after]
    exact h _ (by omega)
  obtain ⟨ck, e⟩ := initConfigure_ok (Params.one_le_chunkMax (p := s.pulsed.par) hok) h6
  refine ⟨ck, ?_⟩
  rw [exec_init_acquired hok hl (h.mono (by omega)), e]
  simp [State.inited, State.pulsed, State.after, initLight, State.drive, State.emit, State.setPin, State.starting,
    State.endOp, configEvents, acquireEvents, pulseEvents, initEvents, configWork, okEvents, ftEvents]

theorem exec_init_refusedResource {s : State} {k : Nat} (hok : s.par.ok = true) (hl : s.lc = .uninitialized)
    (hk : k < 4) (hf : FailsFirstAt s k) : exec .init s = .next (s.initRefused k) := by
  rw [hostOp_init hok hl, initAcquire_fail (s := s.starting) hk hf]
  rfl

theorem exec_init_broke {s : State} {k : Nat} (hok : s.par.ok = true) (hl : s.lc = .uninitialized) (hk : k < 6)
    (hf : FailsFirstAt s (4 + k)) : ∃ ck, exec .init s = .next (s.initBroke k ck) := by
  have h6 : FailsFirstAt s.pulsed k := by
    refine ⟨fun i hi => ?_, ?_⟩
    · rw [State.pulsed, State.responseAt_after]
      exact hf.1 _ (by omega)
    · rw [State.pulsed, State.responseAt_after]
      exact hf.2
  obtain ⟨ck, e⟩ := initConfigure_fail (Params.one_le_chunkMax (p := s.pulsed.par) hok) hk h6
  refine ⟨ck, ?_⟩
  rw [exec_init_acquired hok hl (hf.1.mono (by omega)), e]
  have hn : 4 + (k + 1) = 5 + k := by omega
  simp only [State.pulsed, State.after_after, State.initBroke, hn]
  simp [State.after, State.starting, State.raise, State.endOp, Status.fatal, initFailEvents, configFailEvents]

theorem exec_init_outside {s : State} (hok : s.par.ok = true) (hl : s.lc ≠ .uninitialized) :
    exec .init s = .next (RefusedWith s ⟨.badState, s.lc.code⟩) :=
  hostOp_refused _ hok (by simpa [admitsInit] using hl)

/-- Everything INIT can answer. -/
theorem exec_init_cases {s t : State} (h : exec .init s = .next t) :
    s.par.ok = true ∧
    ((s.lc ≠ .uninitialized ∧ t = RefusedWith s ⟨.badState, s.lc.code⟩) ∨
     (s.lc = .uninitialized ∧ AnswersOk s 10 ∧ ∃ ck, t = s.inited ck) ∨
     (s.lc = .uninitialized ∧ ∃ k, k < 4 ∧ FailsFirstAt s k ∧ t = s.initRefused k) ∨
     (s.lc = .uninitialized ∧ ∃ k, k < 6 ∧ FailsFirstAt s (4 + k) ∧ ∃ ck, t = s.initBroke k ck)) := by
  have hok := exec_ok h
  refine ⟨hok, ?_⟩
  by_cases hl : s.lc = .uninitialized
  · rcases answers_cases s 10 with ha | ⟨k, hk, hf⟩
    · obtain ⟨ck, e⟩ := exec_init_ok hok hl ha
      exact .inr (.inl ⟨hl, ha, ck, (Host.Outcome.next.inj (e.symm.trans h)).symm⟩)
    · by_cases h4 : k < 4
      · have e := exec_init_refusedResource hok hl h4 hf
        exact .inr (.inr (.inl ⟨hl, k, h4, hf, (Host.Outcome.next.inj (e.symm.trans h)).symm⟩))
      · have hf' : FailsFirstAt s (4 + (k - 4)) := by rwa [Nat.add_sub_cancel' (by omega)]
        obtain ⟨ck, e⟩ := exec_init_broke hok hl (k := k - 4) (by omega) hf'
        exact .inr (.inr (.inr ⟨hl, k - 4, by omega, hf', ck, (Host.Outcome.next.inj (e.symm.trans h)).symm⟩))
  · exact .inl ⟨hl, (Host.Outcome.next.inj ((exec_init_outside hok hl).symm.trans h)).symm⟩

/-- CLAIMED without some resources. -/
def Claimed.without (c : Claimed) (rs : List Resource) : Claimed where
  bus := c.bus && !rs.contains .bus
  dc := c.dc && !rs.contains .dc
  rst := c.rst && !rs.contains .rst
  bl := c.bl && !rs.contains .bl

/-- PIN after the release of some resources that were held. -/
def Pins.without (p : Pins) (c : Claimed) (rs : List Resource) : Pins where
  dc := if c.dc && rs.contains .dc then none else p.dc
  rst := if c.rst && rs.contains .rst then none else p.rst
  bl := if c.bl && rs.contains .bl then none else p.bl

theorem releaseEvents_single (r : Resource) (c : Claimed) :
    releaseEvents [r] c = if c.holds r = true then [releaseEvent r] else [] := by
  by_cases h : c.holds r = true <;> simp [releaseEvents, h]

/-- The releases in the reference order (R89). -/
theorem releaseEvents_reference (c : Claimed) :
    releaseEvents Resource.referenceOrder c =
      (if c.bl then [.release .bl] else []) ++ (if c.rst then [.release .rst] else []) ++
      (if c.dc then [.release .dc] else []) ++ (if c.bus then [.closeBus] else []) := by
  rcases c with ⟨bus, dc, rst, bl⟩
  cases bus <;> cases dc <;> cases rst <;> cases bl <;> rfl

/-- Releasing one resource. -/
theorem State.release_eq (s : State) (r : Resource) :
    s.release r = s.after (releaseEvents [r] s.claimed) 0 (s.claimed.without [r]) (s.pins.without s.claimed [r]) := by
  rcases s with ⟨par, cmd, progLen, text, glyph, env, asked, lc, ⟨bus, dc, rst, bl⟩, pins, dp, gx, ck, pc, st, log, tr,
    work, stream, ix, rx⟩
  cases r
  case bus => cases bus <;> simp [State.release, State.releaseBus, releaseEvents_single, releaseEvent, Claimed.holds,
    State.after, State.emit, Claimed.without, Pins.without]
  case dc => cases dc <;> simp [State.release, State.releaseLine, Claimed.line, releaseEvents_single, releaseEvent,
    Claimed.holds, State.after, State.emit, State.setClaimed, State.setPin, Claimed.without, Pins.without]
  case rst => cases rst <;> simp [State.release, State.releaseLine, Claimed.line, releaseEvents_single, releaseEvent,
    Claimed.holds, State.after, State.emit, State.setClaimed, State.setPin, Claimed.without, Pins.without]
  case bl => cases bl <;> simp [State.release, State.releaseLine, Claimed.line, releaseEvents_single, releaseEvent,
    Claimed.holds, State.after, State.emit, State.setClaimed, State.setPin, Claimed.without, Pins.without]

theorem releaseEvents_cons (r : Resource) (rs : List Resource) (c : Claimed) (hr : r ∉ rs) :
    releaseEvents (r :: rs) c = releaseEvents [r] c ++ releaseEvents rs (c.without [r]) := by
  have : rs.filter (c.without [r]).holds = rs.filter c.holds := by
    refine List.filter_congr fun q hq => ?_
    have hne : q ≠ r := fun h => hr (h ▸ hq)
    cases q <;> cases r <;> simp_all [Claimed.without, Claimed.holds]
  simp only [releaseEvents, this]
  by_cases h : c.holds r <;> simp [h]

theorem Claimed.without_without (c : Claimed) (r : Resource) (rs : List Resource) :
    (c.without [r]).without rs = c.without (r :: rs) := by
  cases r <;> simp [Claimed.without]

theorem Pins.without_without (p : Pins) (c : Claimed) (r : Resource) (rs : List Resource) :
    (p.without c [r]).without (c.without [r]) rs = p.without c (r :: rs) := by
  obtain ⟨bus, dc, rst, bl⟩ := c
  cases r <;> cases dc <;> cases rst <;> cases bl <;> simp [Claimed.without, Pins.without]

/-- Releasing several resources, each named once. -/
theorem State.releases_eq (rs : List Resource) (hn : rs.Nodup) (s : State) :
    rs.foldl State.release s =
      s.after (releaseEvents rs s.claimed) 0 (s.claimed.without rs) (s.pins.without s.claimed rs) := by
  induction rs generalizing s with
  | nil => simp [releaseEvents, State.after, Claimed.without, Pins.without]
  | cons r rs ih =>
    obtain ⟨hr, hn⟩ := List.nodup_cons.mp hn
    rw [List.foldl_cons, ih hn, State.release_eq, State.after_after, releaseEvents_cons r rs _ hr]
    have h1 : (s.after (releaseEvents [r] s.claimed) 0 (s.claimed.without [r]) (s.pins.without s.claimed [r])).claimed =
      s.claimed.without [r] := rfl
    have h2 : (s.after (releaseEvents [r] s.claimed) 0 (s.claimed.without [r]) (s.pins.without s.claimed [r])).pins =
      s.pins.without s.claimed [r] := rfl
    rw [h1, h2, Claimed.without_without, Pins.without_without]

/-- The order of releases names each resource once (R90). -/
theorem Params.releaseOrder_perm {p : Params} (h : p.ok = true) : p.releaseOrder.Perm Resource.referenceOrder := by
  simp only [Params.ok, Bool.and_eq_true] at h
  exact List.isPerm_iff.mp h.2

/-- The state after TEARDOWN. -/
def State.tornDown (s : State) : State :=
  State.endOp { s.after (releaseEvents s.par.releaseOrder s.claimed) 0 ⟨false, false, false, false⟩
    (s.pins.without s.claimed Resource.referenceOrder) with lc := .uninitialized } ⟨.ok, 0⟩

theorem State.tornDown_responseAt (s : State) (i : Nat) : s.tornDown.responseAt i = s.responseAt i := by
  have := State.responseAt_after s [] 0 s.claimed s.pins i
  rwa [Nat.zero_add] at this

/-- TEARDOWN answers that state, in every state of LC (R89). -/
theorem exec_teardown {s : State} (hok : s.par.ok = true) : exec .teardown s = .next s.tornDown := by
  have hp := Params.releaseOrder_perm hok
  have hn : s.par.releaseOrder.Nodup := hp.nodup_iff.mpr (by decide)
  have hm : ∀ r, r ∈ s.par.releaseOrder := fun r => hp.mem_iff.mpr (by cases r <;> decide)
  have hr := State.releases_eq s.par.releaseOrder hn { s with xferIx := 0 }
  simp only [exec, execTeardown, hostOp, configured, hok, if_true, admitsTeardown, teardownBody, Flow.finish_go, hr]
  simp [State.after, State.endOp, State.tornDown, Claimed.without, Pins.without, hm, Resource.referenceOrder]

end Sys2Proof.Machine
end

