-- ==== Sys2Proof/Laws/Memory.lean ====
section
/-! SUPPORT. The laws of the sparse memories: a read after a write, and that a write keeps the canonical form. -/

namespace Sys2Proof.Machine

variable {α : Type}

@[simp] theorem Mem.read_nil (a : Nat) : Mem.read ([] : Mem α) a = none := rfl

theorem Mem.read_write_same (m : Mem α) (a : Nat) (v : α) : Mem.read (Mem.write m a v) a = some v := by
  induction m with
  | nil => simp [Mem.write, Mem.read]
  | cons p m ih =>
    obtain ⟨k, w⟩ := p
    simp only [Mem.write]
    split
    · simp [Mem.read]
    · split
      · simp [Mem.read]
      · rename_i h1 h2
        simp [Mem.read, ih, Ne.symm h2]

theorem Mem.read_write_other (m : Mem α) {a b : Nat} (v : α) (h : a ≠ b) :
    Mem.read (Mem.write m a v) b = Mem.read m b := by
  induction m with
  | nil => simp [Mem.write, Mem.read, h]
  | cons p m ih =>
    obtain ⟨k, w⟩ := p
    simp only [Mem.write]
    split
    · simp [Mem.read, h]
    · split
      · rename_i h1 h2
        subst h2
        simp [Mem.read, h]
      · simp [Mem.read, ih]

theorem Mem.above_write {m : Mem α} {c a : Nat} (v : α) (hm : Mem.above c m = true) (h : c < a) :
    Mem.above c (Mem.write m a v) = true := by
  induction m with
  | nil => simpa [Mem.write, Mem.above] using h
  | cons p m ih =>
    obtain ⟨k, w⟩ := p
    simp only [Mem.above, List.all_cons, Bool.and_eq_true, decide_eq_true_eq] at hm
    simp only [Mem.write]
    split
    · simp [Mem.above, h, hm.1, hm.2]
    · split
      · simp [Mem.above, h, hm.2]
      · have := ih (by simpa [Mem.above] using hm.2)
        simp only [Mem.above] at this ⊢
        simp [hm.1, this]

theorem Mem.above_trans {m : Mem α} {c a : Nat} (hm : Mem.above a m = true) (h : c < a) : Mem.above c m = true := by
  simp only [Mem.above, List.all_eq_true, decide_eq_true_eq] at hm ⊢
  intro p hp
  exact h.trans (hm p hp)

theorem Mem.wf_write {m : Mem α} (a : Nat) (v : α) (hm : Mem.wf m = true) : Mem.wf (Mem.write m a v) = true := by
  induction m with
  | nil => simp [Mem.write, Mem.wf, Mem.above]
  | cons p m ih =>
    obtain ⟨k, w⟩ := p
    simp only [Mem.wf, Bool.and_eq_true] at hm
    simp only [Mem.write]
    split
    · rename_i h
      have hk := Mem.above_trans hm.1 h
      simp only [Mem.above] at hk hm
      simp [Mem.wf, Mem.above, h, hk, hm.1, hm.2]
    · split
      · rename_i h1 h2
        subst h2
        simp [Mem.wf, hm.1, hm.2]
      · rename_i h1 h2
        have : k < a := by omega
        simp [Mem.wf, Mem.above_write v hm.1 this, ih hm.2]

theorem Mem.write_ne_nil (m : Mem α) (a : Nat) (v : α) : (Mem.write m a v).isEmpty = false := by
  cases m with
  | nil => rfl
  | cons p m =>
    obtain ⟨k, w⟩ := p
    simp only [Mem.write]
    split
    · rfl
    · split <;> rfl

theorem Mem.all_write {m : Mem α} {P : Nat × α → Bool} (a : Nat) (v : α) (hm : m.all P = true) (hv : P (a, v) = true) :
    (Mem.write m a v).all P = true := by
  induction m with
  | nil => simpa [Mem.write] using hv
  | cons p m ih =>
    obtain ⟨k, w⟩ := p
    simp only [List.all_cons, Bool.and_eq_true] at hm
    simp only [Mem.write]
    split
    · simp [hv, hm.1, hm.2]
    · split
      · simp [hv, hm.2]
      · simp only [List.all_cons, Bool.and_eq_true]
        exact ⟨hm.1, ih hm.2⟩

theorem Mem.all_read {m : Mem α} {P : Nat × α → Bool} {a : Nat} {v : α} (hm : m.all P = true)
    (h : Mem.read m a = some v) : P (a, v) = true := by
  induction m with
  | nil => simp at h
  | cons p m ih =>
    obtain ⟨k, w⟩ := p
    simp only [List.all_cons, Bool.and_eq_true] at hm
    simp only [Mem.read] at h
    split at h
    · rename_i hk
      cases h
      exact hk ▸ hm.1
    · exact ih hm.2 h

theorem Memory.wf_writeBytes {m : Memory} (addr : Nat → Nat) (bytes : List Byte) (k : Nat) (hm : Memory.wf m = true) :
    Memory.wf (Memory.writeBytes m addr bytes k) = true := by
  induction bytes generalizing m k with
  | nil => exact hm
  | cons b bs ih => exact ih (k + 1) (Mem.wf_write _ _ hm)

theorem FrameMem.read_write_same (fb : FrameMem) (x y : Nat) (v : Half) :
    FrameMem.read (FrameMem.write fb x y v) x y = some v := by
  simp [FrameMem.read, FrameMem.write, Mem.read_write_same]

theorem FrameMem.read_write_other (fb : FrameMem) {x y x' y' : Nat} (v : Half) (h : ¬(x = x' ∧ y = y')) :
    FrameMem.read (FrameMem.write fb x y v) x' y' = FrameMem.read fb x' y' := by
  unfold FrameMem.read FrameMem.write
  by_cases hy : y = y'
  · subst hy
    have hx : x ≠ x' := fun e => h ⟨e, rfl⟩
    rw [Mem.read_write_same]
    simp only [Mem.read_write_other _ v hx]
    cases Mem.read fb y <;> simp
  · rw [Mem.read_write_other _ _ hy]

theorem FrameMem.wf_write {fb : FrameMem} (x y : Nat) (v : Half) (h : FrameMem.wf fb = true) :
    FrameMem.wf (FrameMem.write fb x y v) = true := by
  simp only [FrameMem.wf, Bool.and_eq_true] at h ⊢
  refine ⟨Mem.wf_write _ _ h.1, Mem.all_write _ _ h.2 ?_⟩
  have hrow : Mem.wf ((Mem.read fb y).getD []) = true := by
    cases hr : Mem.read fb y with
    | none => rfl
    | some row =>
      have := Mem.all_read h.2 hr
      simp only [Bool.and_eq_true] at this
      exact this.1
  simp [Mem.wf_write _ _ hrow, Mem.write_ne_nil]

end Sys2Proof.Machine
end

