-- ==== Sys2Proof/Laws/Receiver.lean ====
section
/-! SUPPORT. What the receiver does with each wire instruction when it listens and nothing is in progress (R151 to R162), with a
window program, and with a whole pixel payload. -/

namespace Sys2Proof.Machine

theorem be16_bytes (v : Half) : be16 (hi8 v) (lo8 v) = v := by
  have h := BitVec.extractLsb'_append_extractLsb'_eq_extractLsb' (x := v) (start₁ := 0) (start₂ := 8)
    (len₁ := 8) (len₂ := 8) (by omega)
  simpa [be16, hi8, lo8] using h

theorem Receiver.item_listening {r : Receiver} (h : r.Listening) (v : Level) (b : Byte) :
    r.item v b = if v then r.datum b else r.command b := by
  obtain ⟨hd, hr, hq⟩ := h
  simp [Receiver.item, hd, hr, hq]

theorem Receiver.command_atRest {r : Receiver} (h : r.AtRest) (b : Byte) :
    r.command b = Receiver.dispatch { r with writing := false, pend := none } b := by
  obtain ⟨hp, ho⟩ := h
  simp [Receiver.command, hp, ho]

theorem Receiver.Listening.setDc {r : Receiver} (h : r.Listening) (v : Option Level) :
    Receiver.Listening { r with dc := v } := h

theorem Receiver.AtRest.setDc {r : Receiver} (h : r.AtRest) (v : Option Level) :
    Receiver.AtRest { r with dc := v } := h

/-- A command byte at a receiver that listens and has nothing in progress (R151). -/
theorem rxAfter_command {r : Receiver} (hl : r.Listening) (ha : r.AtRest) (c : WireCmd) :
    rxAfter r (cmdWork c) =
      Receiver.dispatch { r with dc := some false, writing := false, pend := none } c.code := by
  rw [rxAfter_cmd, Receiver.item_listening (hl.setDc _)]
  simp only [Bool.false_eq_true, if_false]
  rw [Receiver.command_atRest (ha.setDc _)]

@[simp] theorem WireCmd.ofCode_code (c : WireCmd) : WireCmd.ofCode c.code = some c := by cases c <;> decide

/-- W_PIXFMT at the receiver (R152). -/
theorem rxAfter_pixfmt {r : Receiver} {m : Nat} (hm : 1 ≤ m) (hl : r.Listening) (ha : r.AtRest) (p : Byte) :
    rxAfter r (cmdWork .pixfmt ++ dataWork m [p]) =
      { r with dc := some true, writing := false, pend := none, winseq := 0, pixfmt := some p } := by
  rw [rxAfter_append, rxAfter_command hl ha, rxAfter_data _ _ hm (by simp)]
  obtain ⟨hd, hr, hq⟩ := hl
  have hq := Nat.not_lt.mpr hq
  simp [Receiver.dispatch, Receiver.openParam, Receiver.items, Receiver.item, hd, hr, hq, Receiver.datum,
    Receiver.param]

/-- W_MEMCTL at the receiver (R153). -/
theorem rxAfter_memctl {r : Receiver} {m : Nat} (hm : 1 ≤ m) (hl : r.Listening) (ha : r.AtRest) (p : Byte) :
    rxAfter r (cmdWork .memctl ++ dataWork m [p]) =
      { r with dc := some true, writing := false, pend := none, winseq := 0, madctl := some p } := by
  rw [rxAfter_append, rxAfter_command hl ha, rxAfter_data _ _ hm (by simp)]
  obtain ⟨hd, hr, hq⟩ := hl
  have hq := Nat.not_lt.mpr hq
  simp [Receiver.dispatch, Receiver.openParam, Receiver.items, Receiver.item, hd, hr, hq, Receiver.datum,
    Receiver.param]

/-- W_SLPOUT at the receiver (R154). -/
theorem rxAfter_slpout {r : Receiver} (hl : r.Listening) (ha : r.AtRest) :
    rxAfter r (cmdWork .slpout) =
      { r with dc := some false, writing := false, pend := none, winseq := 0, sleepOut := true,
               sinceSlpout := some 0 } := by
  rw [rxAfter_command hl ha]
  simp [Receiver.dispatch, Receiver.onSlpout]

/-- W_DISPON at the receiver (R155). -/
theorem rxAfter_dispon {r : Receiver} (hl : r.Listening) (ha : r.AtRest) :
    rxAfter r (cmdWork .dispon) =
      { r with dc := some false, writing := false, pend := none, winseq := 0, displayOn := true,
               visualUndefined := r.visualUndefined || !r.settled } := by
  rw [rxAfter_command hl ha]
  simp [Receiver.dispatch, Receiver.onDispon]
  rfl

/-- W_COLSET at the receiver (R156). -/
theorem rxAfter_colset {r : Receiver} {m : Nat} (hm : 1 ≤ m) (hl : r.Listening) (ha : r.AtRest) (a b : Half) :
    rxAfter r (cmdWork .colset ++ dataWork m (bytes16 a ++ bytes16 b)) =
      { r with dc := some true, writing := false, pend := none, winseq := 1, xs := some a, xe := some b } := by
  rw [rxAfter_append, rxAfter_command hl ha, rxAfter_data _ _ hm (by simp [bytes16])]
  obtain ⟨hd, hr, hq⟩ := hl
  have hq := Nat.not_lt.mpr hq
  simp [Receiver.dispatch, Receiver.onColset, Receiver.items, Receiver.item, hd, hr, hq, Receiver.datum,
    Receiver.param, bytes16, be16_bytes]

/-- W_ROWSET at the receiver (R157). -/
theorem rxAfter_rowset {r : Receiver} {m : Nat} (hm : 1 ≤ m) (hl : r.Listening) (ha : r.AtRest) (a b : Half) :
    rxAfter r (cmdWork .rowset ++ dataWork m (bytes16 a ++ bytes16 b)) =
      { r with dc := some true, writing := false, pend := none, winseq := if r.winseq = 1 then 2 else 0,
               ys := some a, ye := some b } := by
  rw [rxAfter_append, rxAfter_command hl ha, rxAfter_data _ _ hm (by simp [bytes16])]
  obtain ⟨hd, hr, hq⟩ := hl
  have hq := Nat.not_lt.mpr hq
  by_cases hw : r.winseq = 1
  · simp [Receiver.dispatch, Receiver.onRowset, Receiver.items, Receiver.item, hd, hr, hq, Receiver.datum,
      Receiver.param, bytes16, be16_bytes, hw]
  · simp [Receiver.dispatch, Receiver.onRowset, Receiver.items, Receiver.item, hd, hr, hq, Receiver.datum,
      Receiver.param, bytes16, be16_bytes, hw]

/-- A window program up to its last command (R113). -/
theorem rxAfter_ranges {r : Receiver} {m : Nat} (hm : 1 ≤ m) (hl : r.Listening) (ha : r.AtRest) (x0 x1 y0 y1 : Half) :
    rxAfter r (windowWork m x0 x1 y0 y1) =
      Receiver.onMemwr { r with dc := some false, writing := false, pend := none, winseq := 2, xs := some x0,
                                xe := some x1, ys := some y0, ye := some y1 } := by
  have h1 := rxAfter_colset hm hl ha x0 x1
  let r1 : Receiver :=
    { r with dc := some true, writing := false, pend := none, winseq := 1, xs := some x0, xe := some x1 }
  have hl1 : r1.Listening := hl
  have ha1 : r1.AtRest := ⟨rfl, by simp [r1, Receiver.payloadOpen]⟩
  have h2 := rxAfter_rowset hm hl1 ha1 y0 y1
  let r2 : Receiver := { r1 with winseq := 2, ys := some y0, ye := some y1 }
  have hl2 : r2.Listening := hl
  have ha2 : r2.AtRest := ⟨rfl, by simp [r2, r1, Receiver.payloadOpen]⟩
  have h3 := rxAfter_command hl2 ha2 .memwr
  have h2 : rxAfter r1 (cmdWork .rowset ++ dataWork m (bytes16 y0 ++ bytes16 y1)) = r2 := h2
  have e : windowWork m x0 x1 y0 y1 = (cmdWork .colset ++ dataWork m (bytes16 x0 ++ bytes16 x1)) ++
      ((cmdWork .rowset ++ dataWork m (bytes16 y0 ++ bytes16 y1)) ++ cmdWork .memwr) := by
    simp [windowWork]
  rw [e, rxAfter_append, h1, rxAfter_append]
  exact (congrArg (fun q => rxAfter q (cmdWork .memwr)) h2).trans h3

/-- A window program inside the panel, at a receiver in step: the pixels of the window are awaited (R158). -/
theorem rxAfter_window {r : Receiver} {m : Nat} (hm : 1 ≤ m) (hs : r.Synced) {x0 x1 y0 y1 : Half}
    (hw : WindowInPanel x0 x1 y0 y1) :
    rxAfter r (windowWork m x0 x1 y0 y1) =
      { r with dc := some false, writing := true, pend := none, winseq := 3, xs := some x0,
               xe := some x1, ys := some y0, ye := some y1, px := x0.toNat, py := y0.toNat,
               remaining := (x1.toNat - x0.toNat + 1) * (y1.toNat - y0.toNat + 1), latch := none } := by
  obtain ⟨hl, ha, hp, hc⟩ := hs
  rw [rxAfter_ranges hm hl ha]
  obtain ⟨h1, h2, h3, h4⟩ := hw
  have hn : r.madctl ≠ none := by intro h; simp [h] at hc
  unfold Receiver.onMemwr
  simp [Receiver.windowOk, Config.panelW, Config.panelH, h1, h2, h3, h4, hp, hn]

/-- The window test is the panel test (R160). -/
theorem Receiver.windowOk_iff {r : Receiver} {x0 x1 y0 y1 : Half} (h1 : r.xs = some x0) (h2 : r.xe = some x1)
    (h3 : r.ys = some y0) (h4 : r.ye = some y1) : r.windowOk = true ↔ WindowInPanel x0 x1 y0 y1 := by
  simp only [Receiver.windowOk, h1, h2, h3, h4, Config.panelW, Config.panelH, Bool.and_eq_true, decide_eq_true_eq]
  refine ⟨fun h => ⟨h.1.1.1, of_decide_eq_true h.1.1.2, h.1.2, of_decide_eq_true h.2⟩,
    fun h => ⟨⟨⟨h.1, decide_eq_true h.2.1⟩, h.2.2.1⟩, decide_eq_true h.2.2.2⟩⟩

/-- A window program outside the panel: Desync at its memory write (R160). -/
theorem rxAfter_window_bad {r : Receiver} {m : Nat} (hm : 1 ≤ m) (hl : r.Listening) (ha : r.AtRest) {x0 x1 y0 y1 : Half}
    (hw : ¬WindowInPanel x0 x1 y0 y1) :
    (rxAfter r (windowWork m x0 x1 y0 y1)).desync = true ∧ (rxAfter r (windowWork m x0 x1 y0 y1)).fb = [] := by
  rw [rxAfter_ranges hm hl ha]
  have : Receiver.windowOk { r with dc := some false, writing := false, pend := none, winseq := 2, xs := some x0,
                                    xe := some x1, ys := some y0, ye := some y1 } = false := by
    rw [Bool.eq_false_iff]
    exact fun h => hw ((Receiver.windowOk_iff rfl rfl rfl rfl).mp h)
  unfold Receiver.onMemwr
  simp [this, Receiver.lose]

/-- In Desync every item is ignored (R169). -/
theorem Receiver.items_desync {r : Receiver} (h : r.desync = true) (v : Level) (bytes : List Byte) :
    r.items v bytes = r := by
  induction bytes with
  | nil => rfl
  | cons b bs ih =>
    rw [Receiver.items_cons]
    have : r.item v b = r := by simp [Receiver.item, h]
    rw [this, ih]

/-- The receiver after a whole INIT, whatever it was before (R149 to R155). -/
theorem observes_initEvents (r : Receiver) {p : Params} (hok : p.ok = true) :
    (initEvents p).foldl Receiver.observe r =
      { Receiver.powerOn (some false) (some true) (some p.blOn) with
        pixfmt := some 0x05, madctl := some p.madctlVal, sleepOut := true, displayOn := true,
        quiet := p.tRstHigh + p.tSlpout, sinceSlpout := some p.tSlpout } := by
  simp only [Params.ok, Bool.and_eq_true, decide_eq_true_eq] at hok
  obtain ⟨⟨⟨⟨⟨⟨⟨⟨-, -⟩, h3⟩, h4⟩, h5⟩, -⟩, -⟩, -⟩, -⟩ := hok
  have g3 : ¬p.tRstLow < 10 := by simpa [Config.resetHold] using h3
  have g4 : ¬p.tRstHigh < 10 := by simpa [Config.resetHold] using h4
  have g5 : ¬p.tRstHigh + p.tSlpout < 10 := by omega
  have h5 : 120 ≤ p.tSlpout := h5
  simp [initEvents, Receiver.observe, Receiver.setLine, Receiver.resetBy, Receiver.powerOn, Receiver.resetHigh,
    Receiver.wait, Receiver.feed, Receiver.item, Receiver.command, Receiver.payloadOpen, Receiver.dispatch,
    WireCmd.ofCode, Receiver.openParam, Receiver.datum, Receiver.param, Receiver.onSlpout, Receiver.onDispon,
    Receiver.settled, Config.resetHold, Config.slpoutWait, g3, g4, g5, h5]

/-! ## The pixel payload -/

/-- One whole pixel at a receiver that awaits it (R161, R162). -/
theorem Receiver.pixel {r : Receiver} (hl : r.Listening) (hp : r.pend = none) (hw : r.writing = true)
    (hr : r.remaining ≠ 0) (ht : r.latch = none) (c : Half) :
    r.items true (bytes16 c) =
      Receiver.advance { r with fb := FrameMem.write r.fb r.px r.py c, remaining := r.remaining - 1 } := by
  obtain ⟨hd, hs, hq⟩ := hl
  have hq := Nat.not_lt.mpr hq
  simp [Receiver.items, bytes16, Receiver.item, hd, hs, hq, Receiver.datum, hp, hw, Receiver.pixelByte, hr, ht,
    be16_bytes]

/-- The successor of `k` in a row-major walk of rows of `w` (R162). -/
theorem succ_mod_div {w k : Nat} (hw : 0 < w) :
    (k % w + 1 < w → (k + 1) % w = k % w + 1 ∧ (k + 1) / w = k / w) ∧
    (¬k % w + 1 < w → (k + 1) % w = 0 ∧ (k + 1) / w = k / w + 1) := by
  have h1 := Nat.mod_lt k hw
  have h2 := Nat.mod_add_div k w
  have key : ∀ r q, r < w → r + w * q = k + 1 → (k + 1) % w = r ∧ (k + 1) / w = q := fun r q hr he => by
    rw [← he]
    exact ⟨by rw [Nat.add_mul_mod_self_left, Nat.mod_eq_of_lt hr],
      by rw [Nat.add_mul_div_left _ _ hw, Nat.div_eq_of_lt hr, Nat.zero_add]⟩
  refine ⟨fun h => key _ _ h (by omega), fun h => key 0 _ hw ?_⟩
  rw [Nat.mul_add, Nat.mul_one]
  omega

/-- Pixels written row by row from pixel `k` of a window of width `w` at `(x0, y0)` (R65). -/
def paint (x0 y0 w : Nat) : FrameMem → Nat → List Half → FrameMem
  | fb, _, [] => fb
  | fb, k, c :: cs => paint x0 y0 w (FrameMem.write fb (x0 + k % w) (y0 + k / w) c) (k + 1) cs

/-- The receiver is writing pixel `k` of a window (R158 to R162). -/
structure Receiver.Writing (r : Receiver) (x0 x1 y0 : Half) (k left : Nat) : Prop where
  listening : r.Listening
  pend : r.pend = none
  writing : r.writing = true
  latch : r.latch = none
  xs : r.xs = some x0
  xe : r.xe = some x1
  px : r.px = x0.toNat + k % (x1.toNat - x0.toNat + 1)
  py : r.py = y0.toNat + k / (x1.toNat - x0.toNat + 1)
  remaining : r.remaining = left

/-- The receiver after some pixels of a window, from pixel `k`. -/
def Receiver.painted (r : Receiver) (x0 x1 y0 : Half) (k : Nat) (cs : List Half) : Receiver :=
  let w := x1.toNat - x0.toNat + 1
  { r with fb := paint x0.toNat y0.toNat w r.fb k cs, px := x0.toNat + (k + cs.length) % w,
           py := y0.toNat + (k + cs.length) / w, remaining := r.remaining - cs.length }

/-- A stream of whole pixels, no longer than what the window still awaits, is written row by row (R161, R162). -/
theorem Receiver.items_pixels {r : Receiver} {x0 x1 y0 : Half} {k left : Nat} (h : r.Writing x0 x1 y0 k left)
    (hx : x0.toNat ≤ x1.toNat) (cs : List Half) (hc : cs.length ≤ left) :
    r.items true (pixelBytes cs) = r.painted x0 x1 y0 k cs := by
  induction cs generalizing r k left with
  | nil =>
    have h1 := h.px
    have h2 := h.py
    simp only [pixelBytes, List.flatMap_nil, Receiver.items_nil, Receiver.painted, paint, List.length_nil, Nat.add_zero,
      Nat.sub_zero, ← h1, ← h2]
  | cons c cs ih =>
    have hl : left ≠ 0 := by simp at hc; omega
    have h1 := Receiver.pixel h.listening h.pend h.writing (h.remaining ▸ hl) h.latch c
    have hw : 0 < x1.toNat - x0.toNat + 1 := by omega
    have hs := succ_mod_div (k := k) hw
    rw [pixelBytes, List.flatMap_cons, Receiver.items_append, h1]
    have hadv : Receiver.advance { r with fb := FrameMem.write r.fb r.px r.py c, remaining := r.remaining - 1 } =
        { r with fb := FrameMem.write r.fb r.px r.py c, remaining := r.remaining - 1,
                 px := x0.toNat + (k + 1) % (x1.toNat - x0.toNat + 1),
                 py := y0.toNat + (k + 1) / (x1.toNat - x0.toNat + 1) } := by
      have hpx := h.px
      have hpy := h.py
      by_cases hc' : k % (x1.toNat - x0.toNat + 1) + 1 < x1.toNat - x0.toNat + 1
      · have : r.px < x1.toNat := by omega
        obtain ⟨e1, e2⟩ := hs.1 hc'
        simp only [Receiver.advance, h.xe, Option.getD_some, this, if_true, e1, e2, ← hpy]
        rw [hpx, Nat.add_assoc]
      · have : ¬r.px < x1.toNat := by omega
        obtain ⟨e1, e2⟩ := hs.2 hc'
        simp only [Receiver.advance, h.xe, h.xs, Option.getD_some, this, if_false, e1, e2, Nat.add_zero]
        rw [hpy, Nat.add_assoc]
    rw [hadv]
    have hn : Receiver.Writing
        { r with fb := FrameMem.write r.fb r.px r.py c, remaining := r.remaining - 1,
                 px := x0.toNat + (k + 1) % (x1.toNat - x0.toNat + 1),
                 py := y0.toNat + (k + 1) / (x1.toNat - x0.toNat + 1) } x0 x1 y0 (k + 1) (left - 1) :=
      ⟨h.listening, h.pend, h.writing, h.latch, h.xs, h.xe, rfl, rfl, by simp [h.remaining]⟩
    refine (ih hn (by simp at hc; omega)).trans ?_
    simp only [Receiver.painted, paint, h.px, h.py, List.length_cons]
    have e : k + 1 + cs.length = k + (cs.length + 1) := by omega
    rw [e, Nat.sub_sub, Nat.add_comm 1]

/-- A pixel no written pixel falls on keeps its value. -/
theorem paint_read_other (x0 y0 w : Nat) (fb : FrameMem) (k : Nat) (cs : List Half) {x y : Nat}
    (h : ∀ j, k ≤ j → j < k + cs.length → ¬(x0 + j % w = x ∧ y0 + j / w = y)) :
    FrameMem.read (paint x0 y0 w fb k cs) x y = FrameMem.read fb x y := by
  induction cs generalizing fb k with
  | nil => rfl
  | cons c cs ih =>
    rw [paint, ih _ _ fun j h1 h2 => h j (by omega) (by simp; omega)]
    exact FrameMem.read_write_other _ _ (h k (by omega) (by simp))

/-- Pixel `j` of the stream is where rule R65 puts it. -/
theorem paint_read (x0 y0 w : Nat) (fb : FrameMem) (k : Nat) (cs : List Half) (j : Nat)
    (hj : j < cs.length) :
    FrameMem.read (paint x0 y0 w fb k cs) (x0 + (k + j) % w) (y0 + (k + j) / w) = some cs[j] := by
  induction cs generalizing fb k j with
  | nil => simp at hj
  | cons c cs ih =>
    cases j with
    | zero =>
      rw [paint, paint_read_other]
      · simpa using FrameMem.read_write_same fb (x0 + k % w) (y0 + k / w) c
      · rintro i h1 - ⟨h2, h3⟩
        have e1 := Nat.mod_add_div i w
        have e2 := Nat.mod_add_div k w
        have h2 : i % w = k % w := by simpa using h2
        have h3 : i / w = k / w := by simpa using h3
        rw [h2, h3] at e1
        omega
    | succ j =>
      have := ih (FrameMem.write fb (x0 + k % w) (y0 + k / w) c) (k + 1) j (by simpa using hj)
      rw [show k + 1 + j = k + (j + 1) by omega] at this
      simpa [paint] using this

theorem paint_wf (x0 y0 w : Nat) {fb : FrameMem} (k : Nat) (cs : List Half) (h : FrameMem.wf fb = true) :
    FrameMem.wf (paint x0 y0 w fb k cs) = true := by
  induction cs generalizing fb k with
  | nil => exact h
  | cons c cs ih => exact ih _ (FrameMem.wf_write _ _ _ h)

/-- No item breaks the canonical form of the frame memory. -/
theorem Receiver.item_wf {r : Receiver} (v : Level) (b : Byte) (h : FrameMem.wf r.fb = true) :
    FrameMem.wf (r.item v b).fb = true := by
  have hl : FrameMem.wf ([] : FrameMem) = true := rfl
  unfold Receiver.item
  split
  · exact h
  split
  · exact hl
  split
  · unfold Receiver.datum
    split
    · unfold Receiver.param
      split <;> exact h
    · unfold Receiver.pixelByte Receiver.advance
      split
      · split
        · exact hl
        · split
          · exact h
          · split <;> exact FrameMem.wf_write _ _ _ h
      · exact hl
  · unfold Receiver.command
    split
    · exact hl
    · unfold Receiver.dispatch
      split <;> try exact h
      · unfold Receiver.onMemwr
        split
        · exact hl
        · exact h
      · exact hl

theorem Receiver.items_wf {r : Receiver} (v : Level) (bytes : List Byte) (h : FrameMem.wf r.fb = true) :
    FrameMem.wf (r.items v bytes).fb = true := by
  induction bytes generalizing r with
  | nil => exact h
  | cons b bs ih => exact ih (Receiver.item_wf v b h)

/-- No event breaks the canonical form of the frame memory. -/
theorem Receiver.observe_wf {r : Receiver} (e : Event) (h : FrameMem.wf r.fb = true) :
    FrameMem.wf (r.observe e).fb = true := by
  have hl : FrameMem.wf ([] : FrameMem) = true := rfl
  have hs : ∀ (l : Line) (v : Level), FrameMem.wf (r.setLine l v).fb = true := fun l v => by
    cases l <;> cases v <;> simp [Receiver.setLine, Receiver.resetBy, Receiver.powerOn, Receiver.resetHigh, h, hl]
    split
    · exact hl
    · exact h
  cases e with
  | openBus _ _ _ _ => exact h
  | closeBus => exact h
  | claim l v a => cases a with
    | ok => exact hs l v
    | fail => exact h
  | release l => cases l <;> first | exact h | exact hl
  | pin l v => exact hs l v
  | xfer bytes a => cases a with
    | ok =>
      show FrameMem.wf (r.feed bytes).fb = true
      unfold Receiver.feed
      split
      · exact hl
      · exact Receiver.items_wf _ _ h
    | fail => exact hl
  | delay _ => exact h

theorem Receiver.observes_wf {r : Receiver} (es : List Event) (h : FrameMem.wf r.fb = true) :
    FrameMem.wf (es.foldl Receiver.observe r).fb = true := by
  induction es generalizing r with
  | nil => exact h
  | cons e es ih => exact ih (Receiver.observe_wf e h)

/-- Desync outlives every accepted transfer (R169). -/
theorem rxAfter_desync {r : Receiver} (fts : List FT) (h : r.desync = true) : (rxAfter r fts).desync = true := by
  induction fts generalizing r with
  | nil => exact h
  | cons f fts ih =>
    rw [← List.singleton_append, rxAfter_append]
    refine ih ?_
    obtain ⟨v, bytes⟩ := f
    have h : Receiver.desync { r with dc := some v } = true := h
    rw [rxAfter_single, Receiver.items_desync h]
    exact h

/-- A command while a payload is open: Desync (R164). -/
theorem rxAfter_cmd_open {r : Receiver} (hl : r.Listening) (ho : r.payloadOpen = true) (c : WireCmd) :
    (rxAfter r (cmdWork c)).desync = true := by
  have ho : Receiver.payloadOpen { r with dc := some false } = true := ho
  rw [rxAfter_cmd, Receiver.item_listening (hl.setDc _)]
  simp [Receiver.command, ho, Receiver.lose]

/-- The receiver after a window program inside the panel and exactly the pixels of the window (R172). -/
def Receiver.drawn (r : Receiver) (x0 x1 y0 y1 : Half) (cs : List Half) : Receiver :=
  let w := x1.toNat - x0.toNat + 1
  { r with dc := some true, writing := true, pend := none, winseq := 3, xs := some x0, xe := some x1, ys := some y0,
           ye := some y1, px := x0.toNat + cs.length % w, py := y0.toNat + cs.length / w, remaining := 0, latch := none,
           fb := paint x0.toNat y0.toNat w r.fb 0 cs }

theorem rxAfter_drawn {r : Receiver} {m : Nat} (hm : 1 ≤ m) (hs : r.Synced) {x0 x1 y0 y1 : Half}
    (hw : WindowInPanel x0 x1 y0 y1) (cs : List Half)
    (hc : cs.length = (x1.toNat - x0.toNat + 1) * (y1.toNat - y0.toNat + 1)) :
    rxAfter r (windowWork m x0 x1 y0 y1 ++ dataWork m (pixelBytes cs)) = r.drawn x0 x1 y0 y1 cs := by
  have hne : pixelBytes cs ≠ [] := by
    cases cs with
    | nil =>
      have : 0 < (x1.toNat - x0.toNat + 1) * (y1.toNat - y0.toNat + 1) := Nat.mul_pos (by omega) (by omega)
      simp at hc
    | cons c cs => simp [pixelBytes, bytes16]
  rw [rxAfter_append, rxAfter_window hm hs hw, rxAfter_data _ _ hm hne]
  have hwr : Receiver.Writing
      { r with dc := some true, writing := true, pend := none, winseq := 3, xs := some x0,
               xe := some x1, ys := some y0, ye := some y1, px := x0.toNat, py := y0.toNat,
               remaining := (x1.toNat - x0.toNat + 1) * (y1.toNat - y0.toNat + 1), latch := none }
      x0 x1 y0 0 ((x1.toNat - x0.toNat + 1) * (y1.toNat - y0.toNat + 1)) :=
    ⟨hs.1, rfl, rfl, rfl, rfl, rfl, by simp, by simp, rfl⟩
  refine (Receiver.items_pixels hwr hw.1 cs (by omega)).trans ?_
  simp only [Receiver.painted, Receiver.drawn, Nat.zero_add]
  have : (x1.toNat - x0.toNat + 1) * (y1.toNat - y0.toNat + 1) - cs.length = 0 := by omega
  rw [this]

theorem Receiver.drawn_synced {r : Receiver} (hs : r.Synced) (x0 x1 y0 y1 : Half) (cs : List Half) :
    (r.drawn x0 x1 y0 y1 cs).Synced := ⟨hs.1, ⟨rfl, rfl⟩, hs.2.2.1, hs.2.2.2⟩

/-- A pixel write inside the panel (R117, R172). -/
theorem rxAfter_pixelWork {r : Receiver} {m : Nat} (hm : 1 ≤ m) (hs : r.Synced) {x y : Half} (hp : InPanel x y) (c : Half) :
    rxAfter r (pixelWork m x y c) = r.drawn x x y y [c] := by
  have hw : WindowInPanel x x y y := ⟨Nat.le_refl _, hp.1, Nat.le_refl _, hp.2⟩
  have := rxAfter_drawn hm hs hw [c] (by simp)
  rwa [pixelBytes, List.flatMap_singleton] at this

theorem Receiver.drawn_pixel_fb (r : Receiver) (x y c : Half) :
    (r.drawn x x y y [c]).fb = FrameMem.write r.fb x.toNat y.toNat c := by
  simp [Receiver.drawn, paint]

/-- Several pixel writes inside the panel: the receiver stays in step, and its frame memory is written in order. -/
theorem rxAfter_pixels {r : Receiver} {m : Nat} (hm : 1 ≤ m) (hs : r.Synced) (ps : List (Half × Half)) (c : Half)
    (hp : ∀ p ∈ ps, InPanel p.1 p.2) :
    (rxAfter r (ps.flatMap fun p => pixelWork m p.1 p.2 c)).Synced ∧
    (rxAfter r (ps.flatMap fun p => pixelWork m p.1 p.2 c)).fb =
      ps.foldl (fun fb p => FrameMem.write fb p.1.toNat p.2.toNat c) r.fb := by
  induction ps generalizing r with
  | nil => exact ⟨hs, rfl⟩
  | cons p ps ih =>
    rw [List.flatMap_cons, rxAfter_append, rxAfter_pixelWork hm hs (hp p (by simp))]
    have := ih (Receiver.drawn_synced hs p.1 p.1 p.2 p.2 [c]) fun q hq => hp q (by simp [hq])
    rwa [Receiver.drawn_pixel_fb] at this

/-- Writing one colour at several pixels (R133). -/
theorem read_writes (fb : FrameMem) (ps : List (Half × Half)) (c : Half) (x y : Nat) :
    FrameMem.read (ps.foldl (fun fb p => FrameMem.write fb p.1.toNat p.2.toNat c) fb) x y =
      if ∃ p ∈ ps, x = p.1.toNat ∧ y = p.2.toNat then some c else FrameMem.read fb x y := by
  induction ps generalizing fb with
  | nil => simp
  | cons p ps ih =>
    rw [List.foldl_cons, ih]
    by_cases h : ∃ q ∈ ps, x = q.1.toNat ∧ y = q.2.toNat
    · obtain ⟨q, hq, hxy⟩ := h
      rw [if_pos ⟨q, hq, hxy⟩, if_pos ⟨q, by simp [hq], hxy⟩]
    · rw [if_neg h]
      by_cases hxy : x = p.1.toNat ∧ y = p.2.toNat
      · rw [if_pos ⟨p, by simp, hxy⟩, hxy.1, hxy.2, FrameMem.read_write_same]
      · rw [if_neg, FrameMem.read_write_other]
        · exact fun h' => hxy ⟨h'.1.symm, h'.2.symm⟩
        · rintro ⟨q, hq, h'⟩
          rcases List.mem_cons.mp hq with rfl | hq
          · exact hxy h'
          · exact h ⟨q, hq, h'⟩

theorem repColor_eq (n : Nat) (c : Half) : repColor n c = pixelBytes (List.replicate n c) := by
  simp [repColor, pixelBytes, List.flatMap_def]

theorem Receiver.drawn_fb (r : Receiver) (x0 x1 y0 y1 : Half) (cs : List Half) :
    (r.drawn x0 x1 y0 y1 cs).fb = paint x0.toNat y0.toNat (x1.toNat - x0.toNat + 1) r.fb 0 cs := rfl

/-- A fill at a receiver in step: the panel drawn with pixels of one colour (R119, R172). The pixels are a list `cs`, so that
no proof meets 76800 of them written out. -/
theorem rxAfter_fill {r : Receiver} {m : Nat} (hm : 1 ≤ m) (hs : r.Synced) (c : Half) :
    ∃ cs : List Half, cs.length = 76800 ∧ (∀ (j : Nat) (h : j < cs.length), cs[j] = c) ∧
      rxAfter r (fillWork m c) = r.drawn 0 319 0 239 cs := by
  have hw : WindowInPanel 0 319 0 239 := by unfold WindowInPanel; decide
  generalize hn : 76800 = n
  refine ⟨List.replicate n c, by simp, fun j h => List.getElem_replicate _, ?_⟩
  have := rxAfter_drawn hm hs hw (List.replicate n c) (by rw [List.length_replicate, ← hn]; rfl)
  rw [← repColor_eq] at this
  simp only [fillWork, hn]
  exact this

/-- The receiver after a W_MEMWR that it accepts, before any pixel (R158). -/
def Receiver.opened (r : Receiver) (x0 x1 y0 y1 : Half) : Receiver :=
  { r with dc := some false, writing := true, pend := none, winseq := 3, px := x0.toNat, py := y0.toNat,
           remaining := (x1.toNat - x0.toNat + 1) * (y1.toNat - y0.toNat + 1), latch := none }

/-- A receiver has this window, in the panel and just programmed, and may take a W_MEMWR (R158 to R160). -/
structure Receiver.Windowed (r : Receiver) (x0 x1 y0 y1 : Half) : Prop where
  synced : r.Synced
  winseq : r.winseq = 2
  xs : r.xs = some x0
  xe : r.xe = some x1
  ys : r.ys = some y0
  ye : r.ye = some y1
  panel : WindowInPanel x0 x1 y0 y1

theorem rxAfter_memwr {r : Receiver} {x0 x1 y0 y1 : Half} (h : r.Windowed x0 x1 y0 y1) :
    rxAfter r (cmdWork .memwr) = r.opened x0 x1 y0 y1 := by
  obtain ⟨⟨hl, ha, hp, hc⟩, hq, h1, h2, h3, h4, p1, p2, p3, p4⟩ := h
  rw [rxAfter_command hl ha]
  have hn : r.madctl ≠ none := by intro h; simp [h] at hc
  simp [Receiver.dispatch, Receiver.onMemwr, Receiver.opened, Receiver.windowOk, Config.panelW, Config.panelH, hq, h1, h2,
    h3, h4, p1, p2, p3, p4, hp, hn]

theorem Receiver.opened_writing {r : Receiver} {x0 x1 y0 y1 : Half} (h : r.Windowed x0 x1 y0 y1) :
    Receiver.Writing { r.opened x0 x1 y0 y1 with dc := some true } x0 x1 y0 0
      ((x1.toNat - x0.toNat + 1) * (y1.toNat - y0.toNat + 1)) :=
  ⟨h.synced.1, rfl, rfl, rfl, h.xs, h.xe, by simp [Receiver.opened], by simp [Receiver.opened], rfl⟩

/-- A W_MEMWR with at most the pixels of its window (R158 to R162). -/
theorem rxAfter_memwr_pixels {r : Receiver} {m : Nat} (hm : 1 ≤ m) {x0 x1 y0 y1 : Half} (h : r.Windowed x0 x1 y0 y1)
    (cs : List Half) (hc : cs.length ≤ (x1.toNat - x0.toNat + 1) * (y1.toNat - y0.toNat + 1)) :
    rxAfter r (cmdWork .memwr ++ dataWork m (pixelBytes cs)) =
      Receiver.painted { r.opened x0 x1 y0 y1 with dc := some !cs.isEmpty } x0 x1 y0 0 cs := by
  rw [rxAfter_append, rxAfter_memwr h]
  cases cs with
  | nil => simp [pixelBytes, dataWork, Receiver.painted, paint, Receiver.opened]
  | cons c cs =>
    rw [rxAfter_data _ _ hm (by simp [pixelBytes, bytes16])]
    exact Receiver.items_pixels (Receiver.opened_writing h) h.panel.1 (c :: cs) hc

/-- A W_MEMWR with exactly the pixels of its window (R158 to R162). -/
theorem rxAfter_memwr_drawn {r : Receiver} {m : Nat} (hm : 1 ≤ m) {x0 x1 y0 y1 : Half} (h : r.Windowed x0 x1 y0 y1)
    (cs : List Half) (hc : cs.length = (x1.toNat - x0.toNat + 1) * (y1.toNat - y0.toNat + 1)) :
    rxAfter r (cmdWork .memwr ++ dataWork m (pixelBytes cs)) = r.drawn x0 x1 y0 y1 cs := by
  have hn : cs.isEmpty = false := by
    have : 0 < (x1.toNat - x0.toNat + 1) * (y1.toNat - y0.toNat + 1) := Nat.mul_pos (by omega) (by omega)
    rw [List.isEmpty_eq_false_iff, ← List.length_pos_iff]
    omega
  rw [rxAfter_memwr_pixels hm h cs hc.le]
  have h1 := h.xs
  have h2 := h.xe
  have h3 := h.ys
  have h4 := h.ye
  simp only [Receiver.painted, Receiver.drawn, Receiver.opened, Nat.zero_add, h1, h2, h3, h4, hn, Bool.not_false]
  have : (x1.toNat - x0.toNat + 1) * (y1.toNat - y0.toNat + 1) - cs.length = 0 := by omega
  rw [this]

/-- A data byte where no more pixels are awaited: Desync (R163). -/
theorem Receiver.item_excess {r : Receiver} (hl : r.Listening) (hp : r.pend = none) (hw : r.writing = true)
    (hr : r.remaining = 0) (b : Byte) : (r.item true b).desync = true := by
  rw [Receiver.item_listening hl]
  simp [Receiver.datum, hp, hw, Receiver.pixelByte, hr, Receiver.lose]

/-- A W_MEMWR with more pixels than its window holds: Desync (R163). -/
theorem rxAfter_memwr_excess {r : Receiver} {m : Nat} (hm : 1 ≤ m) {x0 x1 y0 y1 : Half} (h : r.Windowed x0 x1 y0 y1)
    (cs : List Half) (hc : (x1.toNat - x0.toNat + 1) * (y1.toNat - y0.toNat + 1) < cs.length) :
    (rxAfter r (cmdWork .memwr ++ dataWork m (pixelBytes cs))).desync = true := by
  obtain ⟨a, c, b, hcs, hal⟩ : ∃ a c b, cs = a ++ c :: b ∧
      a.length = (x1.toNat - x0.toNat + 1) * (y1.toNat - y0.toNat + 1) :=
    ⟨cs.take _, cs[(x1.toNat - x0.toNat + 1) * (y1.toNat - y0.toNat + 1)], cs.drop (_ + 1), by
      rw [← List.drop_eq_getElem_cons hc, List.take_append_drop], by simp; omega⟩
  have hb : pixelBytes cs = pixelBytes a ++ (hi8 c :: lo8 c :: pixelBytes b) := by simp [hcs, pixelBytes, bytes16]
  rw [rxAfter_append, rxAfter_memwr h, rxAfter_data _ _ hm (by simp [hb]), hb, Receiver.items_append,
    Receiver.items_pixels (Receiver.opened_writing h) h.panel.1 a (by omega), Receiver.items_cons]
  have hx := Receiver.item_excess (r := Receiver.painted { r.opened x0 x1 y0 y1 with dc := some true } x0 x1 y0 0 a)
    h.synced.1 rfl rfl (by simp [Receiver.painted, Receiver.opened, hal]) (hi8 c)
  rw [Receiver.items_desync hx]
  exact hx

/-! ## Receivers that are not in step -/

/-- A command at a receiver that does not listen, or has something in progress: Desync (R149, R150, R164, R166, R169). -/
theorem rxAfter_cmd_cases (r : Receiver) (c : WireCmd) :
    (rxAfter r (cmdWork c)).desync = true ∨ (r.Listening ∧ r.AtRest) := by
  rw [rxAfter_cmd]
  unfold Receiver.item
  split
  · exact .inl ‹_›
  split
  · exact .inl rfl
  rename_i h1 h2
  simp only [Bool.false_eq_true, if_false]
  unfold Receiver.command
  split
  · exact .inl rfl
  rename_i h3
  simp only [not_or, not_not, Nat.not_lt, ne_eq] at h2
  simp only [Bool.or_eq_true, not_or, Bool.not_eq_true, Option.isSome_eq_false_iff, Option.isNone_iff_eq_none] at h3
  exact .inr ⟨⟨by simpa using h1, h2.1, h2.2⟩, h3.1, h3.2⟩

/-- W_MEMWR's command at any receiver: Desync, or a window in the panel was just programmed (R158 to R160). -/
theorem rxAfter_memwr_cases (r : Receiver) :
    (rxAfter r (cmdWork .memwr)).desync = true ∨ ∃ x0 x1 y0 y1, r.Windowed x0 x1 y0 y1 := by
  rcases rxAfter_cmd_cases r .memwr with h | ⟨hl, ha⟩
  · exact .inl h
  rw [rxAfter_command hl ha]
  simp only [Receiver.dispatch, WireCmd.ofCode_code, Receiver.onMemwr]
  split
  · exact .inl rfl
  · rename_i h
    simp only [ne_eq, not_or, not_not, Bool.not_eq_false] at h
    obtain ⟨h1, h2, h3, h4⟩ := h
    have hw : r.windowOk = true := h2
    unfold Receiver.windowOk at hw
    split at hw
    · rename_i x0 x1 y0 y1 e0 e1 e2 e3
      exact .inr ⟨x0, x1, y0, y1, ⟨hl, ha, h3, Option.isSome_iff_ne_none.mpr h4⟩, h1, e0, e1, e2, e3,
        (Receiver.windowOk_iff e0 e1 e2 e3).mp h2⟩
    · simp at hw

/-- A window program at any receiver: Desync, or the receiver was in step and the window is in the panel. -/
theorem rxAfter_window_cases (r : Receiver) {m : Nat} (hm : 1 ≤ m) (x0 x1 y0 y1 : Half) :
    (rxAfter r (windowWork m x0 x1 y0 y1)).desync = true ∨ (r.Synced ∧ WindowInPanel x0 x1 y0 y1) := by
  rcases rxAfter_cmd_cases r .colset with h | ⟨hl, ha⟩
  · left
    simp only [windowWork, List.append_assoc]
    rw [rxAfter_append]
    exact rxAfter_desync _ h
  · rw [rxAfter_ranges hm hl ha]
    unfold Receiver.onMemwr
    split
    · exact .inl rfl
    · rename_i h
      simp only [ne_eq, not_or, not_not, Bool.not_eq_false] at h
      obtain ⟨-, h2, h3, h4⟩ := h
      refine .inr ⟨⟨hl, ha, h3, Option.isSome_iff_ne_none.mpr h4⟩, (Receiver.windowOk_iff rfl rfl rfl rfl).mp h2⟩

/-- What window programs and pixels leave as it was, in Desync or not. -/
structure Receiver.Keeps (r q : Receiver) : Prop where
  rstn : q.rstn = r.rstn
  bl : q.bl = r.bl
  pixfmt : q.pixfmt = r.pixfmt
  madctl : q.madctl = r.madctl
  sleepOut : q.sleepOut = r.sleepOut
  displayOn : q.displayOn = r.displayOn
  visualUndefined : q.visualUndefined = r.visualUndefined
  quiet : q.quiet = r.quiet
  sinceSlpout : q.sinceSlpout = r.sinceSlpout

theorem Receiver.Keeps.refl (r : Receiver) : r.Keeps r := ⟨rfl, rfl, rfl, rfl, rfl, rfl, rfl, rfl, rfl⟩

theorem Receiver.Keeps.trans {r q p : Receiver} (h : r.Keeps q) (g : q.Keeps p) : r.Keeps p :=
  ⟨g.1.trans h.1, g.2.trans h.2, g.3.trans h.3, g.4.trans h.4, g.5.trans h.5, g.6.trans h.6, g.7.trans h.7,
    g.8.trans h.8, g.9.trans h.9⟩

/-- The receiver collects no parameter of a format or orientation command. -/
def Receiver.Calm (r : Receiver) : Prop :=
  r.desync = true ∨ r.pend = none ∨ (∃ ps, r.pend = some (.colset, ps)) ∨ ∃ ps, r.pend = some (.rowset, ps)

/-- A data byte at a calm receiver. -/
theorem Receiver.item_datum_keeps {r : Receiver} (h : r.Calm) (b : Byte) :
    r.Keeps (r.item true b) ∧ (r.item true b).Calm := by
  unfold Receiver.item
  split
  · exact ⟨.refl r, h⟩
  rename_i hd
  split
  · exact ⟨⟨rfl, rfl, rfl, rfl, rfl, rfl, rfl, rfl, rfl⟩, .inl rfl⟩
  simp only [if_true]
  rcases h with h | h | ⟨ps, h⟩ | ⟨ps, h⟩
  · exact absurd h hd
  · simp only [Receiver.datum, h]
    unfold Receiver.pixelByte Receiver.advance
    split
    · split
      · exact ⟨⟨rfl, rfl, rfl, rfl, rfl, rfl, rfl, rfl, rfl⟩, .inl rfl⟩
      · split
        · exact ⟨⟨rfl, rfl, rfl, rfl, rfl, rfl, rfl, rfl, rfl⟩, .inr (.inl h)⟩
        · split <;> exact ⟨⟨rfl, rfl, rfl, rfl, rfl, rfl, rfl, rfl, rfl⟩, .inr (.inl h)⟩
    · exact ⟨⟨rfl, rfl, rfl, rfl, rfl, rfl, rfl, rfl, rfl⟩, .inl rfl⟩
  · simp only [Receiver.datum, h]
    unfold Receiver.param
    split <;> simp_all only [reduceCtorEq]
    · exact ⟨⟨rfl, rfl, rfl, rfl, rfl, rfl, rfl, rfl, rfl⟩, .inr (.inl rfl)⟩
    · exact ⟨⟨rfl, rfl, rfl, rfl, rfl, rfl, rfl, rfl, rfl⟩, .inr (.inr (.inl ⟨_, rfl⟩))⟩
  · simp only [Receiver.datum, h]
    unfold Receiver.param
    split <;> simp_all only [reduceCtorEq]
    · exact ⟨⟨rfl, rfl, rfl, rfl, rfl, rfl, rfl, rfl, rfl⟩, .inr (.inl rfl)⟩
    · exact ⟨⟨rfl, rfl, rfl, rfl, rfl, rfl, rfl, rfl, rfl⟩, .inr (.inr (.inr ⟨_, rfl⟩))⟩

/-- A column set, row set or memory write command at any receiver. -/
theorem Receiver.item_command_keeps (r : Receiver) {c : WireCmd} (hc : c = .colset ∨ c = .rowset ∨ c = .memwr) :
    r.Keeps (r.item false c.code) ∧ (r.item false c.code).Calm := by
  unfold Receiver.item
  split
  · exact ⟨.refl r, .inl ‹_›⟩
  split
  · exact ⟨⟨rfl, rfl, rfl, rfl, rfl, rfl, rfl, rfl, rfl⟩, .inl rfl⟩
  simp only [Bool.false_eq_true, if_false]
  unfold Receiver.command
  split
  · exact ⟨⟨rfl, rfl, rfl, rfl, rfl, rfl, rfl, rfl, rfl⟩, .inl rfl⟩
  rcases hc with rfl | rfl | rfl
  · exact ⟨⟨rfl, rfl, rfl, rfl, rfl, rfl, rfl, rfl, rfl⟩, .inr (.inr (.inl ⟨_, rfl⟩))⟩
  · exact ⟨⟨rfl, rfl, rfl, rfl, rfl, rfl, rfl, rfl, rfl⟩, .inr (.inr (.inr ⟨_, rfl⟩))⟩
  · simp only [Receiver.dispatch, WireCmd.ofCode_code, Receiver.onMemwr]
    split
    · exact ⟨⟨rfl, rfl, rfl, rfl, rfl, rfl, rfl, rfl, rfl⟩, .inl rfl⟩
    · exact ⟨⟨rfl, rfl, rfl, rfl, rfl, rfl, rfl, rfl, rfl⟩, .inr (.inl rfl)⟩

theorem Receiver.items_keeps {r : Receiver} (h : r.Calm) (bytes : List Byte) :
    r.Keeps (r.items true bytes) ∧ (r.items true bytes).Calm := by
  induction bytes generalizing r with
  | nil => exact ⟨.refl r, h⟩
  | cons b bs ih =>
    obtain ⟨h1, h2⟩ := Receiver.item_datum_keeps h b
    obtain ⟨h3, h4⟩ := ih h2
    exact ⟨h1.trans h3, h4⟩

/-- A framed transfer of a window program or of pixels. -/
def drawFT (f : FT) : Prop := f.1 = true ∨ ∃ c : WireCmd, (c = .colset ∨ c = .rowset ∨ c = .memwr) ∧ f = (false, [c.code])

/-- A work list of window programs and pixels: it begins with a command. -/
def DrawList (fts : List FT) : Prop := (∀ f ∈ fts, drawFT f) ∧ ∀ f, fts.head? = some f → f.1 = false

theorem rxAfter_keeps_calm {r : Receiver} (h : r.Calm) (fts : List FT) (hf : ∀ f ∈ fts, drawFT f) :
    r.Keeps (rxAfter r fts) ∧ (rxAfter r fts).Calm := by
  induction fts generalizing r with
  | nil => exact ⟨.refl r, h⟩
  | cons f fts ih =>
    rw [← List.singleton_append, rxAfter_append]
    have h1 : r.Keeps (rxAfter r [f]) ∧ (rxAfter r [f]).Calm := by
      obtain ⟨v, bytes⟩ := f
      have hc : Receiver.Calm { r with dc := some v } := h
      have hk : r.Keeps { r with dc := some v } := ⟨rfl, rfl, rfl, rfl, rfl, rfl, rfl, rfl, rfl⟩
      rcases hf (v, bytes) (by simp) with hv | ⟨c, hc', hv⟩
      · obtain rfl : v = true := hv
        obtain ⟨a, b⟩ := Receiver.items_keeps hc bytes
        exact ⟨hk.trans a, b⟩
      · obtain ⟨rfl, rfl⟩ := Prod.mk.inj hv
        obtain ⟨a, b⟩ := Receiver.item_command_keeps { r with dc := some false } hc'
        exact ⟨hk.trans a, b⟩
    obtain ⟨h2, h3⟩ := ih h1.2 fun g hg => hf g (by simp [hg])
    exact ⟨h1.1.trans h2, h3⟩

/-- Window programs and pixels at any receiver leave these fields as they were. -/
theorem rxAfter_keeps (r : Receiver) {fts : List FT} (h : DrawList fts) : r.Keeps (rxAfter r fts) := by
  cases fts with
  | nil => exact .refl r
  | cons f fts =>
    rw [← List.singleton_append, rxAfter_append]
    have hv := h.2 f rfl
    rcases h.1 f (by simp) with h1 | ⟨c, hc, rfl⟩
    · simp [h1] at hv
    · have hk : r.Keeps { r with dc := some false } := ⟨rfl, rfl, rfl, rfl, rfl, rfl, rfl, rfl, rfl⟩
      obtain ⟨a, b⟩ := Receiver.item_command_keeps { r with dc := some false } hc
      exact (hk.trans a).trans (rxAfter_keeps_calm b fts fun g hg => h.1 g (by simp [hg])).1

theorem drawList_window (m : Nat) (x0 x1 y0 y1 : Half) : DrawList (windowWork m x0 x1 y0 y1) := by
  refine ⟨fun f hf => ?_, fun f hf => ?_⟩
  · simp only [windowWork, cmdWork, dataWork, List.mem_append, List.mem_map, List.mem_singleton] at hf
    rcases hf with (((rfl | ⟨ch, -, rfl⟩) | rfl) | ⟨ch, -, rfl⟩) | rfl
    · exact .inr ⟨_, .inl rfl, rfl⟩
    · exact .inl rfl
    · exact .inr ⟨_, .inr (.inl rfl), rfl⟩
    · exact .inl rfl
    · exact .inr ⟨_, .inr (.inr rfl), rfl⟩
  · obtain rfl := Option.some.inj hf
    rfl

theorem drawList_append_data {m : Nat} {fts : List FT} (h : DrawList fts) (hn : fts ≠ []) (bytes : List Byte) :
    DrawList (fts ++ dataWork m bytes) := by
  refine ⟨fun f hf => ?_, fun f hf => ?_⟩
  · rcases List.mem_append.mp hf with hf | hf
    · exact h.1 f hf
    · obtain ⟨ch, -, rfl⟩ := List.mem_map.mp hf
      exact .inl rfl
  · cases fts with
    | nil => exact absurd rfl hn
    | cons g fts => exact h.2 f hf

theorem drawList_flatMap {α : Type} {w : α → List FT} (h : ∀ a, DrawList (w a)) (as : List α) :
    DrawList (as.flatMap w) := by
  induction as with
  | nil => exact ⟨fun f hf => by simp at hf, fun f hf => by simp at hf⟩
  | cons a as ih =>
    rw [List.flatMap_cons]
    refine ⟨fun f hf => ?_, fun f hf => ?_⟩
    · rcases List.mem_append.mp hf with hf | hf
      · exact (h a).1 f hf
      · exact ih.1 f hf
    · cases hw : w a with
      | nil =>
        rw [hw] at hf
        exact ih.2 f hf
      | cons g gs =>
        rw [hw] at hf
        exact (h a).2 f (by rw [hw]; exact hf)

theorem DrawList.take {fts : List FT} (h : DrawList fts) (k : Nat) : DrawList (fts.take k) := by
  refine ⟨fun f hf => h.1 f (List.mem_of_mem_take hf), fun f hf => h.2 f ?_⟩
  cases k with
  | zero => simp at hf
  | succ k =>
    cases fts with
    | nil => exact hf
    | cons g fts => exact hf

/-- The work of every drawing operation is window programs and pixels. -/
theorem drawList_drawWork (s : State) (i : Instr) : DrawList (drawWork s i) := by
  have hp : ∀ m x y c, DrawList (pixelWork m x y c) := fun m x y c =>
    drawList_append_data (drawList_window m x x y y) (by simp [windowWork, cmdWork]) _
  have hn : DrawList ([] : List FT) := ⟨fun f hf => by simp at hf, fun f hf => by simp at hf⟩
  cases i with
  | setwin x0 x1 y0 y1 => exact drawList_window _ _ _ _ _
  | drawpixel x y c => exact hp _ _ _ _
  | fillscreen c => exact drawList_append_data (drawList_window _ _ _ _ _) (by simp [windowWork, cmdWork]) _
  | drawtext x y c addr len => exact drawList_flatMap (fun p => hp _ _ _ _) _
  | wPixfmt _ => exact hn
  | wMemctl _ => exact hn
  | wSlpout => exact hn
  | wDispon => exact hn
  | wColset _ _ => exact hn
  | wRowset _ _ => exact hn
  | wMemwr _ => exact hn
  | init => exact hn
  | teardown => exact hn

/-- A drawing operation, done or broken off, at any receiver. -/
theorem observes_failEvents_keeps (r : Receiver) {fts : List FT} {k : Nat} (hk : k < fts.length) (h : DrawList fts) :
    r.Keeps ((failEvents fts k).foldl Receiver.observe r) := by
  rw [failEvents, List.foldl_append, List.drop_eq_getElem_cons hk]
  exact (rxAfter_keeps r (h.take k)).trans ⟨rfl, rfl, rfl, rfl, rfl, rfl, rfl, rfl, rfl⟩

end Sys2Proof.Machine
end

