-- ==== Sys2Proof/Laws/Step.lean ====
section
/-! SUPPORT. Everything a step can do, said once, and the laws of `wire(TR)` on the events of a work list. -/

namespace Sys2Proof.Machine

/-! ## A step -/

theorem oneByte_ok {bytes : List Byte} {f : Byte → Instr} {i : Instr} (h : oneByte bytes f = .ok i) :
    ∃ p, bytes = [p] ∧ i = f p := by
  unfold oneByte at h
  split at h
  · exact ⟨_, rfl, (Except.ok.inj h).symm⟩
  · simp at h

theorem twoHalves_ok {bytes : List Byte} {f : Half → Half → Instr} {i : Instr} (h : twoHalves bytes f = .ok i) :
    ∃ a1 a0 b1 b0, bytes = [a1, a0, b1, b0] ∧ i = f (be16 a1 a0) (be16 b1 b0) := by
  unfold twoHalves at h
  split at h
  · exact ⟨_, _, _, _, rfl, (Except.ok.inj h).symm⟩
  · simp at h

theorem exceptMap_ok {α β : Type} {e : Except Reject α} {f : α → β} {b : β} (h : e.map f = .ok b) :
    ∃ a, e = .ok a ∧ f a = b := by
  cases e with
  | ok a => exact ⟨a, rfl, Except.ok.inj h⟩
  | error r => simp [Except.map] at h

/-- Everything `decodePayload` can give. -/
theorem decodePayload_cases {c : WireCmd} {bytes : List Byte} {items rest : List Item} {i : Instr}
    (h : decodePayload c bytes items = .ok (i, rest)) :
    (c = .pixfmt ∧ (∃ p, bytes = [p] ∧ i = .wPixfmt p) ∧ rest = items) ∨
    (c = .memctl ∧ (∃ p, bytes = [p] ∧ i = .wMemctl p) ∧ rest = items) ∨
    (c = .slpout ∧ i = .wSlpout ∧ rest = items) ∨
    (c = .dispon ∧ i = .wDispon ∧ rest = items) ∨
    (c = .colset ∧ (∃ a1 a0 b1 b0, bytes = [a1, a0, b1, b0] ∧ i = .wColset (be16 a1 a0) (be16 b1 b0)) ∧ rest = items) ∨
    (c = .rowset ∧ (∃ a1 a0 b1 b0, bytes = [a1, a0, b1, b0] ∧ i = .wRowset (be16 a1 a0) (be16 b1 b0)) ∧ rest = items) ∨
    (c = .memwr ∧ i = .wMemwr (takePixels maxPixels items).1 ∧ rest = (takePixels maxPixels items).2) := by
  cases c
  case pixfmt =>
    obtain ⟨a, ha, hb⟩ := exceptMap_ok h
    obtain ⟨rfl, rfl⟩ := Prod.mk.inj hb
    exact .inl ⟨rfl, oneByte_ok ha, rfl⟩
  case memctl =>
    obtain ⟨a, ha, hb⟩ := exceptMap_ok h
    obtain ⟨rfl, rfl⟩ := Prod.mk.inj hb
    exact .inr (.inl ⟨rfl, oneByte_ok ha, rfl⟩)
  case slpout =>
    obtain ⟨rfl, rfl⟩ := Prod.mk.inj (Except.ok.inj h)
    exact .inr (.inr (.inl ⟨rfl, rfl, rfl⟩))
  case dispon =>
    obtain ⟨rfl, rfl⟩ := Prod.mk.inj (Except.ok.inj h)
    exact .inr (.inr (.inr (.inl ⟨rfl, rfl, rfl⟩)))
  case colset =>
    obtain ⟨a, ha, hb⟩ := exceptMap_ok h
    obtain ⟨rfl, rfl⟩ := Prod.mk.inj hb
    exact .inr (.inr (.inr (.inr (.inl ⟨rfl, twoHalves_ok ha, rfl⟩))))
  case rowset =>
    obtain ⟨a, ha, hb⟩ := exceptMap_ok h
    obtain ⟨rfl, rfl⟩ := Prod.mk.inj hb
    exact .inr (.inr (.inr (.inr (.inr (.inl ⟨rfl, twoHalves_ok ha, rfl⟩)))))
  case memwr =>
    obtain ⟨h1, h2⟩ := Prod.mk.inj (Except.ok.inj h)
    exact .inr (.inr (.inr (.inr (.inr (.inr ⟨rfl, h1.symm, h2.symm⟩)))))

theorem decodePayload_isWire {c : WireCmd} {bytes : List Byte} {items rest : List Item} {i : Instr}
    (h : decodePayload c bytes items = .ok (i, rest)) : i.isWire = true := by
  rcases decodePayload_cases h with ⟨_, ⟨_, _, rfl⟩, _⟩ | ⟨_, ⟨_, _, rfl⟩, _⟩ | ⟨_, rfl, _⟩ | ⟨_, rfl, _⟩ |
    ⟨_, ⟨_, _, _, _, _, rfl⟩, _⟩ | ⟨_, ⟨_, _, _, _, _, rfl⟩, _⟩ | ⟨_, rfl, _⟩ <;> rfl

/-- The wire decoder gives wire instructions. -/
theorem decodeWire_isWire {items rest : List Item} {i : Instr} (h : decodeWire items = .ok (i, rest)) :
    i.isWire = true := by
  unfold decodeWire at h
  split at h
  · simp at h
  split at h
  · simp at h
  split at h
  · simp at h
  split at h
  · simp at h
  · exact decodePayload_isWire h

theorem whenUnused_ok {u : List Half} {i j : Instr} (h : whenUnused u i = .ok j) : j = i := by
  unfold whenUnused at h
  split at h <;> simp at h
  exact h.symm

/-- The host decoder gives host operations. -/
theorem decodeHost_isHost {bytes : List Byte} {i : Instr} (h : decodeHost bytes = .ok i) : i.isWire = false := by
  unfold decodeHost at h
  split at h
  · split at h
    · unfold decodeFields at h
      split at h
      · rw [whenUnused_ok h]; rfl
      split at h
      · rw [whenUnused_ok h]; rfl
      split at h
      · rw [whenUnused_ok h]; rfl
      split at h
      · rw [whenUnused_ok h]; rfl
      split at h
      · rw [whenUnused_ok h]; rfl
      split at h
      · simp at h; subst h; rfl
      · simp at h
    · split at h <;> simp at h
  · simp at h

/-- A host operation is INIT, TEARDOWN or a drawing operation (R71). -/
theorem host_cases {i : Instr} (h : i.isWire = false) : i = .init ∨ i = .teardown ∨ i.isDrawing = true := by
  cases i <;> simp_all [Instr.isWire, Instr.isDrawing]

/-- A step of an operation in progress is the head of its work list (R111). -/
theorem step_work {s : State} {w : Work} {rest : List Work} (h : s.work = w :: rest) :
    step s = execWork w { s with work := rest } := by
  simp only [step, fetch, h]

/-- Everything a step that answers a next state can have been. -/
theorem step_cases {s t : State} (h : step s = .next t) :
    (s.Between ∧ s.par.ok = true ∧ t = s) ∨
    (s.Between ∧ s.pc.toNat < 12 * s.progLen ∧ s.par.ok = true ∧
      ∃ op : Byte, t = RefusedWith s ⟨.illegalOp, op.toNat⟩) ∨
    (s.Between ∧ s.pc.toNat < 12 * s.progLen ∧ ∃ i, i.isWire = false ∧ exec i s = .next t) ∨
    (∃ i rest, s.work = [] ∧ s.stream ≠ [] ∧ i.isWire = true ∧ exec i { s with stream := rest } = .next t) ∨
    (∃ it rest, s.work = [] ∧ s.stream ≠ [] ∧ execRaw it { s with stream := rest } = .next t) ∨
    (∃ w rest, s.work = w :: rest ∧ execWork w { s with work := rest } = .next t) := by
  cases hw : s.work with
  | cons w rest => exact .inr (.inr (.inr (.inr (.inr ⟨w, rest, rfl, (step_work hw).symm.trans h⟩))))
  | nil =>
    unfold step fetch at h
    rw [hw] at h
    cases hs : s.stream with
    | cons it rest =>
      rw [hs] at h
      dsimp only at h
      cases hd : decodeWire (it :: rest) with
      | ok p =>
        obtain ⟨i, rest'⟩ := p
        rw [hd] at h
        exact .inr (.inr (.inr (.inl ⟨i, rest', rfl, by simp, decodeWire_isWire hd, h⟩)))
      | error e =>
        rw [hd] at h
        exact .inr (.inr (.inr (.inr (.inl ⟨it, rest, rfl, by simp, h⟩))))
    | nil =>
      rw [hs] at h
      dsimp only at h
      have hb : s.Between := ⟨hw, hs⟩
      by_cases hp : s.pc.toNat < 12 * s.progLen
      · simp only [Config.descLen, hp, if_true] at h
        cases hd : decodeHost s.descriptor with
        | ok i =>
          rw [hd] at h
          exact .inr (.inr (.inl ⟨hb, hp, i, decodeHost_isHost hd, h⟩))
        | error e =>
          rw [hd] at h
          have hok : s.par.ok = true := by
            cases hok : s.par.ok with
            | true => rfl
            | false => simp [execIllegal, configured, hok] at h
          simp only [execIllegal_eq _ hok] at h
          exact .inr (.inl ⟨hb, hp, hok, _, (Host.Outcome.next.inj h).symm⟩)
      · simp only [Config.descLen, hp, if_false] at h
        cases hok : s.par.ok with
        | true => exact .inl ⟨hb, rfl, by simpa [execIdle, configured, hok] using h.symm⟩
        | false => simp [execIdle, configured, hok] at h

/-! ## wire(TR) -/

/-- The symbols of an accepted work list. -/
def ftSyms (fts : List FT) : List WireSym := symsOf (fts.flatMap fun f => f.2.map fun b => ⟨f.1, b⟩)

theorem ftSyms_append (a b : List FT) : ftSyms (a ++ b) = ftSyms a ++ ftSyms b := by simp [ftSyms, symsOf]

/-- `wire` of a trace followed by events that begin with a write of the DC line. -/
theorem wireFrom_append_pin (lv : Option Level) (tr es : List Event) (v : Level) :
    wireFrom lv (tr ++ .pin .dc v :: es) = wireFrom lv tr ++ wireFrom (some v) es := by
  induction tr generalizing lv with
  | nil => simp [wireFrom]
  | cons e tr ih =>
    cases e with
    | pin l u => cases l <;> simp [wireFrom, ih]
    | xfer bytes r => cases r <;> cases lv <;> simp [wireFrom, ih]
    | openBus _ _ _ _ => simp [wireFrom, ih]
    | closeBus => simp [wireFrom, ih]
    | claim _ _ _ => simp [wireFrom, ih]
    | release _ => simp [wireFrom, ih]
    | delay _ => simp [wireFrom, ih]

/-- The level of the DC line after a trace, as `wire` follows it (R103). -/
def levelAfter : Option Level → List Event → Option Level
  | lv, [] => lv
  | _, .pin .dc v :: es => levelAfter (some v) es
  | lv, .pin .rst _ :: es => levelAfter lv es
  | lv, .pin .bl _ :: es => levelAfter lv es
  | lv, .xfer _ _ :: es => levelAfter lv es
  | lv, .openBus _ _ _ _ :: es => levelAfter lv es
  | lv, .closeBus :: es => levelAfter lv es
  | lv, .claim _ _ _ :: es => levelAfter lv es
  | lv, .release _ :: es => levelAfter lv es
  | lv, .delay _ :: es => levelAfter lv es

/-- `wire` of two traces, one after the other. -/
theorem wireFrom_append (lv : Option Level) (tr es : List Event) :
    wireFrom lv (tr ++ es) = wireFrom lv tr ++ wireFrom (levelAfter lv tr) es := by
  induction tr generalizing lv with
  | nil => rfl
  | cons e tr ih =>
    cases e with
    | pin l u => cases l <;> simp [wireFrom, levelAfter, ih]
    | xfer bytes r => cases r <;> cases lv <;> simp [wireFrom, levelAfter, ih]
    | openBus _ _ _ _ => simp [wireFrom, levelAfter, ih]
    | closeBus => simp [wireFrom, levelAfter, ih]
    | claim _ _ _ => simp [wireFrom, levelAfter, ih]
    | release _ => simp [wireFrom, levelAfter, ih]
    | delay _ => simp [wireFrom, levelAfter, ih]

theorem wireFrom_okEvents (lv : Option Level) (tr : List Event) (fts : List FT) :
    wireFrom lv (tr ++ okEvents fts) = wireFrom lv tr ++ ftSyms fts := by
  induction fts generalizing lv tr with
  | nil => simp [ftSyms, symsOf]
  | cons f fts ih =>
    have h1 : tr ++ okEvents (f :: fts) = (tr ++ ftEvents f .ok) ++ okEvents fts := by simp [okEvents]
    rw [h1, ih, ftEvents, wireFrom_append_pin]
    simp [wireFrom, ftSyms, symsOf]

/-- `wire(TR)` grows by the items of the accepted transfers (R103). -/
theorem wireOf_okEvents (tr : List Event) (fts : List FT) : wireOf (tr ++ okEvents fts) = wireOf tr ++ ftSyms fts :=
  wireFrom_okEvents none tr fts

/-- A rejected transfer is LOST (R103). -/
theorem wireOf_fail (tr : List Event) (f : FT) : wireOf (tr ++ ftEvents f .fail) = wireOf tr ++ [.lost] := by
  simp [wireOf, ftEvents, wireFrom_append_pin, wireFrom]

theorem ftSyms_cmd (c : WireCmd) : ftSyms (cmdWork c) = symsOf [⟨false, c.code⟩] := rfl

/-- Chunking is invisible on the wire (R58). -/
theorem ftSyms_data {m : Nat} (hm : 1 ≤ m) (bytes : List Byte) :
    ftSyms (dataWork m bytes) = symsOf (dataItems bytes) := by
  have : (dataWork m bytes).flatMap (fun f => f.2.map fun b => (⟨f.1, b⟩ : Item)) =
      dataItems (chunks m bytes).flatten := by
    simp only [dataWork, dataItems, List.map_flatten, List.flatMap_def, List.map_map]
    rfl
  simp only [ftSyms, this, chunks_flatten bytes hm]

/-- The items of a window program (R113). -/
theorem ftSyms_window {m : Nat} (hm : 1 ≤ m) (x0 x1 y0 y1 : Half) :
    ftSyms (windowWork m x0 x1 y0 y1) =
      symsOf [⟨false, 0x2A⟩, ⟨true, hi8 x0⟩, ⟨true, lo8 x0⟩, ⟨true, hi8 x1⟩, ⟨true, lo8 x1⟩,
        ⟨false, 0x2B⟩, ⟨true, hi8 y0⟩, ⟨true, lo8 y0⟩, ⟨true, hi8 y1⟩, ⟨true, lo8 y1⟩, ⟨false, 0x2C⟩] := by
  simp only [windowWork, ftSyms_append, ftSyms_cmd, ftSyms_data hm]
  rfl

theorem failEvents_eq {fts : List FT} {k : Nat} (h : k < fts.length) :
    failEvents fts k = okEvents (fts.take k) ++ ftEvents fts[k] .fail := by
  rw [failEvents, List.drop_eq_getElem_cons h]
  simp only [List.head?_cons, Option.toList_some, List.flatMap_cons, List.flatMap_nil, List.append_nil]

/-- `wire(TR)` after a work list broken off at transfer `k`: the items before it, then LOST. -/
theorem wireOf_failEvents (tr : List Event) {fts : List FT} {k : Nat} (h : k < fts.length) :
    wireOf (tr ++ failEvents fts k) = wireOf tr ++ ftSyms (fts.take k) ++ [.lost] := by
  rw [failEvents_eq h, ← List.append_assoc, wireOf_fail, wireOf_okEvents]

/-- The wire discipline over symbols that follow others. -/
theorem Phase.run_append (p : Phase) (a b : List WireSym) : Phase.run p (a ++ b) = (Phase.run p a).bind fun q => Phase.run q b := by
  induction a generalizing p with
  | nil => rfl
  | cons w a ih =>
    simp only [List.cons_append, Phase.run]
    cases p.next w with
    | none => rfl
    | some q => exact ih q

/-! ## What every step adds -/

/-- `t` is `s` after the events `evs`, which the receiver has seen, with the same inputs (R29, R56, R147). -/
def Grows (s t : State) (evs : List Event) : Prop :=
  t.tr = s.tr ++ evs ∧ t.rx = evs.foldl Receiver.observe s.rx ∧ SameInputs s t

theorem grows_refusedWith (s : State) (r : Report) : Grows s (RefusedWith s r) [] :=
  ⟨by simp [RefusedWith], rfl, rfl, rfl, rfl, rfl, rfl⟩

theorem grows_finished (s : State) (fts : List FT) (dp : Datapath) (gx : GlyphRegs) (ck : ChunkRegs) :
    Grows s (s.finished fts dp gx ck) (okEvents fts) := ⟨rfl, rfl, rfl, rfl, rfl, rfl, rfl⟩

theorem grows_broke (s : State) {fts : List FT} {k : Nat} (hk : k < fts.length) (dp : Datapath) (gx : GlyphRegs)
    (ck : ChunkRegs) : Grows s ((s.broke (fts.take k) fts[k]).withRegs dp gx ck) (failEvents fts k) := by
  rw [failEvents_eq hk]
  exact ⟨by simp [State.broke, State.sent, State.withRegs, State.raise, State.endOp, Status.fatal],
    by simp [State.broke, State.sent, State.withRegs, State.raise, State.endOp, Status.fatal], rfl, rfl, rfl, rfl, rfl⟩

theorem grows_stopped (s : State) {fts : List FT} {k : Nat} (hk : k < fts.length) (dp : Datapath) (gx : GlyphRegs)
    (ck : ChunkRegs) : Grows s (s.stopped (fts.take k) fts[k] dp gx ck) (failEvents fts k) :=
  grows_broke { s with xferIx := 0 } hk dp gx ck

theorem grows_wired (s : State) (fts : List FT) (ck : ChunkRegs) : Grows s (s.wired fts ck) (okEvents fts) := by
  unfold State.wired
  split <;> exact ⟨rfl, rfl, rfl, rfl, rfl, rfl, rfl⟩

/-- The framed transfers a step can set out to do. -/
inductive StepWork (s : State) : List FT → Prop where
  /-- A drawing operation. -/
  | drawing (i : Instr) (hi : i.isDrawing = true) (hl : s.lc = .ready) : StepWork s (drawWork s i)
  /-- A wire instruction. -/
  | wire (i : Instr) (hi : i.isWire = true) (hs : s.stream ≠ []) : StepWork s (wireWork s.par.chunkMax i)
  /-- A stray item. -/
  | stray (it : Item) (hs : s.stream ≠ []) : StepWork s [(it.dc, [it.byte])]
  /-- The head of the work list of an operation in progress. -/
  | head (v : Level) (bytes : List Byte) (hw : .ft v bytes ∈ s.work) : StepWork s [(v, bytes)]

/-- The events a step can add. -/
inductive StepEvents (s : State) : List Event → Prop where
  /-- Nothing: idle, or refused. -/
  | none : StepEvents s []
  /-- Framed transfers, all accepted. -/
  | ok (fts : List FT) (h : StepWork s fts) : StepEvents s (okEvents fts)
  /-- Framed transfers, broken off. -/
  | fail (fts : List FT) (k : Nat) (hk : k < fts.length) (h : StepWork s fts) : StepEvents s (failEvents fts k)
  /-- A `Pin` event of an INIT in progress. -/
  | pin (l : Line) (v : Level) (hw : .pin l v ∈ s.work) : StepEvents s [.pin l v]
  /-- A `Delay` event of an INIT in progress. -/
  | delay (ms : Nat) (hw : .delay ms ∈ s.work) : StepEvents s [.delay ms]
  /-- INIT, done. -/
  | init (h : s.lc = .uninitialized) : StepEvents s (initEvents s.par)
  /-- INIT, a resource refused. -/
  | initRefused (h : s.lc = .uninitialized) (k : Nat) (hk : k < 4) :
      StepEvents s ((acquireEvents s.par .ok).take k ++ ((acquireEvents s.par .fail).drop k).take 1)
  /-- INIT, a transfer rejected. -/
  | initBroke (h : s.lc = .uninitialized) (k : Nat) (hk : k < 6) : StepEvents s (initFailEvents s.par k)
  /-- TEARDOWN. -/
  | release : StepEvents s (releaseEvents s.par.releaseOrder s.claimed)

/-- Everything a step adds to the trace, and that the receiver sees it. -/
theorem step_grows {s t : State} (h : step s = .next t) : ∃ evs, StepEvents s evs ∧ Grows s t evs := by
  rcases step_cases h with ⟨-, -, rfl⟩ | ⟨-, -, -, op, rfl⟩ | ⟨-, -, i, hi, he⟩ | ⟨i, rest, -, hs, hi, he⟩ |
    ⟨it, rest, -, hs, he⟩ | ⟨w, rest, hw, he⟩
  · exact ⟨[], .none, by simp, rfl, rfl, rfl, rfl, rfl, rfl⟩
  · exact ⟨[], .none, grows_refusedWith _ _⟩
  · rcases host_cases hi with rfl | rfl | hd
    · obtain ⟨-, ⟨-, rfl⟩ | ⟨hl, -, ck, rfl⟩ | ⟨hl, k, hk, -, rfl⟩ | ⟨hl, k, hk, -, ck, rfl⟩⟩ := exec_init_cases he
      · exact ⟨[], .none, grows_refusedWith _ _⟩
      · exact ⟨_, .init hl, rfl, rfl, rfl, rfl, rfl, rfl, rfl⟩
      · exact ⟨_, .initRefused hl k hk, rfl, rfl, rfl, rfl, rfl, rfl, rfl⟩
      · exact ⟨_, .initBroke hl k hk, rfl, rfl, rfl, rfl, rfl, rfl, rfl⟩
    · obtain rfl := Host.Outcome.next.inj ((exec_teardown (exec_ok he)).symm.trans he)
      exact ⟨_, .release, rfl, rfl, rfl, rfl, rfl, rfl, rfl⟩
    · obtain ⟨-, ⟨-, rfl⟩ | ⟨hl, -, dp, gx, ck, rfl, -⟩ | ⟨hl, k, hk, -, dp, gx, ck, rfl, -⟩⟩ := exec_drawing_cases hd he
      · exact ⟨[], .none, grows_refusedWith _ _⟩
      · exact ⟨_, .ok _ (.drawing i hd hl), grows_finished _ _ _ _ _⟩
      · exact ⟨_, .fail _ k hk (.drawing i hd hl), grows_stopped _ hk _ _ _⟩
  · obtain ⟨-, ⟨-, ck, rfl⟩ | ⟨k, hk, -, ck, rfl⟩⟩ := exec_wire_cases hi he
    · exact ⟨_, .ok _ (.wire i hi hs), grows_wired { s with stream := rest } _ _⟩
    · exact ⟨_, .fail _ k hk (.wire i hi hs), grows_broke { s with stream := rest } hk _ _ _⟩
  · obtain ⟨-, ⟨-, ck, rfl⟩ | ⟨-, ck, rfl⟩⟩ := execRaw_cases he
    · exact ⟨_, .ok _ (.stray it hs), grows_wired { s with stream := rest } _ _⟩
    · exact ⟨_, .fail [(it.dc, [it.byte])] 0 (by simp) (.stray it hs),
        grows_broke { s with stream := rest } (fts := [(it.dc, [it.byte])]) (k := 0) (by simp) _ _ _⟩
  · have hm : w ∈ s.work := by simp [hw]
    obtain ⟨-, ⟨v, bytes, rfl, ⟨-, ck, rfl⟩ | ⟨-, ck, rfl⟩⟩ | ⟨l, v, rfl, rfl⟩ | ⟨ms, rfl, rfl⟩ | ⟨n, rfl, rfl⟩ |
      ⟨q, addr, len, rfl, rfl⟩ | ⟨rfl, rfl⟩ | ⟨rfl, rfl⟩⟩ := execWork_cases he
    · exact ⟨_, .ok _ (.head v bytes hm), rfl, rfl, rfl, rfl, rfl, rfl, rfl⟩
    · exact ⟨_, .fail [(v, bytes)] 0 (by simp) (.head v bytes hm),
        grows_broke { s with work := rest } (fts := [(v, bytes)]) (k := 0) (by simp) s.dp s.gx ck⟩
    · exact ⟨_, .pin l v hm, rfl, rfl, rfl, rfl, rfl, rfl, rfl⟩
    · exact ⟨_, .delay ms hm, rfl, rfl, rfl, rfl, rfl, rfl, rfl⟩
    · exact ⟨[], .none, (List.append_nil _).symm, rfl, rfl, rfl, rfl, rfl, rfl⟩
    · obtain ⟨dp, gx, ws, e⟩ := State.expand_eq { s with work := rest } q addr len
      rw [e]
      exact ⟨[], .none, (List.append_nil _).symm, rfl, rfl, rfl, rfl, rfl, rfl⟩
    · exact ⟨[], .none, (List.append_nil _).symm, rfl, rfl, rfl, rfl, rfl, rfl⟩
    · exact ⟨[], .none, (List.append_nil _).symm, rfl, rfl, rfl, rfl, rfl, rfl⟩

/-- No step runs under a configuration that breaks rule R7. -/
theorem step_ok {s t : State} (h : step s = .next t) : s.par.ok = true := by
  rcases step_cases h with ⟨-, hok, -⟩ | ⟨-, -, hok, -, -⟩ | ⟨-, -, i, -, he⟩ | ⟨i, rest, -, -, -, he⟩ |
    ⟨it, rest, -, -, he⟩ | ⟨w, rest, -, he⟩
  · exact hok
  · exact hok
  · exact exec_ok he
  · exact exec_ok (s := { s with stream := rest }) he
  · exact (execRaw_cases he).1
  · exact (execWork_cases he).1

/-- A host operation advances `pc` by one descriptor and leaves nothing to do (R21). -/
theorem exec_host_pc {s t : State} {i : Instr} (hi : i.isWire = false) (h : exec i s = .next t) :
    t.pc = s.pc + 12 ∧ t.Between := by
  rcases host_cases hi with rfl | rfl | hd
  · obtain ⟨-, ⟨-, rfl⟩ | ⟨-, -, ck, rfl⟩ | ⟨-, k, -, -, rfl⟩ | ⟨-, k, -, -, ck, rfl⟩⟩ := exec_init_cases h <;>
      exact ⟨rfl, rfl, rfl⟩
  · obtain rfl := Host.Outcome.next.inj ((exec_teardown (exec_ok h)).symm.trans h)
    exact ⟨rfl, rfl, rfl⟩
  · obtain ⟨-, ⟨-, rfl⟩ | ⟨-, -, dp, gx, ck, rfl, -⟩ | ⟨-, k, -, -, dp, gx, ck, rfl, -⟩⟩ := exec_drawing_cases hd h <;>
      exact ⟨rfl, rfl, rfl⟩

/-- From a state between operations a step ends between operations (R12). -/
theorem step_between {s t : State} (hb : s.Between) (h : step s = .next t) : t.Between := by
  rcases step_cases h with ⟨-, -, rfl⟩ | ⟨-, -, -, op, rfl⟩ | ⟨-, -, i, hi, he⟩ | ⟨i, rest, -, hs, -⟩ | ⟨it, rest, -, hs, -⟩ |
    ⟨w, rest, hw, -⟩
  · exact hb
  · exact ⟨rfl, rfl⟩
  · exact (exec_host_pc hi he).2
  · exact absurd hb.2 hs
  · exact absurd hb.2 hs
  · rw [hb.1] at hw
    simp at hw

/-- The elements of a DATA are what the engine puts into a work list (R101). -/
theorem dataElems_ok {m : Nat} (hm : 1 ≤ m) (bytes : List Byte) : ∀ w ∈ dataElems m bytes, w.ok m := by
  intro w hw
  simp only [dataElems, List.mem_cons, List.mem_map] at hw
  obtain rfl | ⟨ch, hch, rfl⟩ := hw
  · trivial
  · have := chunks_bound hm hch
    exact ⟨this.1, this.2, by simp⟩

theorem cmdElems_ok {m : Nat} (hm : 1 ≤ m) (c : WireCmd) : ∀ w ∈ cmdElems c, w.ok m := by
  intro w hw
  obtain rfl := List.mem_singleton.mp hw
  exact ⟨by simp, by simpa using hm, by simp⟩

/-- The elements of a window program and its pixel stream are what the engine puts into a work list (R124). -/
theorem streamElems_ok {m : Nat} (hm : 1 ≤ m) (x0 x1 y0 y1 : Half) (bytes : List Byte) :
    ∀ w ∈ streamElems m x0 x1 y0 y1 bytes, w.ok m := by
  intro w hw
  simp only [streamElems, windowElems, payloadElems, List.mem_append] at hw
  obtain (((hw | hw) | hw | hw) | hw) | hw := hw
  · exact cmdElems_ok hm _ w hw
  · exact dataElems_ok hm _ w hw
  · exact cmdElems_ok hm _ w hw
  · exact dataElems_ok hm _ w hw
  · exact cmdElems_ok hm _ w hw
  · exact dataElems_ok hm _ w hw

/-- What the glyph expander puts before what is left is what the engine puts into a work list (R146). -/
theorem expand_work {s : State} (hm : 1 ≤ s.par.chunkMax) (q : TextPhase) (addr len : Half) :
    ∃ ws, (s.expand q addr len).work = ws ++ s.work ∧ ∀ w ∈ ws, w.ok s.par.chunkMax := by
  have one (q : TextPhase) : ∀ w ∈ [Work.text q addr len], w.ok s.par.chunkMax := by
    intro w hw
    obtain rfl := List.mem_singleton.mp hw
    trivial
  have hb : ∃ ws, (s.afterBit addr len).work = ws ++ s.work ∧ ∀ w ∈ ws, w.ok s.par.chunkMax := by
    unfold State.afterBit
    split
    · exact ⟨_, rfl, one _⟩
    · split <;> exact ⟨_, rfl, one _⟩
  cases q with
  | fetch =>
    simp only [State.expand, State.fetchChar]
    split
    · exact ⟨[], rfl, by simp⟩
    · split <;> exact ⟨_, rfl, one _⟩
  | row => exact ⟨_, rfl, one _⟩
  | bit =>
    simp only [State.expand, State.testBit]
    split
    · refine ⟨_, rfl, fun w hw => ?_⟩
      rcases List.mem_append.mp hw with hw | hw
      · exact streamElems_ok hm _ _ _ _ _ w hw
      · exact one _ w hw
    · exact hb
  | pixelDone => exact hb
  | adv =>
    simp only [State.expand, State.advanceCursor]
    split <;> exact ⟨_, rfl, one _⟩

/-- A small step leaves the tail of the work list, with the glyph expander's own elements before it, or nothing where it ends the
operation. -/
theorem step_work_rest {s t : State} {w : Work} {rest : List Work} (hw : s.work = w :: rest) (h : step s = .next t) :
    t.work = [] ∨ ∃ ws, t.work = ws ++ rest ∧ (1 ≤ s.par.chunkMax → ∀ w ∈ ws, w.ok s.par.chunkMax) := by
  rw [step_work hw] at h
  have tail : ∃ ws, rest = ws ++ rest ∧ (1 ≤ s.par.chunkMax → ∀ w ∈ ws, w.ok s.par.chunkMax) := ⟨[], rfl, by simp⟩
  obtain ⟨-, ⟨v, bytes, rfl, ⟨-, ck, rfl⟩ | ⟨-, ck, rfl⟩⟩ | ⟨l, v, rfl, rfl⟩ | ⟨ms, rfl, rfl⟩ | ⟨n, rfl, rfl⟩ |
    ⟨q, addr, len, rfl, rfl⟩ | ⟨rfl, rfl⟩ | ⟨rfl, rfl⟩⟩ := execWork_cases h
  · exact .inr tail
  · exact .inl rfl
  · exact .inr tail
  · exact .inr tail
  · exact .inr tail
  · obtain ⟨dp, gx, ws, e⟩ := State.expand_eq { s with work := rest } q addr len
    refine .inr ⟨ws, by rw [e]; rfl, fun hm => ?_⟩
    obtain ⟨ws', e', hok⟩ := expand_work (s := { s with work := rest }) hm q addr len
    rw [e] at e'
    obtain rfl : ws = ws' := List.append_cancel_right e'
    exact hok
  · exact .inr tail
  · exact .inl rfl

/-- A work list broken off leaves the receiver in Desync (R168). -/
theorem desync_failEvents (r : Receiver) {fts : List FT} {k : Nat} (h : k < fts.length) :
    ((failEvents fts k).foldl Receiver.observe r).desync = true := by
  rw [failEvents_eq h, List.foldl_append]
  rfl

/-- An INIT broken off leaves the receiver in Desync (R168). -/
theorem desync_initFailEvents (r : Receiver) (p : Params) (k : Nat) :
    ((initFailEvents p k).foldl Receiver.observe r).desync = true := by
  rw [initFailEvents, List.foldl_append]
  split
  · exact desync_failEvents _ (by simpa [configWork] using ‹k < 5›)
  · rw [List.foldl_append]
    rfl

/-- The releases reach the receiver with the same effect in every order (R90). -/
theorem observe_release_comm (r : Receiver) (a b : Resource) :
    (r.observe (releaseEvent a)).observe (releaseEvent b) = (r.observe (releaseEvent b)).observe (releaseEvent a) := by
  cases a <;> cases b <;> rfl

theorem observes_release_perm (r : Receiver) {a b : List Resource} (h : a.Perm b) (c : Claimed) :
    (releaseEvents a c).foldl Receiver.observe r = (releaseEvents b c).foldl Receiver.observe r := by
  simp only [releaseEvents, List.foldl_map]
  exact (h.filter _).foldl_eq' (fun x _ y _ z => observe_release_comm z x y) r

end Sys2Proof.Machine
end

