-- ==== Sys2Proof/Laws/Encoding.lean ====
section
/-! SUPPORT. The laws of the byte order and of the decoders' parts: halves and their bytes, runs of data items, pixel streams,
descriptors. -/

namespace Sys2Proof.Machine

/-- The two bytes of a 16-bit value put together from two bytes (R42, R64). -/
theorem half_of_bytes (a b : Byte) : hi8 (be16 a b) = a ∧ lo8 (be16 a b) = b := by
  have h : ∀ j, (be16 a b).getLsbD j = if j < 8 then b.getLsbD j else a.getLsbD (j - 8) :=
    fun j => BitVec.getLsbD_append
  constructor <;> apply BitVec.eq_of_getLsbD_eq <;> intro j hj
  · simp only [hi8, BitVec.getLsbD_extractLsb', h]
    have : ¬8 + j < 8 := by omega
    simp [hj, this]
  · simp only [lo8, BitVec.getLsbD_extractLsb', h, Nat.zero_add]
    simp [hj]

/-- Data items are taken back as the bytes they carry (R60). -/
theorem takeData_dataItems (bs : List Byte) (rest : List Item) :
    takeData bs.length (dataItems bs ++ rest) = some (bs, rest) := by
  induction bs with
  | nil => rfl
  | cons b bs ih =>
    simp only [dataItems] at ih
    simp [dataItems, takeData, ih]

/-- What `takeData` takes is data items. -/
theorem takeData_some {n : Nat} {items rest : List Item} {bs : List Byte} (h : takeData n items = some (bs, rest)) :
    items = dataItems bs ++ rest ∧ bs.length = n := by
  induction n generalizing items bs rest with
  | zero =>
    simp only [takeData, Option.some.injEq, Prod.mk.injEq] at h
    obtain ⟨rfl, rfl⟩ := h
    exact ⟨rfl, rfl⟩
  | succ n ih =>
    cases items with
    | nil => simp [takeData] at h
    | cons it items =>
      simp only [takeData] at h
      split at h
      · rename_i hdc
        cases ht : takeData n items with
        | none =>
          rw [ht] at h
          simp at h
        | some p =>
          rw [ht] at h
          simp only [Option.map_some, Option.some.injEq, Prod.mk.injEq] at h
          obtain ⟨rfl, rfl⟩ := h
          obtain ⟨h1, h2⟩ := ih ht
          refine ⟨?_, by simp [h2]⟩
          conv_lhs => rw [h1]
          rcases it with ⟨d, b⟩
          simp only at hdc
          subst hdc
          rfl
      · simp at h

/-- A pixel stream is read back (R65). -/
theorem takePixels_dataItems (cs : List Half) {n : Nat} (h : cs.length ≤ n) :
    takePixels n (dataItems (pixelBytes cs)) = (cs, []) := by
  induction cs generalizing n with
  | nil => simp [pixelBytes, dataItems, takePixels]
  | cons c cs ih =>
    have hn : n ≠ 0 := by simp at h; omega
    have := ih (n := n - 1) (by simp at h; omega)
    simp only [dataItems] at this
    simp [pixelBytes, bytes16, dataItems] at this ⊢
    simp [takePixels, hn, this, be16_bytes]

/-- What `takePixels` takes is a pixel stream. -/
theorem takePixels_eq (n : Nat) (items : List Item) :
    items = dataItems (pixelBytes (takePixels n items).1) ++ (takePixels n items).2 := by
  induction n, items using takePixels.induct with
  | case1 n h l rest hc ih =>
    simp only [takePixels]
    rw [if_pos hc]
    rcases h with ⟨hd, hb⟩
    rcases l with ⟨ld, lb⟩
    obtain ⟨-, h1, h2⟩ := hc
    simp only at h1 h2
    subst h1
    subst h2
    conv_lhs => rw [ih]
    simp [pixelBytes, bytes16, half_of_bytes, dataItems]
  | case2 n h l rest hc =>
    simp only [takePixels]
    rw [if_neg hc]
    rfl
  | case3 n it => rfl
  | case4 n => rfl

/-- A code that is a command is that command's code (R62). -/
theorem WireCmd.ofCode_some {b : Byte} {c : WireCmd} (h : WireCmd.ofCode b = some c) : b = c.code := by
  unfold WireCmd.ofCode at h
  split at h
  · cases h; assumption
  split at h
  · cases h; assumption
  split at h
  · cases h; assumption
  split at h
  · cases h; assumption
  split at h
  · cases h; assumption
  split at h
  · cases h; assumption
  split at h
  · cases h; assumption
  simp at h

/-- A command item and as many data items as its code fixes. -/
theorem decodeWire_wireCode (c : WireCmd) (bs : List Byte) (rest : List Item) (h : bs.length = c.payload) :
    decodeWire (wireCode c bs ++ rest) = decodePayload c bs rest := by
  simp only [wireCode, List.cons_append, decodeWire, Bool.false_eq_true, if_false, WireCmd.ofCode_code]
  rw [← h, takeData_dataItems]

/-- A descriptor is read field by field (R69). -/
theorem decodeHost_descriptorOf (op : Byte) (a b c d e : Half) :
    decodeHost (descriptorOf op a b c d e) = decodeFields op a b c d e := by
  simp [descriptorOf, decodeHost, be16_bytes]

theorem whenUnused_some {u : List Half} {i j : Instr} (h : whenUnused u i = .ok j) : j = i ∧ ∀ v ∈ u, v = 0 := by
  unfold whenUnused at h
  split at h
  · rename_i hu
    exact ⟨(Except.ok.inj h).symm, fun v hv => by simpa using List.all_eq_true.mp hu v hv⟩
  · simp at h

end Sys2Proof.Machine
end

