-- ==== Sys2Proof/Laws/PerInstr.lean ====
section
/-! SUPPORT. The statements made per instruction: the shape of its encoding. -/

namespace Sys2Proof.Laws.EncodingShape

/-- The encoding of an instruction has the shape of its space: a host operation is 12 bytes whose second is zero (R68, R69), a
wire instruction one command item with its code, then data items, as many as the code fixes where it fixes them (R60, R66). -/
def Statement (i : Instr) : Prop :=
  match encode i with
  | .host bytes => i.isWire = false ∧ bytes.length = 12 ∧ bytes[1]? = some 0
  | .wire items => i.isWire = true ∧ ∃ c bytes, items = ⟨false, WireCmd.code c⟩ :: dataItems bytes ∧
      (c ≠ .memwr → bytes.length = c.payload)

theorem wPixfmt (p : Byte) : Statement (.wPixfmt p) := ⟨rfl, .pixfmt, [p], rfl, fun _ => rfl⟩

theorem wMemctl (p : Byte) : Statement (.wMemctl p) := ⟨rfl, .memctl, [p], rfl, fun _ => rfl⟩

theorem wSlpout : Statement .wSlpout := ⟨rfl, .slpout, [], rfl, fun _ => rfl⟩

theorem wDispon : Statement .wDispon := ⟨rfl, .dispon, [], rfl, fun _ => rfl⟩

theorem wColset (a b : Half) : Statement (.wColset a b) := ⟨rfl, .colset, bytes16 a ++ bytes16 b, rfl, fun _ => rfl⟩

theorem wRowset (a b : Half) : Statement (.wRowset a b) := ⟨rfl, .rowset, bytes16 a ++ bytes16 b, rfl, fun _ => rfl⟩

theorem wMemwr (cs : List Half) : Statement (.wMemwr cs) := ⟨rfl, .memwr, pixelBytes cs, rfl, fun h => absurd rfl h⟩

theorem init : Statement .init := ⟨rfl, rfl, rfl⟩

theorem teardown : Statement .teardown := ⟨rfl, rfl, rfl⟩

theorem setwin (x0 x1 y0 y1 : Half) : Statement (.setwin x0 x1 y0 y1) := ⟨rfl, rfl, rfl⟩

theorem drawpixel (x y color : Half) : Statement (.drawpixel x y color) := ⟨rfl, rfl, rfl⟩

theorem fillscreen (color : Half) : Statement (.fillscreen color) := ⟨rfl, rfl, rfl⟩

theorem drawtext (x y color addr len : Half) : Statement (.drawtext x y color addr len) := ⟨rfl, rfl, rfl⟩

end Sys2Proof.Laws.EncodingShape
end

