-- ==== Sys2Proof/Laws/SmallStep.lean ====
section
/-! SUPPORT. The small-step form and the whole operation agree (R12, R111, R124, R146): an operation started and its work list taken
one framed transfer or control state at a time ends in exactly the state the operation ends in in one step, every register
included. -/

namespace Sys2Proof.Machine

theorem steps_add {m n : Nat} {s t : State} {r : Host.Outcome State Fault Refusal} (h1 : steps m s = .next t)
    (h2 : steps n t = r) : steps (m + n) s = r := by
  induction m generalizing s with
  | zero =>
    obtain rfl := Host.Outcome.next.inj h1
    simpa using h2
  | succ m ih =>
    rw [Nat.succ_add]
    simp only [steps] at h1 ⊢
    cases hs : step s with
    | next u =>
      rw [hs] at h1
      exact ih h1
    | fault f => rw [hs] at h1; simp at h1
    | refused r => rw [hs] at h1; simp at h1

theorem steps_one (s : State) : steps 1 s = step s := by
  simp only [steps]
  cases step s <;> rfl

/-- What an operation that goes on has done, as `Performs` says it. -/
theorem Performs.go {f : State → Flow} {s t : State} {fts : List FT} {dp : Datapath} {gx : GlyphRegs}
    (h : Performs f s fts dp gx) (e : f s = .go t) : ∃ ck, t = (s.sent fts).withRegs dp gx ck := by
  rcases answers_cases s fts.length with ha | ⟨k, hk, hf⟩
  · obtain ⟨ck, e'⟩ := h.1 ha
    exact ⟨ck, Flow.go.inj (e.symm.trans e')⟩
  · obtain ⟨ck, e'⟩ := h.2 k hk hf
    rw [e] at e'
    simp at e'

/-- The state with this work list. -/
def State.over (s : State) (ws : List Work) : State := { s with work := ws }

/-- A step of an operation in progress is the head of its work list, over the tail. -/
theorem step_over {s : State} (hok : s.par.ok = true) (w : Work) (rest : List Work) :
    step (s.over (w :: rest)) = .next ((s.over rest).runWork w).state :=
  (step_work (s := s.over (w :: rest)) rfl).trans (execWork_eq (s := s.over rest) hok w)

/-- Small steps from `s` with the work list `ws` do what the flow `f` says: where it goes on in a state `t`, which meets `Q`, they
reach `t` with `ws` worked off and `k` done; where it has ended, they reach its end. -/
def Runs (ws : List Work) (f : Flow) (s : State) (k : State → State) (Q : State → Prop) : Prop :=
  ∀ rest,
    (∀ t, f = .go t → Q t ∧ ∃ n, steps n (s.over (ws ++ rest)) = .next (k (t.over rest))) ∧
    (∀ t, f = .ended t → ∃ n, steps n (s.over (ws ++ rest)) = .next t)

theorem Runs.mono {ws : List Work} {f : Flow} {s : State} {k : State → State} {Q R : State → Prop} (h : Runs ws f s k Q)
    (hq : ∀ t, Q t → R t) : Runs ws f s k R :=
  fun rest => ⟨fun t e => ⟨hq t ((h rest).1 t e).1, ((h rest).1 t e).2⟩, (h rest).2⟩

/-- What is done at the end, written otherwise. -/
theorem Runs.cont {ws : List Work} {f : Flow} {s : State} {k l : State → State} {Q : State → Prop} (h : Runs ws f s k Q)
    (hk : ∀ t, Q t → ∀ rest, k (t.over rest) = l (t.over rest)) : Runs ws f s l Q := by
  refine fun rest => ⟨fun t e => ?_, (h rest).2⟩
  obtain ⟨hq, n, hn⟩ := (h rest).1 t e
  exact ⟨hq, n, hk t hq rest ▸ hn⟩

/-- Sequencing: what `k` leaves is where `g` starts. -/
theorem Runs.bind {a b : List Work} {f : Flow} {g : State → Flow} {s : State} {k l : State → State} {Q R : State → Prop}
    (hf : Runs a f s k Q)
    (hg : ∀ t, Q t → ∃ u, (∀ rest, k (t.over rest) = u.over (b ++ rest)) ∧ Runs b (g t) u l R) :
    Runs a (f.bind g) s l R := by
  intro rest
  cases f with
  | ended t => exact ⟨fun u e => by simp at e, fun u e => (hf rest).2 u e⟩
  | go t =>
    obtain ⟨hq, n, hn⟩ := (hf rest).1 t rfl
    obtain ⟨u, hk, hr⟩ := hg t hq
    rw [hk] at hn
    refine ⟨fun v e => ?_, fun v e => ?_⟩
    · obtain ⟨hv, m, hm⟩ := (hr rest).1 v e
      exact ⟨hv, n + m, steps_add hn hm⟩
    · obtain ⟨m, hm⟩ := (hr rest).2 v e
      exact ⟨n + m, steps_add hn hm⟩

/-- Sequencing two pieces, each worked off. -/
theorem Runs.append {a b : List Work} {f : Flow} {g : State → Flow} {s : State} {k : State → State} {Q R : State → Prop}
    (hf : Runs a f s id Q) (hg : ∀ t, Q t → Runs b (g t) t k R) : Runs (a ++ b) (f.bind g) s k R := by
  have hf' : Runs (a ++ b) f s (fun t => t.pushWork b) Q := fun rest => by
    have := hf (b ++ rest)
    rw [← List.append_assoc] at this
    exact this
  exact hf'.bind fun t hq => ⟨t, fun rest => rfl, hg t hq⟩

/-- One small step, with what it does whatever the work behind it is. -/
theorem runs_one {s : State} (hok : s.par.ok = true) (w : Work) (f : Flow) {k : State → State} {Q : State → Prop}
    (h : ∀ rest, (State.runWork (s.over rest) w).state = match f with
      | .go t => k (t.over rest)
      | .ended t => t)
    (hq : ∀ t, f = .go t → Q t) : Runs [w] f s k Q := by
  intro rest
  have hs : steps 1 (s.over ([w] ++ rest)) = .next (State.runWork (s.over rest) w).state := by
    rw [steps_one]
    exact step_over hok w rest
  rw [h rest] at hs
  refine ⟨fun t e => ⟨hq t e, 1, ?_⟩, fun t e => ⟨1, ?_⟩⟩ <;> rw [hs, e]

/-! ## The framing engine (R111) and the window machine (R124) -/

/-- A framed transfer does not look at the work behind it. -/
theorem State.framed_withWork (s : State) (v : Level) (bytes : List Byte) (rest : List Work) :
    State.framed (s.over rest) v bytes = match s.framed v bytes with
      | .go t => .go (t.over rest)
      | .ended t => .ended t := by
  cases hr : s.responseAt 0 with
  | ok => rw [State.framed_ok v bytes hr, State.framed_ok (s := (s.over rest)) v bytes hr]; rfl
  | fail => rw [State.framed_fail v bytes hr, State.framed_fail (s := (s.over rest)) v bytes hr]; rfl

/-- The parameters stay (R29). -/
abbrev State.ParOf (s : State) : State → Prop := fun t => t.par = s.par

/-- Sequencing, where the work list of the second piece depends on the parameters alone. -/
theorem Runs.also {a : List Work} (b : Params → List Work) {f : Flow} {g : State → Flow} {s : State}
    (hf : Runs a f s id s.ParOf) (hok : s.par.ok = true)
    (hg : ∀ t : State, t.par.ok = true → Runs (b t.par) (g t) t id t.ParOf) : Runs (a ++ b s.par) (f.bind g) s id s.ParOf :=
  hf.append fun t ht => by
    have := hg t (ht ▸ hok)
    rw [ht] at this
    exact this.mono fun u hu => hu.trans ht

theorem runs_command {s : State} (hok : s.par.ok = true) (c : WireCmd) :
    Runs (cmdElems c) (s.command c) s id s.ParOf := by
  refine runs_one hok _ _ (fun rest => ?_) fun t e => ?_
  · rw [State.runWork, State.framed_withWork]
    show Flow.state _ = match s.framed false [c.code] with | .go t => id (t.over rest) | .ended t => t
    cases s.framed false [c.code] <;> rfl
  · obtain ⟨ck, rfl⟩ := (performs_command c s).go e
    rfl

theorem runs_chunk {s : State} (hok : s.par.ok = true) (ch : List Byte) :
    Runs [.ft true ch] (s.sendChunk ch) s id s.ParOf := by
  refine runs_one hok _ _ (fun rest => ?_) fun t e => ?_
  · have h := State.framed_withWork (s.loadChunk ch.length) true ch rest
    show Flow.state ((((s.loadChunk ch.length).over rest).framed true ch).bind fun t => .go (t.countChunk ch.length)) = _
    rw [h, State.sendChunk]
    cases (s.loadChunk ch.length).framed true ch <;> rfl
  · obtain ⟨ck, rfl⟩ := (performs_sendChunk ch s).go e
    rfl

theorem runs_chunks (chs : List (List Byte)) {s : State} (hok : s.par.ok = true) :
    Runs (chs.map (.ft true)) (sendChunks chs s) s id s.ParOf := by
  induction chs generalizing s with
  | nil => exact fun rest => ⟨fun t e => by obtain rfl := Flow.go.inj e; exact ⟨rfl, 0, rfl⟩, fun t e => by simp [sendChunks, forEach] at e⟩
  | cons ch chs ih => exact (runs_chunk hok ch).also (fun _ => chs.map (.ft true)) hok fun t => ih

/-- DATA (R94). -/
theorem runs_data {s : State} (hok : s.par.ok = true) (bytes : List Byte) :
    Runs (dataElems s.par.chunkMax bytes) (s.data bytes) s id s.ParOf :=
  Runs.also (a := [.load bytes.length]) (fun _ => (chunks s.par.chunkMax bytes).map (.ft true))
    (f := .go (s.loadStream bytes.length)) (g := sendChunks (chunks s.par.chunkMax bytes))
    (runs_one hok _ _ (fun _ => rfl) fun t e => by obtain rfl := Flow.go.inj e; rfl) hok
    fun t ht => runs_chunks _ ht

theorem runs_payload {s : State} (hok : s.par.ok = true) (c : WireCmd) (payload : List Byte) :
    Runs (payloadElems s.par.chunkMax c payload) (sendPayload c payload s) s id s.ParOf :=
  (runs_command hok c).also (fun p => dataElems p.chunkMax payload) hok fun _ ht => runs_data ht payload

/-- The window machine from `W_COL_C` to `W_WR_C`, the window registers being loaded (R113, R124). -/
theorem runs_window {s : State} (hok : s.par.ok = true) (x0 x1 y0 y1 : Half) :
    Runs (windowElems s.par.chunkMax x0 x1 y0 y1) (sendWindow x0 x1 y0 y1 s) (s.loadWindow x0 x1 y0 y1) id s.ParOf :=
  ((runs_payload (s := s.loadWindow x0 x1 y0 y1) hok .colset (rangePayload x0 x1)).also
    (fun p => payloadElems p.chunkMax .rowset (rangePayload y0 y1)) hok fun _ ht => runs_payload ht .rowset _).also
    (fun _ => cmdElems .memwr) hok fun _ ht => runs_command ht .memwr

/-- The window machine through `PIX_D` (R124). -/
theorem runs_stream {s : State} (hok : s.par.ok = true) (x0 x1 y0 y1 : Half) (pixels : List Byte) :
    Runs (streamElems s.par.chunkMax x0 x1 y0 y1 pixels) ((sendWindow x0 x1 y0 y1 s).bind (State.data pixels))
      (s.loadWindow x0 x1 y0 y1) id s.ParOf :=
  Runs.also (s := s.loadWindow x0 x1 y0 y1) (fun p => dataElems p.chunkMax pixels) (runs_window hok x0 x1 y0 y1) hok
    fun _ ht => runs_data ht pixels

/-! ## The glyph expander (R146) -/

/-- What the expander works with and does not change within a character. -/
structure Kept (s t : State) : Prop where
  par : t.par = s.par
  text : t.text = s.text
  glyph : t.glyph = s.glyph
  color : t.dp.color = s.dp.color
  ch : t.gx.ch = s.gx.ch
  ci : t.gx.ci = s.gx.ci

theorem Kept.refl (s : State) : Kept s s := ⟨rfl, rfl, rfl, rfl, rfl, rfl⟩

theorem Kept.trans {s t u : State} (h : Kept s t) (h' : Kept t u) : Kept s u :=
  ⟨h'.par.trans h.par, h'.text.trans h.text, h'.glyph.trans h.glyph, h'.color.trans h.color, h'.ch.trans h.ch, h'.ci.trans h.ci⟩

/-- Within a row. -/
def KeptRow (s t : State) : Prop := Kept s t ∧ t.gx.gr = s.gx.gr

theorem State.afterBit_col {s : State} (addr len : Half) (h : s.gx.gc < 7) :
    s.afterBit addr len = (s.setGc (s.gx.gc + 1)).pushWork [.text .bit addr len] := if_pos h

theorem State.afterBit_row {s : State} (addr len : Half) (h : s.gx.gc = 7) (hr : s.gx.gr < 7) :
    s.afterBit addr len = (s.setGr (s.gx.gr + 1)).pushWork [.text .row addr len] := by
  simp only [State.afterBit, h, hr, if_true]
  rfl

theorem State.afterBit_adv {s : State} (addr len : Half) (h : s.gx.gc = 7) (hr : s.gx.gr = 7) :
    s.afterBit addr len = s.pushWork [.text .adv addr len] := by
  simp only [State.afterBit, h, hr]
  rfl

/-- `T_BIT` and, where the bit is set, the window machine: one bit of the row. -/
theorem runs_bit {s : State} (hok : s.par.ok = true) (addr len : Half) :
    Runs [.text .bit addr len] (drawBit s.dp.color s.gx.gc s) s (State.afterBit addr len)
      (fun t => KeptRow s t ∧ t.gx.gc = s.gx.gc) := by
  by_cases hb : glyphBit s.gx.rowb s.gx.gc
  · have hd : drawBit s.dp.color s.gx.gc s =
        sendPixel (s.dp.cx + s.gx.gc.setWidth 16) (s.dp.cy + s.gx.gr.setWidth 16) s.dp.color s := if_pos hb
    rw [hd]
    generalize hx : s.dp.cx + s.gx.gc.setWidth 16 = x
    generalize hy : s.dp.cy + s.gx.gr.setWidth 16 = y
    let ws := streamElems s.par.chunkMax x x y y (bytes16 s.dp.color)
    have h1 : Runs [.text .bit addr len] (.go s) s
        (fun t => (t.loadWindow x x y y).pushWork (ws ++ [.text .pixelDone addr len])) (fun t => t = s) := by
      refine runs_one hok _ _ (fun rest => ?_) fun t e => (Flow.go.inj e).symm
      subst hx hy
      exact if_pos hb
    have h2 : Runs (ws ++ [.text .pixelDone addr len]) (sendPixel x y s.dp.color s) (s.loadWindow x x y y)
        (State.afterBit addr len) (fun t => KeptRow s t ∧ t.gx.gc = s.gx.gc) := by
      intro rest
      have hr := runs_stream hok x x y y (bytes16 s.dp.color) (.text .pixelDone addr len :: rest)
      have ha : ws ++ [.text .pixelDone addr len] ++ rest = ws ++ .text .pixelDone addr len :: rest := by simp
      rw [ha]
      refine ⟨fun t e => ?_, fun t e => hr.2 t e⟩
      obtain ⟨-, n, hn⟩ := hr.1 t e
      obtain ⟨ck, rfl⟩ := (performs_sendPixel x y s.dp.color s).go e
      refine ⟨⟨⟨⟨rfl, rfl, rfl, rfl, rfl, rfl⟩, rfl⟩, rfl⟩, n + 1, steps_add hn ?_⟩
      rw [steps_one]
      exact step_over (s := (s.sent _).withRegs _ _ ck) hok _ rest
    exact h1.bind (g := fun _ => sendPixel x y s.dp.color s) fun t ht => ⟨s.loadWindow x x y y, fun rest => by subst ht; rfl, h2⟩
  · have hd : drawBit s.dp.color s.gx.gc s = .go s := if_neg hb
    rw [hd]
    refine runs_one hok _ _ (fun rest => ?_) fun t e => ?_
    · exact if_neg hb
    · obtain rfl := Flow.go.inj e
      exact ⟨⟨.refl _, rfl⟩, rfl⟩

theorem idx8_drop (c : BitVec 3) : c < 7 → idx8.drop c.toNat = c :: idx8.drop (c + 1).toNat := by
  revert c; decide

theorem idx8_cons (c : BitVec 3) : ∃ l, idx8.drop c.toNat = c :: l := by
  have : (idx8.drop c.toNat).head? = some c := by revert c; decide
  exact List.head?_eq_some_iff.mp this

/-- The columns of a row from GC on. -/
theorem runs_bits (n : Nat) {s : State} (hn : s.gx.gc.toNat + n = 7) (hok : s.par.ok = true) (addr len : Half) :
    Runs [.text .bit addr len] (forEach (drawBit s.dp.color) (idx8.drop s.gx.gc.toNat) s) s (State.afterBit addr len)
      (fun t => KeptRow s t ∧ t.gx.gc = 7) := by
  induction n generalizing s with
  | zero =>
    have h7 : s.gx.gc = 7 := BitVec.eq_of_toNat_eq hn
    have hl : idx8.drop s.gx.gc.toNat = [s.gx.gc] := by rw [h7]; decide
    have hb : forEach (drawBit s.dp.color) [s.gx.gc] s = drawBit s.dp.color s.gx.gc s := by
      simp only [forEach]
      cases drawBit s.dp.color s.gx.gc s <;> rfl
    rw [hl, hb]
    exact (runs_bit hok addr len).mono fun t ht => ⟨ht.1, ht.2.trans h7⟩
  | succ n ih =>
    have hlt : s.gx.gc < 7 := by rw [BitVec.lt_def]; show _ < 7; omega
    have hsucc : (s.gx.gc + 1).toNat = s.gx.gc.toNat + 1 := by
      have : s.gx.gc.toNat < 7 := by omega
      rw [BitVec.toNat_add]; show (_ + 1) % 8 = _; omega
    have hdrop := idx8_drop s.gx.gc hlt
    rw [hdrop]
    refine (runs_bit hok addr len).bind (b := [.text .bit addr len])
      (g := forEach (drawBit s.dp.color) (idx8.drop (s.gx.gc + 1).toNat)) fun t ht => ⟨t.setGc (s.gx.gc + 1), fun rest => ?_, ?_⟩
    · exact (State.afterBit_col (s := t.over rest) addr len (ht.2 ▸ hlt)).trans (by rw [← ht.2]; rfl)
    · have hcol : t.dp.color = s.dp.color := ht.1.1.color
      have h := ih (s := t.setGc (s.gx.gc + 1)) (by show (s.gx.gc + 1).toNat + n = 7; omega) (ht.1.1.par ▸ hok)
      have hskip : forEach (drawBit s.dp.color) (idx8.drop (s.gx.gc + 1).toNat) t =
          forEach (drawBit s.dp.color) (idx8.drop (s.gx.gc + 1).toNat) (t.setGc (s.gx.gc + 1)) := by
        obtain ⟨l, e⟩ := idx8_cons (s.gx.gc + 1)
        rw [e]
        rfl
      rw [hskip]
      change Runs _ (forEach (drawBit t.dp.color) (idx8.drop (s.gx.gc + 1).toNat) (t.setGc (s.gx.gc + 1))) _ _ _ at h
      rw [hcol] at h
      exact h.mono fun u hu => ⟨⟨ht.1.1.trans ⟨hu.1.1.par, hu.1.1.text, hu.1.1.glyph, hu.1.1.color, hu.1.1.ch, hu.1.1.ci⟩,
        hu.1.2.trans ht.1.2⟩, hu.2⟩

/-- `T_ROW` and the row's bits. -/
theorem runs_row {s : State} (hok : s.par.ok = true) (addr len : Half) :
    Runs [.text .row addr len] (drawRow s.dp.color (glyphIndex s.gx.ch) s.gx.gr s) s (State.afterBit addr len)
      (fun t => KeptRow s t ∧ t.gx.gc = 7) := by
  let u : State := (s.readRowb (glyphIndex s.gx.ch)).setGc 0
  have h1 : Runs [.text .row addr len] (.go u) s (State.pushWork · [.text .bit addr len]) (fun t => t = u) :=
    runs_one hok _ _ (fun rest => rfl) fun t e => (Flow.go.inj e).symm
  have h2 := runs_bits 7 (s := u) rfl hok addr len
  refine h1.bind (b := [.text .bit addr len]) (g := fun _ => drawRow s.dp.color (glyphIndex s.gx.ch) s.gx.gr s)
    fun t ht => ⟨u, fun rest => by subst ht; rfl, ?_⟩
  exact h2.mono fun v hv => ⟨⟨⟨hv.1.1.par, hv.1.1.text, hv.1.1.glyph, hv.1.1.color, hv.1.1.ch, hv.1.1.ci⟩, hv.1.2⟩, hv.2⟩

/-- The rows of a glyph from GR on. -/
theorem runs_rows (n : Nat) {s : State} (hn : s.gx.gr.toNat + n = 7) (hok : s.par.ok = true) (addr len : Half) :
    Runs [.text .row addr len] (forEach (drawRow s.dp.color (glyphIndex s.gx.ch)) (idx8.drop s.gx.gr.toNat) s) s
      (State.pushWork · [.text .adv addr len]) (Kept s) := by
  induction n generalizing s with
  | zero =>
    have h7 : s.gx.gr = 7 := BitVec.eq_of_toNat_eq hn
    have hl : idx8.drop s.gx.gr.toNat = [s.gx.gr] := by rw [h7]; decide
    rw [hl]
    have hr : forEach (drawRow s.dp.color (glyphIndex s.gx.ch)) [s.gx.gr] s =
        drawRow s.dp.color (glyphIndex s.gx.ch) s.gx.gr s := by
      simp only [forEach]
      cases drawRow s.dp.color (glyphIndex s.gx.ch) s.gx.gr s <;> rfl
    rw [hr]
    refine ((runs_row hok addr len).cont fun t ht rest => ?_).mono fun t ht => ht.1.1
    exact State.afterBit_adv (s := t.over rest) addr len ht.2 (ht.1.2.trans h7)
  | succ n ih =>
    have hlt : s.gx.gr < 7 := by rw [BitVec.lt_def]; show _ < 7; omega
    have hsucc : (s.gx.gr + 1).toNat = s.gx.gr.toNat + 1 := by
      have : s.gx.gr.toNat < 7 := by omega
      rw [BitVec.toNat_add]; show (_ + 1) % 8 = _; omega
    rw [idx8_drop s.gx.gr hlt]
    refine (runs_row hok addr len).bind (b := [.text .row addr len])
      (g := forEach (drawRow s.dp.color (glyphIndex s.gx.ch)) (idx8.drop (s.gx.gr + 1).toNat))
      fun t ht => ⟨t.setGr (s.gx.gr + 1), fun rest => ?_, ?_⟩
    · exact (State.afterBit_row (s := t.over rest) addr len ht.2 (ht.1.2 ▸ hlt)).trans (by rw [← ht.1.2]; rfl)
    · have h := ih (s := t.setGr (s.gx.gr + 1)) (by show (s.gx.gr + 1).toNat + n = 7; omega) (ht.1.1.par ▸ hok)
      have hskip : forEach (drawRow s.dp.color (glyphIndex s.gx.ch)) (idx8.drop (s.gx.gr + 1).toNat) t =
          forEach (drawRow s.dp.color (glyphIndex s.gx.ch)) (idx8.drop (s.gx.gr + 1).toNat) (t.setGr (s.gx.gr + 1)) := by
        obtain ⟨l, e⟩ := idx8_cons (s.gx.gr + 1)
        rw [e]
        rfl
      rw [hskip]
      change Runs _ (forEach (drawRow t.dp.color (glyphIndex t.gx.ch)) (idx8.drop (s.gx.gr + 1).toNat)
        (t.setGr (s.gx.gr + 1))) _ _ _ at h
      rw [ht.1.1.color, ht.1.1.ch] at h
      exact h.mono fun u hu => ht.1.1.trans ⟨hu.par, hu.text, hu.glyph, hu.color, hu.ch, hu.ci⟩

/-- A character of a text, its glyph's or a newline's, and `CI <- CI + 1`. -/
theorem runs_char {s : State} (hok : s.par.ok = true) {addr len : Half} (hc : s.gx.ci ≠ len) :
    Runs [.text .fetch addr len] ((drawChar s.dp.color addr s).bind fun t => .go t.nextChar) s
      (State.pushWork · [.text .fetch addr len])
      (fun t => t.par = s.par ∧ t.dp.color = s.dp.color ∧ t.gx.ci = s.gx.ci + 1) := by
  have hf (rest : List Work) : State.fetchChar addr len (s.over rest) =
      if isNewline (s.readChar addr).gx.ch then ((s.over rest).readChar addr).newLine.nextChar.pushWork [.text .fetch addr len]
      else (((s.over rest).readChar addr).setGr 0).pushWork [.text .row addr len] := if_neg hc
  by_cases hn : isNewline (s.readChar addr).gx.ch = true
  · rw [drawChar_newline _ hn, Flow.bind_go]
    refine runs_one hok _ _ (fun rest => (hf rest).trans (if_pos hn)) fun t e => ?_
    obtain rfl := Flow.go.inj e
    exact ⟨rfl, rfl, rfl⟩
  · rw [drawChar_glyph _ (by simpa using hn)]
    let u := (s.readChar addr).setGr 0
    have h1 : Runs [.text .fetch addr len] (.go u) s (State.pushWork · [.text .row addr len]) (fun t => t = u) :=
      runs_one hok _ _ (fun rest => (hf rest).trans (if_neg hn)) fun t e => (Flow.go.inj e).symm
    have h2 := runs_rows 7 (s := u) rfl hok addr len
    have h3 : Runs [.text .row addr len]
        ((forEach (drawRow u.dp.color (glyphIndex u.gx.ch)) (idx8.drop u.gx.gr.toNat) u).bind
          fun t => .go t.advanceCursor.nextChar) u (State.pushWork · [.text .fetch addr len])
        (fun t => t.par = s.par ∧ t.dp.color = s.dp.color ∧ t.gx.ci = s.gx.ci + 1) := by
      refine h2.bind (b := [.text .adv addr len]) fun t ht => ⟨t, fun rest => rfl, ?_⟩
      have hadv (t : State) : t.advanceCursor.par = t.par ∧ t.advanceCursor.dp.color = t.dp.color ∧
          t.advanceCursor.gx = t.gx := by
        unfold State.advanceCursor
        split <;> exact ⟨rfl, rfl, rfl⟩
      have hover (rest : List Work) : (t.over rest).advanceCursor = t.advanceCursor.over rest := by
        have hdp : (t.over rest).dp = t.dp := rfl
        unfold State.advanceCursor
        rw [hdp]
        split <;> rfl
      refine runs_one (ht.par ▸ hok) _ _ (fun rest => ?_) fun v e => ?_
      · show State.pushWork (State.nextChar (t.over rest).advanceCursor) _ = _
        rw [hover]
        rfl
      · obtain rfl := Flow.go.inj e
        refine ⟨(hadv t).1.trans ht.par, (hadv t).2.1.trans ht.color, ?_⟩
        show t.advanceCursor.gx.ci + 1 = _
        rw [(hadv t).2.2, ht.ci]
        rfl
    rw [Flow.bind_assoc]
    exact h1.bind (b := [.text .row addr len])
      (g := fun _ => (drawGlyph s.dp.color (glyphIndex (s.readChar addr).gx.ch) (s.readChar addr)).bind fun t =>
        (Flow.go t.advanceCursor).bind fun t => .go t.nextChar)
      fun t ht => ⟨u, fun rest => by subst ht; rfl, h3⟩

/-- The characters of a text from CI on (R146). -/
theorem runs_chars (n : Nat) {s : State} {addr len : Half} (hn : s.gx.ci.toNat + n = len.toNat) (hok : s.par.ok = true) :
    Runs [.text .fetch addr len] (drawChars s.dp.color addr n s) s id s.ParOf := by
  induction n generalizing s with
  | zero =>
    exact runs_one hok _ _ (fun rest => if_pos (BitVec.eq_of_toNat_eq hn)) fun t e => by obtain rfl := Flow.go.inj e; rfl
  | succ n ih =>
    have hc : s.gx.ci ≠ len := fun h => by rw [h] at hn; omega
    have hd : drawChars s.dp.color addr (n + 1) s =
        ((drawChar s.dp.color addr s).bind fun t => .go t.nextChar).bind (drawChars s.dp.color addr n) := by
      rw [Flow.bind_assoc]
      rfl
    rw [hd]
    refine (runs_char hok hc).bind (b := [.text .fetch addr len]) fun t ht => ⟨t, fun rest => rfl, ?_⟩
    have := ih (s := t) (by
      rw [ht.2.2, BitVec.toNat_add]
      show (_ + 1) % 65536 + n = _
      have := len.isLt
      omega) (ht.1 ▸ hok)
    rw [ht.2.1] at this
    exact this.mono fun u hu => hu.trans ht.1

/-! ## A whole operation -/

/-- Worked off, then `DONE`: the operation has ended as it ends in one step. -/
theorem Runs.finish {ws : List Work} {f : Flow} {s : State} {Q : State → Prop} (h : Runs ws f s id Q)
    (hok : ∀ t, Q t → t.par.ok = true) : ∃ n, steps n (s.withPlan ws) = .next f.finish := by
  cases f with
  | ended t => exact (h [.done]).2 t rfl
  | go t =>
    obtain ⟨hq, n, hn⟩ := (h [.done]).1 t rfl
    exact ⟨n + 1, steps_add hn ((steps_one _).trans (step_over (hok t hq) .done []))⟩

/-- A drawing operation whose work list is its body. -/
theorem steps_planned {s t : State} {body : State → Flow} {load : State → State} {plan : Nat → List Work}
    {Q : State → Prop} (h : hostOp admitsDrawing body s = .next t)
    (hr : s.par.ok = true → Runs (plan s.par.chunkMax) (body { s with xferIx := 0 }) (load { s with xferIx := 0 }) id Q)
    (hok : s.par.ok = true → ∀ t, Q t → t.par.ok = true) :
    ∃ u n, startDrawing load plan s = .next u ∧ steps n u = .next t := by
  cases hp : s.par.ok with
  | false => simp [hostOp, configured, hp] at h
  | true =>
    cases ha : admitsDrawing s.lc with
    | false =>
      simp only [hostOp, configured, hp, ha, if_true, Bool.false_eq_true, if_false, Host.Outcome.next.injEq] at h
      exact ⟨t, 0, by simp [startDrawing, startOp, configured, hp, ha, h], rfl⟩
    | true =>
      simp only [hostOp, configured, hp, ha, if_true, Host.Outcome.next.injEq] at h
      obtain ⟨n, hn⟩ := (hr hp).finish (hok hp)
      exact ⟨_, n, by simp [startDrawing, startOp, configured, hp, ha], h ▸ hn⟩

/-- A drawing operation, started and taken step by step, ends where it ends in one step. -/
theorem steps_drawing {s t : State} {i : Instr} (hi : i.isDrawing = true) (h : exec i s = .next t) :
    ∃ u n, start i s = .next u ∧ steps n u = .next t := by
  have hq (hp : s.par.ok = true) (t : State) (ht : t.par = s.par) : t.par.ok = true := ht ▸ hp
  let s0 : State := { s with xferIx := 0 }
  cases i with
  | setwin x0 x1 y0 y1 =>
    exact steps_planned (load := fun s => s.loadWindow x0 x1 y0 y1) (plan := fun m => windowElems m x0 x1 y0 y1) h
      (fun hp => runs_window (s := s0) hp x0 x1 y0 y1) hq
  | drawpixel x y c =>
    exact steps_planned (load := fun s => (s.loadColor c).loadWindow x x y y)
      (plan := fun m => streamElems m x x y y (bytes16 c)) h (fun hp => runs_stream (s := s0.loadColor c) hp x x y y _) hq
  | fillscreen c =>
    exact steps_planned (load := fun s => (s.loadColor c).loadWindow 0 (BitVec.ofNat 16 (Config.panelW - 1)) 0
        (BitVec.ofNat 16 (Config.panelH - 1)))
      (plan := fun m => streamElems m 0 (BitVec.ofNat 16 (Config.panelW - 1)) 0 (BitVec.ofNat 16 (Config.panelH - 1))
        (repColor (Config.panelW * Config.panelH) c)) h (fun hp => runs_stream (s := s0.loadColor c) hp _ _ _ _ _) hq
  | drawtext x y c addr len =>
    exact steps_planned (load := fun s => s.loadText x y c) (plan := fun _ => [.text .fetch addr len]) h
      (fun hp => runs_chars len.toNat (s := s0.loadText x y c) (by simp) hp) hq
  | _ => simp [Instr.isDrawing] at hi

/-! ## INIT -/

theorem runs_pin {s : State} (hok : s.par.ok = true) (l : Line) (v : Level) :
    Runs [.pin l v] (.go (s.drive l v)) s id s.ParOf :=
  runs_one hok _ _ (fun _ => by cases l <;> rfl) fun t e => by obtain rfl := Flow.go.inj e; rfl

theorem runs_delay {s : State} (hok : s.par.ok = true) (ms : Nat) :
    Runs [.delay ms] (.go (s.sleep ms)) s id s.ParOf :=
  runs_one hok _ _ (fun _ => rfl) fun t e => by obtain rfl := Flow.go.inj e; rfl

/-- The phases of INIT after its acquisition (R82 to R85). -/
theorem runs_init {s : State} (hok : s.par.ok = true) :
    Runs (initElems s.par) ((initConfigure (initReset s)).bind fun t => .go (initLight t)) s id s.ParOf := by
  have h1 : Runs [.pin .rst false, .delay s.par.tRstLow, .pin .rst true, .delay s.par.tRstHigh] (.go (initReset s)) s id s.ParOf :=
    (((runs_pin hok .rst false).also (fun p => [.delay p.tRstLow]) (g := fun t => .go (t.sleep t.par.tRstLow)) hok
      fun _ ht => runs_delay ht _).also (fun _ => [.pin .rst true]) (g := fun t => .go (t.drive .rst true)) hok
      fun _ ht => runs_pin ht _ _).also (fun p => [.delay p.tRstHigh]) (g := fun t => .go (t.sleep t.par.tRstHigh)) hok
      fun _ ht => runs_delay ht _
  have h2 := (((((h1.also (fun p => payloadElems p.chunkMax .pixfmt [Config.pixfmt16])
      (g := sendPayload .pixfmt [Config.pixfmt16]) hok fun _ ht => runs_payload ht _ _).also
      (fun p => payloadElems p.chunkMax .memctl [p.madctlVal]) (g := fun s => sendMemctl s.par.madctlVal s) hok
      fun _ ht => runs_payload ht _ _).also (fun _ => cmdElems .slpout) (g := sendSlpout) hok
      fun _ ht => runs_command ht _).also (fun p => [.delay p.tSlpout]) (g := fun s => .go (s.sleep s.par.tSlpout)) hok
      fun _ ht => runs_delay ht _).also (fun _ => cmdElems .dispon) (g := sendDispon) hok
      fun _ ht => runs_command ht _).also (fun p => [.pin .bl p.blOn, .ready]) (g := fun s => .go (initLight s)) hok
      fun t ht => (runs_pin ht .bl t.par.blOn).also (fun _ => [.ready]) (g := fun s => .go { s with lc := .ready }) ht
        fun _ ht => runs_one ht _ _ (fun _ => rfl) fun t e => by obtain rfl := Flow.go.inj e; rfl
  simp only [Flow.bind_assoc, Flow.bind_go] at h2
  simp only [initConfigure, Flow.bind_assoc, initElems]
  exact h2

/-- Acquisition leaves the parameters (R29). -/
theorem initAcquire_par {s t : State} (h : initAcquire s = .go t) : t.par = s.par := by
  rcases answers_cases s 4 with ha | ⟨k, hk, hf⟩
  · rw [initAcquire_ok ha] at h
    obtain rfl := Flow.go.inj h
    rfl
  · rw [initAcquire_fail hk hf] at h
    simp at h

/-- INIT, started and taken step by step, ends where it ends in one step. -/
theorem steps_init {s t : State} (h : exec .init s = .next t) : ∃ u n, start .init s = .next u ∧ steps n u = .next t := by
  have hok := exec_ok h
  have hx : exec .init s = hostOp admitsInit initBody s := rfl
  have hs : start .init s = startInit s := rfl
  rw [hx] at h
  rw [hs]
  cases ha : admitsInit s.lc with
  | false =>
    simp only [hostOp, configured, hok, ha, if_true, Bool.false_eq_true, if_false, Host.Outcome.next.injEq] at h
    exact ⟨t, 0, by simp [startInit, startOp, configured, hok, ha, h], rfl⟩
  | true =>
    simp only [hostOp, configured, hok, ha, if_true, Host.Outcome.next.injEq, initBody, Flow.bind_assoc] at h
    simp only [startInit, startOp, configured, hok, ha, if_true]
    cases hi : initAcquire { s with xferIx := 0, lc := .initializing } with
    | ended u =>
      rw [hi] at h
      exact ⟨u, 0, rfl, congrArg Host.Outcome.next h⟩
    | go u =>
      rw [hi] at h
      have hp : u.par = s.par := (initAcquire_par hi :)
      obtain ⟨n, hn⟩ := (runs_init (s := u) (hp ▸ hok)).finish fun v hv => by rw [hv, hp]; exact hok
      exact ⟨_, n, rfl, hn.trans (congrArg Host.Outcome.next h)⟩

/-- A host operation, started and taken step by step, ends in exactly the state it ends in in one step (R12, R111, R124,
R146). -/
theorem steps_agree {s t : State} {i : Instr} (hi : i.isWire = false) (h : exec i s = .next t) :
    ∃ u n, start i s = .next u ∧ steps n u = .next t := by
  rcases host_cases hi with rfl | rfl | hd
  · exact steps_init h
  · exact ⟨t, 0, h, rfl⟩
  · exact steps_drawing hd h

end Sys2Proof.Machine
end

