-- ==== Sys2Proof/Machine/Assembly.lean ====
section
/-! DEFINITION. The assembly notation of rule R76: from lines of characters to a program in CMD, texts in TEXT and glyphs in
the ROM. It is how the spec writes inputs down; the engine never sees it. -/

namespace Sys2Proof.Machine

/-- A line of a source (R76). -/
inductive SourceLine where
  /-- Nothing, or only a comment. -/
  | blank
  /-- A host operation. -/
  | op (i : Instr)
  /-- `.text addr, "string"`. -/
  | text (addr : Half) (bytes : List Byte)
  /-- `.glyph code, b0, ..., b7`. -/
  | glyph (code : Fin 128) (rows : List Byte)
deriving DecidableEq, Repr

/-- The double quote, which opens and closes a string. -/
def quoteChar : Char := Char.ofNat 34

/-- The backslash, which begins an escape. -/
def escapeChar : Char := Char.ofNat 92

/-- The value of a digit, in either case. -/
def digitOf (c : Char) : Option Nat :=
  let n := c.toNat
  if 48 ≤ n ∧ n ≤ 57 then some (n - 48)
  else if 97 ≤ n ∧ n ≤ 102 then some (n - 87)
  else if 65 ≤ n ∧ n ≤ 70 then some (n - 55)
  else none

/-- Digits in a base, most significant first, after a value already read. -/
def digitsOf (base : Nat) : List Char → Nat → Option Nat
  | [], n => some n
  | c :: cs, n => match digitOf c with
    | none => none
    | some d => if d < base then digitsOf base cs (n * base + d) else none

/-- An operand: "decimal or `0x` hexadecimal" (R76). -/
def numberOf : List Char → Option Nat
  | [] => none
  | ['0', 'x'] => none
  | '0' :: 'x' :: ds => digitsOf 16 ds 0
  | ds => digitsOf 10 ds 0

/-- An operand below a bound. -/
def boundedOf (bound : Nat) (cs : List Char) : Option Nat :=
  (numberOf cs).bind fun n => if n < bound then some n else none

/-- A 16-bit operand (R72). -/
def halfOf (cs : List Char) : Option Half := (boundedOf (2 ^ 16) cs).map (BitVec.ofNat 16)

/-- A byte operand. -/
def byteOf (cs : List Char) : Option Byte := (boundedOf (2 ^ 8) cs).map (BitVec.ofNat 8)

/-- A space or a tab. -/
def isBlank (c : Char) : Bool := c == ' ' || c == Char.ofNat 9

/-- The characters without the blanks at either end. -/
def trim (cs : List Char) : List Char := ((cs.dropWhile isBlank).reverse.dropWhile isBlank).reverse

/-- The line without its comment, which `;` starts outside a string (R76). -/
def uncomment : Bool → List Char → List Char
  | _, [] => []
  | inString, c :: cs =>
    if c = ';' ∧ inString = false then []
    else c :: uncomment (if c = quoteChar then !inString else inString) cs

/-- The pieces between commas. -/
def splitCommas : List Char → List (List Char)
  | [] => [[]]
  | c :: cs =>
    if c = ',' then [] :: splitCommas cs
    else match splitCommas cs with
      | [] => [[c]]
      | w :: ws => (c :: w) :: ws

/-- The operands of a line: none, or those the commas separate (R76). -/
def operandsOf (cs : List Char) : List (List Char) := if cs = [] then [] else (splitCommas cs).map trim

/-- The bytes of a string: the newline and hexadecimal escapes, and every other character its ASCII code (R76). -/
def stringBytes : List Char → Option (List Byte)
  | [] => some []
  | c :: cs =>
    let plain := if c.toNat < 128 then (stringBytes cs).map (BitVec.ofNat 8 c.toNat :: ·) else none
    if c = escapeChar then match cs with
      | 'n' :: rest => (stringBytes rest).map ((0x0A : Byte) :: ·)
      | 'x' :: h :: l :: rest =>
        match digitOf h, digitOf l with
        | some a, some b => (stringBytes rest).map (BitVec.ofNat 8 (16 * a + b) :: ·)
        | _, _ => none
      | _ => plain
    else plain

/-- A quoted string. -/
def quoted : List Char → Option (List Byte)
  | c :: cs => if c = quoteChar ∧ cs.getLast? = some quoteChar then stringBytes cs.dropLast else none
  | [] => none

/-- `@addr`, the address of a text (R76). -/
def addrOf : List Char → Option Half
  | '@' :: cs => halfOf cs
  | _ => none

/-- A host operation by its mnemonic and operands (R71, R76). -/
def operationOf (word : List Char) (ops : List (List Char)) : Option Instr :=
  if word = ['I', 'N', 'I', 'T'] then if ops = [] then some .init else none
  else if word = ['T', 'E', 'A', 'R', 'D', 'O', 'W', 'N'] then if ops = [] then some .teardown else none
  else if word = ['S', 'E', 'T', 'W', 'I', 'N'] then match ops with
    | [a, b, c, d] => do some (.setwin (← halfOf a) (← halfOf b) (← halfOf c) (← halfOf d))
    | _ => none
  else if word = ['D', 'R', 'A', 'W', 'P', 'I', 'X', 'E', 'L'] then match ops with
    | [a, b, c] => do some (.drawpixel (← halfOf a) (← halfOf b) (← halfOf c))
    | _ => none
  else if word = ['F', 'I', 'L', 'L', 'S', 'C', 'R', 'E', 'E', 'N'] then match ops with
    | [a] => do some (.fillscreen (← halfOf a))
    | _ => none
  else if word = ['D', 'R', 'A', 'W', 'T', 'E', 'X', 'T'] then match ops with
    | [a, b, c, d, e] => do some (.drawtext (← halfOf a) (← halfOf b) (← halfOf c) (← addrOf d) (← halfOf e))
    | _ => none
  else none

/-- `.text addr, "string"`: the first comma ends the address, so that the string may hold commas (R76). -/
def textLineOf (rest : List Char) : Option SourceLine := do
  let addr ← halfOf (trim (rest.takeWhile (· != ',')))
  let bytes ← quoted (trim ((rest.dropWhile (· != ',')).drop 1))
  some (.text addr bytes)

/-- `.glyph code, b0, ..., b7` (R76). -/
def glyphLineOf (ops : List (List Char)) : Option SourceLine :=
  match ops with
  | code :: rows => do
    let n ← boundedOf 128 code
    let bytes ← rows.mapM byteOf
    if bytes.length = 8 then some (.glyph (Fin.ofNat 128 n) bytes) else none
  | [] => none

/-- One line (R76), or none where it is not in the notation. -/
def lineOf (line : List Char) : Option SourceLine :=
  let cs := trim (uncomment false line)
  let word := cs.takeWhile fun c => !isBlank c
  let rest := trim (cs.dropWhile fun c => !isBlank c)
  if cs = [] then some .blank
  else if word = ['.', 't', 'e', 'x', 't'] then textLineOf rest
  else if word = ['.', 'g', 'l', 'y', 'p', 'h'] then glyphLineOf (operandsOf rest)
  else (operationOf word (operandsOf rest)).map .op

/-- The operations of a source, in order: the program (R68). -/
def operationsOf : List SourceLine → List Instr
  | [] => []
  | .op i :: ls => i :: operationsOf ls
  | .blank :: ls => operationsOf ls
  | .text _ _ :: ls => operationsOf ls
  | .glyph _ _ :: ls => operationsOf ls

/-- What a directive places (R76). -/
def State.place (s : State) : SourceLine → State
  | .blank => s
  | .op _ => s
  | .text addr bytes => s.loadTextBytes addr bytes
  | .glyph code rows => s.loadGlyph code rows

/-- A whole source: its operations become the program, from address 0 of CMD, and its directives are placed in order. -/
def State.assemble (s : State) (lines : List (List Char)) : Option State := do
  let ls ← lines.mapM lineOf
  some (ls.foldl State.place (s.loadProgram (operationsOf ls)))

end Sys2Proof.Machine
end

