-- ==== Sys2Proof/Tests/Slice0.lean ====
section
/-! SUPPORT. The model's own tests: the smoke test of WellFormed and of rule R7, words decoded as the spec writes them, one step of
each instruction against the vectors of 95_test_vectors.md, and for every obligation with hypotheses a witness that meets
them. -/

namespace Sys2Proof.Tests

open Sys2Proof.Machine

/-! ## Small states -/

/-- The defaults of rule R6, and a number for each OPEN parameter. -/
def par1 : Params := { Params.default with madctlVal := 0x60, busId := 0, channel := 0, baud := 0, gpioChip := 0 }

/-- Power-on, with answers for a while. -/
def powered : State := { State.reset with par := par1, env := List.replicate 30 .ok }

/-- The end state of V-INIT-1, but for its trace. -/
def ready : State :=
  { powered with
    lc := .ready, claimed := ⟨true, true, true, true⟩, pins := ⟨some false, some true, some true⟩, pc := 12,
    rx := { Receiver.powerOn (some false) (some true) (some true) with
      pixfmt := some 0x05, madctl := some 0x60, sleepOut := true, displayOn := true, quiet := 130,
      sinceSlpout := some 120 } }

/-- `ready` with the glyphs of ROM T that a test uses, and a text at address 0. -/
def withText (bytes : List Byte) : State :=
  ((ready.loadGlyph 0x41 [0x05, 0, 0, 0, 0, 0, 0, 0x80]).loadGlyph 0x3F [0x80, 0, 0, 0, 0, 0, 0, 0]).loadTextBytes 0 bytes

/-- `ready` with the window (10, 11, 20, 21) just programmed (V-RX-2). -/
def windowed : State :=
  { ready with rx := { ready.rx with winseq := 2, xs := some 10, xe := some 11, ys := some 20, ye := some 21 } }

/-- `powered` with the program `INIT`. -/
def booted : State := powered.loadProgram [.init]

/-- The next state, if there is one. -/
def after : Host.Outcome State Fault Refusal → Option State
  | .next t => some t
  | .fault _ => none
  | .refused _ => none

/-- A pixel that the receiver's frame memory lists. -/
structure Pixel where
  x : Nat
  y : Nat
  color : Half
deriving DecidableEq, Repr

/-- The frame memory of the receiver, row by row. -/
def pixels (t : State) : List Pixel := t.rx.fb.flatMap fun row => row.2.map fun p => ⟨p.1, row.1, p.2⟩

/-- The status of the next state is OK. -/
def endsOk (o : Host.Outcome State Fault Refusal) : Bool := (after o).any fun t => t.status.status == .ok

theorem of_endsOk {o : Host.Outcome State Fault Refusal} (h : endsOk o = true) :
    ∃ t, o = .next t ∧ t.status.status = .ok := by
  cases o with
  | next t => exact ⟨t, rfl, by simpa [endsOk, after] using h⟩
  | fault _ => simp [endsOk, after] at h
  | refused _ => simp [endsOk, after] at h

/-! ## WellFormed, and the constraints on the parameters -/

theorem wellFormed_replicate (n : Nat) :
    (Instr.wMemwr (List.replicate n 0)).wellFormed = decide (n ≤ maxPixels) := by
  simp only [Instr.wellFormed, List.length_replicate]

theorem test_too_many_pixels_ill_formed : (Instr.wMemwr (List.replicate 76801 0)).wellFormed = false := by
  rw [wellFormed_replicate]; decide

theorem test_a_panel_of_pixels_well_formed : (Instr.wMemwr (List.replicate 76800 0)).wellFormed = true := by
  rw [wellFormed_replicate]; decide

theorem test_default_parameters_ok : Params.default.ok = true := by decide

/-- One configuration for each constraint of rules R7 and R90, and D14. -/
theorem test_constraints_refused :
    ({ par1 with chunkMax := 0 } : Params).ok = false ∧ ({ par1 with xferMax := 4095 } : Params).ok = false ∧
    ({ par1 with tRstLow := 9 } : Params).ok = false ∧ ({ par1 with tRstHigh := 9 } : Params).ok = false ∧
    ({ par1 with tSlpout := 119 } : Params).ok = false ∧ ({ par1 with lineRst := 0 } : Params).ok = false ∧
    ({ par1 with lineBl := 0 } : Params).ok = false ∧ ({ par1 with lineBl := 1 } : Params).ok = false ∧
    ({ par1 with releaseOrder := [.bl, .rst, .dc, .dc] } : Params).ok = false := by decide

/-! ## Decoding: words written bit by bit from 30_encoding.md -/

/-- R62: the seven command items, bit 8 the DC level 0, bits 7 to 0 the code. -/
theorem test_wire_words :
    decodeTableWord 16 0b000111010 = some (.wPixfmt 0) ∧ decodeTableWord 16 0b000110110 = some (.wMemctl 0) ∧
    decodeTableWord 16 0b000010001 = some .wSlpout ∧ decodeTableWord 16 0b000101001 = some .wDispon ∧
    decodeTableWord 16 0b000101010 = some (.wColset 0 0) ∧ decodeTableWord 16 0b000101011 = some (.wRowset 0 0) ∧
    decodeTableWord 16 0b000101100 = some (.wMemwr []) := by decide

/-- R67: a data item first, and a code that is none of the seven, are no instruction. -/
theorem test_wire_refused :
    decodeTableWord 16 0b100111010 = none ∧ decodeTableWord 16 0b000000001 = none ∧
    decodeWire [⟨false, 0x2A⟩, ⟨true, 0⟩, ⟨false, 0x2B⟩] = .error .payloadShort := by decide

/-- R64: 319 is `D(01) D(3F)`, 239 is `D(00) D(EF)`. -/
theorem test_wire_payloads :
    decodeWire [⟨false, 0x3A⟩, ⟨true, 0x05⟩] = .ok (.wPixfmt 5, []) ∧
    decodeWire [⟨false, 0x36⟩, ⟨true, 0x60⟩] = .ok (.wMemctl 0x60, []) ∧
    decodeWire [⟨false, 0x2A⟩, ⟨true, 0⟩, ⟨true, 0⟩, ⟨true, 0x01⟩, ⟨true, 0x3F⟩] = .ok (.wColset 0 319, []) ∧
    decodeWire [⟨false, 0x2B⟩, ⟨true, 0⟩, ⟨true, 0⟩, ⟨true, 0x00⟩, ⟨true, 0xEF⟩] = .ok (.wRowset 0 239, []) := by decide

/-- R65, R66: W_MEMWR takes its pixels up to the next command item. -/
theorem test_wire_pixels :
    decodeWire [⟨false, 0x2C⟩, ⟨true, 0xF8⟩, ⟨true, 0x00⟩, ⟨true, 0x07⟩, ⟨true, 0xE0⟩, ⟨false, 0x11⟩] =
      .ok (.wMemwr [0xF800, 0x07E0], [⟨false, 0x11⟩]) := by decide

/-- R69 to R71: `op` in bits 95 to 88, `rsv` zero, A in bits 79 to 64 down to E in bits 15 to 0. -/
theorem test_host_words :
    decodeTableWord 96 0x010000000000000000000000 = some .init ∧
    decodeTableWord 96 0x020000000000000000000000 = some .teardown ∧
    decodeTableWord 96 0x10000000013F000000EF0000 = some (.setwin 0 319 0 239) ∧
    decodeTableWord 96 0x1100012300EFF80000000000 = some (.drawpixel 291 239 0xF800) ∧
    decodeTableWord 96 0x120007E00000000000000000 = some (.fillscreen 0x07E0) ∧
    decodeTableWord 96 0x130000010002FFFF00040003 = some (.drawtext 1 2 0xFFFF 4 3) := by decide

/-- R73: an unknown `op`, a non-zero `rsv`, a non-zero unused field. -/
theorem test_host_refused :
    decodeHost [0x00, 0, 0, 0, 0, 0, 0, 0, 0, 0, 0, 0] = .error (.unknownOp 0) ∧
    decodeHost [0x01, 1, 0, 0, 0, 0, 0, 0, 0, 0, 0, 0] = .error .reservedNotZero ∧
    decodeHost [0x11, 0, 0, 1, 0, 1, 0, 1, 0, 1, 0, 0] = .error .unusedNotZero := by decide

/-! ## One step of each instruction, against the vectors -/

/-- V-INIT-1. -/
theorem test_init :
    (after (exec .init powered)).map (fun t => (t.tr.length, t.lc, t.pins, t.status, t.pc)) =
      some (22, .ready, ⟨some false, some true, some true⟩, ⟨.ok, 0⟩, 12) := by decide

/-- V-INIT-1, the receiver: the state `ready` starts from. -/
theorem test_init_receiver : (after (exec .init powered)).map (fun t => t.rx) = some ready.rx := by decide

/-- V-TD-1. -/
theorem test_teardown :
    (after (exec .teardown ready)).map (fun t => (t.tr, t.lc, t.claimed, t.status)) =
      some ([.release .bl, .release .rst, .release .dc, .closeBus], .uninitialized, ⟨false, false, false, false⟩,
        ⟨.ok, 0⟩) := by decide

/-- R90: another order of the releases. -/
theorem test_teardown_other_order :
    (after (exec .teardown { ready with
        par := { par1 with releaseOrder := [.bus, .dc, .bl, .rst] },
        claimed := ⟨true, true, false, true⟩ })).map (fun t => (t.tr, t.claimed)) =
      some ([.closeBus, .release .dc, .release .bl], ⟨false, false, false, false⟩) := by decide

/-- V-WIN-1. -/
theorem test_setwin :
    (after (exec (.setwin 0 319 0 239) ready)).map (fun t => (t.tr, t.rx.remaining)) =
      some ([.pin .dc false, .xfer [0x2A] .ok, .pin .dc true, .xfer [0x00, 0x00, 0x01, 0x3F] .ok,
        .pin .dc false, .xfer [0x2B] .ok, .pin .dc true, .xfer [0x00, 0x00, 0x00, 0xEF] .ok,
        .pin .dc false, .xfer [0x2C] .ok], 76800) := by decide

/-- V-WIN-2. -/
theorem test_setwin_bad :
    (after (exec (.setwin 5 4 0 0) ready)).map (fun t => (t.status, t.rx.desync)) = some (⟨.ok, 0⟩, true) := by decide

/-- V-PIX-1. -/
theorem test_drawpixel :
    (after (exec (.drawpixel 291 239 0xF800) ready)).map (fun t => (t.tr.length, t.pins.dc, pixels t, t.rx.remaining)) =
      some (12, some true, [⟨291, 239, 0xF800⟩], 0) := by decide

/-- V-CHUNK-13, the row of CHUNK_MAX 3. -/
theorem test_drawpixel_small_chunks :
    (after (exec (.drawpixel 291 239 0xF800) { ready with par := { par1 with chunkMax := 3 } })).map
      (fun t => (t.tr.filter Event.isXfer, pixels t)) =
      some ([.xfer [0x2A] .ok, .xfer [0x01, 0x23, 0x01] .ok, .xfer [0x23] .ok, .xfer [0x2B] .ok,
        .xfer [0x00, 0xEF, 0x00] .ok, .xfer [0xEF] .ok, .xfer [0x2C] .ok, .xfer [0xF8, 0x00] .ok],
        [⟨291, 239, 0xF800⟩]) := by decide

/-- V-FILL-4 (its first failing transfer that a small test can reach): the window's third transfer rejected. -/
theorem test_fillscreen_fails :
    (after (exec (.fillscreen 0xF800) { ready with env := [.ok, .ok, .fail] })).map
      (fun t => (t.tr.length, t.status, t.lc, t.rx.desync)) =
      some (6, ⟨.transferFailure, 2⟩, .failed, true) := by decide

/-- V-GATE-1. -/
theorem test_fillscreen_refused :
    (after (exec (.fillscreen 0) powered)).map (fun t => (t.status, t.tr, t.lc)) =
      some (⟨.badState, 0⟩, [], .uninitialized) := by decide

set_option maxRecDepth 8192 in
/-- V-TEXT-1, its first two characters: "A" and a newline. -/
theorem test_drawtext :
    (after (exec (.drawtext 0 0 0xFFFF 0 2) (withText [0x41, 0x0A]))).map
      (fun t => (t.tr.length, t.dp.cx, t.dp.cy, pixels t)) =
      some (36, 0, 10, [⟨0, 0, 0xFFFF⟩, ⟨2, 0, 0xFFFF⟩, ⟨7, 7, 0xFFFF⟩]) := by decide

/-- V-TEXT-4 and R134: 0x80 draws glyph 0x3F, and from x = 312 the cursor wraps. -/
theorem test_drawtext_fallback_wraps :
    (after (exec (.drawtext 312 0 1 0 1) (withText [0x80]))).map (fun t => (t.dp.cx, t.dp.cy, pixels t)) =
      some (312, 10, [⟨319, 0, 1⟩]) := by decide

/-- R104 and R152. -/
theorem test_wPixfmt :
    (after (exec (.wPixfmt 0x05) ready)).map (fun t => (t.tr, t.rx.pixfmt)) =
      some ([.pin .dc false, .xfer [0x3A] .ok, .pin .dc true, .xfer [0x05] .ok], some 0x05) := by decide

/-- R105 and R153. -/
theorem test_wMemctl :
    (after (exec (.wMemctl 0x60) ready)).map (fun t => (t.tr, t.rx.madctl)) =
      some ([.pin .dc false, .xfer [0x36] .ok, .pin .dc true, .xfer [0x60] .ok], some 0x60) := by decide

/-- R106 and R154. -/
theorem test_wSlpout :
    (after (exec .wSlpout ready)).map (fun t => (t.tr, t.rx.sinceSlpout)) =
      some ([.pin .dc false, .xfer [0x11] .ok], some 0) := by decide

/-- R155: display-on right after sleep-out leaves the visual output undefined. -/
theorem test_wDispon :
    (after (exec .wDispon { ready with rx := { ready.rx with sinceSlpout := some 119 } })).map
      (fun t => (t.rx.displayOn, t.rx.visualUndefined, t.rx.desync)) = some (true, true, false) := by decide

/-- R108 and R156. -/
theorem test_wColset :
    (after (exec (.wColset 0 319) ready)).map (fun t => (t.tr, t.rx.xs, t.rx.xe, t.rx.winseq)) =
      some ([.pin .dc false, .xfer [0x2A] .ok, .pin .dc true, .xfer [0x00, 0x00, 0x01, 0x3F] .ok], some 0, some 319,
        1) := by decide

/-- R157: a row set with no column set before it does not count. -/
theorem test_wRowset :
    (after (exec (.wRowset 0 239) ready)).map (fun t => (t.rx.ys, t.rx.ye, t.rx.winseq)) = some (some 0, some 239, 0) := by
  decide

/-- V-RX-2: four pixels in row-major order. -/
theorem test_wMemwr :
    (after (exec (.wMemwr [1, 2, 3, 4]) windowed)).map (fun t => (pixels t, t.rx.remaining, t.rx.px, t.rx.py, t.rx.desync)) =
      some ([⟨10, 20, 1⟩, ⟨11, 20, 2⟩, ⟨10, 21, 3⟩, ⟨11, 21, 4⟩], 0, 10, 22, false) := by decide

/-- V-RX-2: one more pixel is Desync. -/
theorem test_wMemwr_excess :
    (after (exec (.wMemwr [1, 2, 3, 4, 5]) windowed)).map (fun t => t.rx.desync) = some true := by decide

/-- R37, R69: the words of the table run as the first instruction after reset (log 2). -/
theorem test_first_instruction :
    (after (step (State.reset.withFetchWord 96 0x110001000200030000000000))).map (fun t => (t.status, t.pc)) =
      some (⟨.badState, 0⟩, 12) ∧
    (after (step (State.reset.withFetchWord 96 0xFF0000000000000000000000))).map (fun t => (t.status, t.pc)) =
      some (⟨.illegalOp, 255⟩, 12) := by decide

/-- R111: a framed transfer of two bytes is one transfer, whatever is left stays in the work list, and a rejected one discards
it. -/
theorem test_step_takes_the_head :
    let s : State := { ready with work := [.ft true [0xF8, 0x00], .ft false [0x2A]] }
    (after (step s)).map (fun t => (t.tr, t.work, t.statusLog)) =
      some ([.pin .dc true, .xfer [0xF8, 0x00] .ok], [.ft false [0x2A]], []) ∧
    (after (step { s with env := [.fail] })).map (fun t => (t.tr, t.work, t.status, t.lc)) =
      some ([.pin .dc true, .xfer [0xF8, 0x00] .fail], [], ⟨.transferFailure, 0⟩, .failed) := by decide

/-- V-PIX-1 in small steps: six framed transfers, three loads of SLEN, then DONE. -/
theorem test_small_steps :
    (after (start (.drawpixel 291 239 0xF800) ready)).map (fun t => (t.work.length, t.tr)) = some (10, []) ∧
    ((after (start (.drawpixel 291 239 0xF800) ready)).bind fun t => after (steps 10 t)).map
      (fun t => (t.tr.length, pixels t, t.status, t.pc, t.work)) = some (12, [⟨291, 239, 0xF800⟩], ⟨.ok, 0⟩, 24, []) := by
  decide

/-- V-INIT-1 in small steps: with everything acquired the list ends with LC `ready` and DONE. -/
theorem test_small_steps_init :
    (after (start .init powered)).map (fun t => (t.work.length, t.tr.length, t.lc)) = some (16, 4, .initializing) ∧
    ((after (start .init powered)).bind fun t => after (steps 14 t)).map (fun t => (t.lc, t.tr.length, t.work)) =
      some (.initializing, 22, [.ready, .done]) ∧
    ((after (start .init powered)).bind fun t => after (steps 16 t)).map (fun t => (t.lc, t.status, t.rx)) =
      some (.ready, ⟨.ok, 0⟩, ready.rx) := by decide

/-- R124: the window machine, with each control state's framed transfer. -/
theorem test_window_machine :
    (after (start (.setwin 0 319 0 239) ready)).map (fun t => t.work) =
      some [.ft false [0x2A], .load 4, .ft true [0x00, 0x00, 0x01, 0x3F],
        .ft false [0x2B], .load 4, .ft true [0x00, 0x00, 0x00, 0xEF], .ft false [0x2C], .done] := by decide

/-- R146, T_FETCH on V-TEXT-1's three characters: a glyph's rows begin, a newline moves the cursor and CI, and at CI = len the text
is done. -/
theorem test_expander_fetch :
    let at_ (ci : BitVec 16) : State :=
      { withText [0x41, 0x0A, 0x42] with
        dp := ⟨0, 0, 0, 0, 0xFFFF, 8, 0, 3⟩, gx := ⟨ci, 0, 5, 5, 0⟩, work := [.text .fetch 0 3, .done] }
    (after (step (at_ 0))).map (fun t => (t.gx, t.work)) = some (⟨0, 0x41, 0, 5, 0⟩, [.text .row 0 3, .done]) ∧
    (after (step (at_ 1))).map (fun t => (t.gx.ci, t.dp.cx, t.dp.cy, t.tr, t.work)) =
      some (2, 3, 10, [], [.text .fetch 0 3, .done]) ∧
    (after (step (at_ 3))).map (fun t => (t.gx.ci, t.work)) = some (3, [.done]) := by decide

/-- R146, T_ROW reads ROWB; T_BIT on V-TEXT-1's pixel (2, 0), in the middle and at the end of a row, and at the end of a glyph. -/
theorem test_expander_row_and_bit :
    let at_ (gr gc : BitVec 3) (q : TextPhase) : State :=
      { withText [0x41] with
        dp := ⟨0, 0, 0, 0, 0xFFFF, 0, 0, 0⟩, gx := ⟨0, 0x41, gr, gc, 0x05⟩, work := [.text q 0 1, .done] }
    (after (step (at_ 7 3 .row))).map (fun t => (t.gx.rowb, t.gx.gc, t.work)) = some (0x80, 0, [.text .bit 0 1, .done]) ∧
    (after (step (at_ 0 2 .bit))).map (fun t => (t.dp.x0, t.dp.y1, t.tr, t.work)) =
      some (2, 0, [], [.ft false [0x2A], .load 4, .ft true [0, 2, 0, 2], .ft false [0x2B], .load 4, .ft true [0, 0, 0, 0],
        .ft false [0x2C], .load 2, .ft true [0xFF, 0xFF], .text .pixelDone 0 1, .done]) ∧
    (after (step (at_ 0 2 .pixelDone))).map (fun t => (t.gx.gc, t.work)) = some (3, [.text .bit 0 1, .done]) ∧
    (after (step (at_ 0 7 .bit))).map (fun t => (t.gx.gr, t.work)) = some (1, [.text .row 0 1, .done]) ∧
    (after (step (at_ 7 7 .bit))).map (fun t => t.work) = some [.text .adv 0 1, .done] := by decide

/-- R146, T_ADV: the wrap of R134 at CX = 312, and none at 304. -/
theorem test_expander_advance :
    let at_ (cx : Half) : State :=
      { ready with dp := ⟨0, 0, 0, 0, 1, cx, 20, 5⟩, gx := ⟨7, 0, 7, 7, 0⟩, work := [.text .adv 0 9, .done] }
    (after (step (at_ 304))).map (fun t => (t.dp.cx, t.dp.cy, t.gx.ci, t.work)) = some (312, 20, 8, [.text .fetch 0 9, .done]) ∧
    (after (step (at_ 312))).map (fun t => (t.dp.cx, t.dp.cy, t.gx.ci)) = some (5, 30, 8) := by decide

/-- R7: with CHUNK_MAX 0 not even the idle step at the end of a program has a meaning. -/
theorem test_ill_formed_idle :
    step { State.reset with par := { par1 with chunkMax := 0 } } = .refused .illFormedConfig ∧
    step { State.reset with par := par1 } = .next { State.reset with par := par1 } := ⟨rfl, rfl⟩

/-- D29, R125, V-RX-8: the release of RST sets Desync and leaves every other field at its power-on value; the reset pulse of the next
INIT clears it. -/
theorem test_release_of_rst :
    ready.rx.observe (.release .rst) = { Receiver.powerOn (some false) none (some true) with desync := true } ∧
    ((ready.rx.observe (.release .rst)).observe (.claim .rst true .ok)).desync = true ∧
    (((ready.rx.observe (.release .rst)).observe (.claim .rst true .ok)).observe (.pin .rst false)).desync = false := by decide

/-- U1, R155: visual_undefined outlives the release of RST and goes with the next reset pulse. -/
theorem test_visual_undefined_is_sticky :
    let r : Receiver := { ready.rx with visualUndefined := true }
    (r.observe (.release .rst)).visualUndefined = true ∧
    ((r.observe (.release .rst)).observe (.claim .rst true .ok)).visualUndefined = true ∧
    ((r.observe (.release .rst)).observe (.pin .rst false)).visualUndefined = false := by decide

/-- R62, R71 against R59 (log 33): 0x11 is W_SLPOUT in wire space and DRAWPIXEL in host space. -/
theorem test_code_0x11_in_both_spaces :
    decodeTableWord 16 0x11 = some .wSlpout ∧ decodeTableWord 96 0x110000010002000300000000 = some (.drawpixel 1 2 3) := by
  decide

/-! ## The assembly notation (R76) -/

theorem test_assembly_operations :
    lineOf "SETWIN     0, 319, 0, 0xEF ; the panel".toList = some (.op (.setwin 0 319 0 239)) ∧
    lineOf "DRAWTEXT 0, 0, 0xFFFF, @0x10, 3".toList = some (.op (.drawtext 0 0 0xFFFF 16 3)) ∧
    lineOf "  ; a comment".toList = some .blank ∧ lineOf "INIT 1".toList = none ∧
    lineOf "FILLSCREEN 65536".toList = none := by decide +kernel

/-- The text and the glyph "A" of V-TEXT-1. -/
theorem test_assembly_directives :
    lineOf ".text 0, \"A\\nB;\\x80\"".toList = some (.text 0 [0x41, 0x0A, 0x42, 0x3B, 0x80]) ∧
    lineOf ".glyph 0x41, 0x05, 0, 0, 0, 0, 0, 0, 0x80".toList = some (.glyph 0x41 [0x05, 0, 0, 0, 0, 0, 0, 0x80]) := by
  decide +kernel

/-! ## Witnesses: each meets all hypotheses of its obligation together -/

theorem answersOk_of_env {s : State} {m n : Nat} (he : s.env = List.replicate m .ok) (hn : n ≤ m) : AnswersOk s n := by
  intro i hi
  have h : s.env[i]? = some .ok := by rw [he]; exact List.getElem?_replicate_of_lt (hi.trans_le hn)
  simp [State.responseAt, h]

theorem failsFirstAt_of_env {s : State} {k : Nat} (he : s.env = List.replicate k .ok ++ [.fail]) : FailsFirstAt s k := by
  constructor
  · intro i hi
    have h : s.env[i]? = some .ok := by
      rw [he, List.getElem?_append_left (by simpa using hi)]; exact List.getElem?_replicate_of_lt hi
    simp [State.responseAt, h]
  · have h : s.env[k]? = some .fail := by rw [he]; simp
    simp [State.responseAt, h]

/-- `s`, whose answer number `k` is the first `fail`. -/
def failingAt (s : State) (k : Nat) : State := { s with env := List.replicate k .ok ++ [.fail] }

theorem failingAt_failsFirst (s : State) (k : Nat) : FailsFirstAt (failingAt s k) k := failsFirstAt_of_env rfl

theorem window_length (x0 x1 y0 y1 : Half) : (windowWork 4096 x0 x1 y0 y1).length = 5 := rfl

theorem pixel_length (x y c : Half) : (pixelWork 4096 x y c).length = 6 := rfl

theorem repColor_length (n : Nat) (c : Half) : (repColor n c).length = n * 2 := by
  rw [repColor, List.length_flatten, List.map_replicate, List.sum_replicate_nat]; rfl

/-- V-CHUNK-14, the row of CHUNK_MAX 4096. -/
theorem fill_length (c : Half) : (fillWork 4096 c).length = 43 := by
  rw [fillWork, List.length_append, window_length, dataWork, List.length_map, chunks_length _ (by decide), repColor_length]

theorem ready_synced : ready.rx.Synced := ⟨⟨rfl, rfl, by decide⟩, ⟨rfl, rfl⟩, rfl, rfl⟩

theorem witness_EncodedInstructionsDecodeBack :
    (Instr.wMemwr (List.replicate 76800 0)).wellFormed = true ∧ (Instr.setwin 0xFFFF 0 0xFFFF 0).wellFormed = true :=
  ⟨test_a_panel_of_pixels_well_formed, rfl⟩

theorem witness_DescriptorsHaveOneEncoding :
    decodeHost [0x12, 0, 0xFF, 0xFF, 0, 0, 0, 0, 0, 0, 0, 0] = .ok (.fillscreen 0xFFFF) := by decide

theorem witness_WireInstructionsHaveOneEncoding :
    decodeWire [⟨false, 0x29⟩, ⟨false, 0x11⟩] = .ok (.wDispon, [⟨false, 0x11⟩]) := by decide

theorem witness_StepRunsTheDescriptorAtPc :
    (booted.Between ∧ booted.pc.toNat < 12 * booted.progLen ∧ decodeHost booted.descriptor = .ok .init) ∧
    (State.reset.Between ∧ State.reset.par.ok = true ∧ 12 * State.reset.progLen ≤ State.reset.pc.toNat) := by decide

theorem witness_StepRunsTheNextWireInstruction :
    let s : State := { ready with stream := [⟨false, 0x11⟩, ⟨false, 0x29⟩] }
    s.work = [] ∧ decodeWire s.stream = .ok (.wSlpout, [⟨false, 0x29⟩]) := by decide

/-- A state for each clause of `StepTakesTheHeadOfTheWork`; those of the expander at the values where its clauses meet. -/
theorem witness_StepTakesTheHeadOfTheWork :
    let with_ (ws : List Work) : State := { ready with work := ws }
    let text (bytes : List Byte) (ci : BitVec 16) (gr gc : BitVec 3) (q : TextPhase) : State :=
      { withText bytes with gx := ⟨ci, 0x80, gr, gc, 0x80⟩, work := [.text q 0 1] }
    let stray : State := { ready with stream := [⟨true, 0⟩, ⟨false, 0x29⟩] }
    (ready.par.ok = true ∧ (∀ ws, (with_ ws).par.ok = true ∧ (with_ ws).work = ws ∧ (with_ ws).responseAt 0 = .ok) ∧
      (failingAt (with_ [.ft true [0xF8, 0x00]]) 0).responseAt 0 = .fail) ∧
    (∀ bytes ci gr gc q, (text bytes ci gr gc q).par.ok = true ∧ (text bytes ci gr gc q).work = [.text q 0 1]) ∧
    ((text [0x0A] 1 0 0 .fetch).gx.ci = 1 ∧ (text [0x0A] 0 0 0 .fetch).textAt 0 = 0x0A ∧
      (text [0x41] 0 0 0 .fetch).textAt 0 ≠ 0x0A) ∧
    ((text [0x41] 0 0 7 .bit).gx.rowb.getLsbD 7 = true ∧ (text [0x41] 0 7 6 .bit).gx.rowb.getLsbD 6 = false) ∧
    (stray.par.ok = true ∧ stray.work = [] ∧ stray.stream = [⟨true, 0⟩, ⟨false, 0x29⟩] ∧
      (∃ e, decodeWire stray.stream = .error e) ∧ AnswersOk stray 1) :=
  ⟨⟨by decide, fun _ => ⟨show par1.ok = true by decide, rfl, rfl⟩, rfl⟩,
    fun _ _ _ _ _ => ⟨show par1.ok = true by decide, rfl⟩, by decide, by decide, by decide, rfl, rfl, ⟨_, rfl⟩,
    answersOk_of_env (m := 30) rfl (by decide)⟩

/-- An `op` that is not in the table, in `ready`. -/
def illegal : State := ready.withFetchWord 96 0xFF0000000000000000000000

theorem witness_IllegalDescriptorsEndWithIllegalOp :
    illegal.par.ok = true ∧ illegal.Between ∧ illegal.pc.toNat < 12 * illegal.progLen ∧
    (∀ i : Instr, encode i ≠ .host illegal.descriptor) := by
  refine ⟨by decide, ⟨rfl, rfl⟩, by decide, fun i h => ?_⟩
  have hd : illegal.descriptor = [0xFF, 0, 0, 0, 0, 0, 0, 0, 0, 0, 0, 0] := by decide
  rw [hd] at h
  cases i <;> simp [encode, descriptorOf] at h

theorem witness_EveryHostOperationReportsOneStatus :
    Instr.init.isWire = false ∧ (∃ t, exec .init powered = .next t) ∧
    (∃ t, exec .init (failingAt powered 4) = .next t ∧ t.status.status = .transferFailure) := by
  refine ⟨rfl, ⟨_, rfl⟩, _, rfl, by decide⟩

theorem witness_InitRunsTheWholeSequence :
    powered.par.ok = true ∧ powered.lc = .uninitialized ∧ AnswersOk powered 10 :=
  ⟨by decide, rfl, answersOk_of_env (m := 30) rfl (by decide)⟩

theorem witness_InitConfiguresTheReceiver :
    powered.par.ok = true ∧ powered.lc = .uninitialized ∧ AnswersOk powered 10 := witness_InitRunsTheWholeSequence

theorem witness_InitStopsAtARefusedResource : ∀ k ∈ [0, 3],
    (failingAt powered k).par.ok = true ∧ (failingAt powered k).lc = .uninitialized ∧
    (failingAt powered k).claimed = ⟨false, false, false, false⟩ ∧ k < 4 ∧ FailsFirstAt (failingAt powered k) k :=
  fun k hk => ⟨show par1.ok = true by decide, rfl, rfl, by revert k; decide, failingAt_failsFirst _ _⟩

theorem witness_InitStopsAtARejectedTransfer : ∀ k ∈ [0, 5],
    (failingAt powered (4 + k)).par.ok = true ∧ (failingAt powered (4 + k)).lc = .uninitialized ∧ k < 6 ∧
    FailsFirstAt (failingAt powered (4 + k)) (4 + k) :=
  fun k hk => ⟨show par1.ok = true by decide, rfl, by revert k; decide, failingAt_failsFirst _ _⟩

theorem witness_TeardownReleasesWhatIsClaimed :
    ready.par.ok = true ∧ ready.claimed = ⟨true, true, true, true⟩ ∧ State.reset.par.ok = true := by decide

theorem witness_TeardownIsIdempotent : ready.par.ok = true ∧ ready.PinsFollowClaims := ⟨by decide, rfl, rfl, rfl⟩

theorem witness_TeardownAndInitRecover :
    ({ ready with lc := .failed } : State).par.ok = true ∧ AnswersOk { ready with lc := .failed } 10 :=
  ⟨by decide, answersOk_of_env (m := 30) rfl (by decide)⟩

theorem witness_OperationsOutsideTheirStateAreRefused :
    (ready.par.ok = true ∧ Instr.init = .init ∧ ready.lc ≠ .uninitialized) ∧
    (State.reset.par.ok = true ∧ (Instr.setwin 0 0 0 0).isDrawing = true ∧ State.reset.lc ≠ .ready) := by decide

theorem witness_IllFormedConfigurationsAreRefused : ({ powered with par := { par1 with chunkMax := 0 } } : State).par.ok = false := by
  decide

theorem witness_SetwinSendsTheWindowProgram :
    ready.par.ok = true ∧ ready.lc = .ready ∧ AnswersOk ready (windowWork ready.par.chunkMax 0xFFFF 0 0 0xFFFF).length :=
  ⟨by decide, rfl, answersOk_of_env (m := 30) rfl (by decide)⟩

theorem witness_SetwinOpensItsWindow :
    ready.par.ok = true ∧ ready.lc = .ready ∧ ready.rx.Synced ∧ WindowInPanel 0 319 0 239 ∧ WindowInPanel 319 319 239 239 ∧
    AnswersOk ready (windowWork ready.par.chunkMax 0 319 0 239).length :=
  ⟨by decide, rfl, ready_synced, by unfold WindowInPanel; decide, by unfold WindowInPanel; decide,
    answersOk_of_env (m := 30) rfl (by decide)⟩

theorem witness_SetwinOutsideThePanelLosesTheReceiver :
    ready.par.ok = true ∧ ready.lc = .ready ∧ ready.rx.Synced ∧ ¬WindowInPanel 0 320 0 239 ∧ ¬WindowInPanel 0 0 1 0 ∧
    AnswersOk ready (windowWork ready.par.chunkMax 0 320 0 239).length :=
  ⟨by decide, rfl, ready_synced, by unfold WindowInPanel; decide, by unfold WindowInPanel; decide,
    answersOk_of_env (m := 30) rfl (by decide)⟩

theorem witness_DrawpixelSendsOnePixel :
    ready.par.ok = true ∧ ready.lc = .ready ∧ AnswersOk ready (pixelWork ready.par.chunkMax 0xFFFF 240 1).length :=
  ⟨by decide, rfl, answersOk_of_env (m := 30) rfl (by decide)⟩

theorem witness_DrawpixelWritesExactlyOnePixel :
    ready.par.ok = true ∧ ready.lc = .ready ∧ ready.rx.Synced ∧ InPanel 319 239 ∧
    AnswersOk ready (pixelWork ready.par.chunkMax 319 239 0xABCD).length :=
  ⟨by decide, rfl, ready_synced, by unfold InPanel; decide, answersOk_of_env (m := 30) rfl (by decide)⟩

theorem witness_DrawingStopsAtARejectedTransfer :
    (∀ k ∈ [0, 4], (failingAt ready k).par.ok = true ∧ (failingAt ready k).lc = .ready ∧
      k < (windowWork (failingAt ready k).par.chunkMax 0 0 0 0).length ∧ FailsFirstAt (failingAt ready k) k) ∧
    (5 < (pixelWork (failingAt ready 5).par.chunkMax 0 0 0).length ∧ FailsFirstAt (failingAt ready 5) 5) ∧
    (42 < (fillWork (failingAt ready 42).par.chunkMax 0).length ∧ FailsFirstAt (failingAt ready 42) 42) ∧
    (5 < (textWork (failingAt (withText [0x80]) 5) 0 0 0 0 1).length ∧ FailsFirstAt (failingAt (withText [0x80]) 5) 5) := by
  refine ⟨fun k hk => ⟨show par1.ok = true by decide, rfl, ?_, failingAt_failsFirst _ _⟩,
    ⟨by decide, failingAt_failsFirst _ _⟩, ⟨?_, failingAt_failsFirst _ _⟩, by decide, failingAt_failsFirst _ _⟩
  · show k < (windowWork 4096 0 0 0 0).length
    revert k; decide
  · show 42 < (fillWork 4096 0).length
    rw [fill_length]; decide

/-- `ready`, with answers for a fill. -/
def readyToFill : State := { ready with env := List.replicate 43 .ok }

theorem witness_FillscreenSendsThePanel :
    readyToFill.par.ok = true ∧ readyToFill.lc = .ready ∧ readyToFill.par.chunkMax = 4096 ∧
    AnswersOk readyToFill (fillWork readyToFill.par.chunkMax 0x07E0).length :=
  ⟨by decide, rfl, rfl, answersOk_of_env (m := 43) rfl (fill_length 0x07E0).le⟩

theorem witness_FillscreenFillsThePanel :
    readyToFill.par.ok = true ∧ readyToFill.lc = .ready ∧ readyToFill.rx.Synced ∧
    AnswersOk readyToFill (fillWork readyToFill.par.chunkMax 0x07E0).length :=
  ⟨by decide, rfl, ready_synced, answersOk_of_env (m := 43) rfl (fill_length 0x07E0).le⟩

theorem witness_DrawtextDrawsTheReferenceText :
    (withText [0x80, 0x0A]).par.ok = true ∧ (withText [0x80, 0x0A]).lc = .ready ∧
    AnswersOk (withText [0x80, 0x0A]) (textWork (withText [0x80, 0x0A]) 312 0 1 0 2).length :=
  ⟨by decide, rfl, answersOk_of_env (m := 30) rfl (by decide)⟩

/-- Glyph "A" of ROM T in the last corner that holds it (V-TEXT-1's three pixels). -/
theorem corner_pixels : textPixels (withText [0x41]) 312 232 0 1 = [(312, 232), (314, 232), (319, 239)] := by
  decide +kernel

theorem corner_length : (textWork (withText [0x41]) 312 232 1 0 1).length = 18 := by decide +kernel

theorem witness_DrawtextChangesExactlyTheLitPixels :
    (withText [0x41]).par.ok = true ∧ (withText [0x41]).lc = .ready ∧ (withText [0x41]).rx.Synced ∧
    (∀ p ∈ textPixels (withText [0x41]) 312 232 0 1, InPanel p.1 p.2) ∧
    AnswersOk (withText [0x41]) (textWork (withText [0x41]) 312 232 1 0 1).length :=
  ⟨by decide, rfl, ready_synced, by rw [corner_pixels]; simp [InPanel],
    answersOk_of_env (m := 30) rfl (corner_length.le.trans (by decide))⟩

/-- Each of the four drawing operations after a SETWIN; the text lights three pixels. -/
theorem witness_DrawingAfterSetwinLosesTheReceiver :
    (∀ i ∈ [Instr.setwin 0 0 0 0, .drawpixel 0 0 1], ready.par.ok = true ∧ ready.lc = .ready ∧ ready.rx.Synced ∧
      WindowInPanel 0 1 0 0 ∧ i.isDrawing = true ∧ drawWork ready i ≠ [] ∧
      AnswersOk ready ((windowWork ready.par.chunkMax 0 1 0 0).length + (drawWork ready i).length)) ∧
    (∃ s : State, s.par.ok = true ∧ s.lc = .ready ∧ s.rx.Synced ∧ drawWork s (.fillscreen 1) ≠ [] ∧
      AnswersOk s ((windowWork s.par.chunkMax 0 1 0 0).length + (drawWork s (.fillscreen 1)).length)) ∧
    (let s := withText [0x41]
     s.par.ok = true ∧ s.lc = .ready ∧ s.rx.Synced ∧ drawWork s (.drawtext 312 232 1 0 1) ≠ [] ∧
      AnswersOk s ((windowWork s.par.chunkMax 0 1 0 0).length + (drawWork s (.drawtext 312 232 1 0 1)).length)) := by
  refine ⟨fun i hi => ?_, ⟨{ ready with env := List.replicate 48 .ok }, by decide, rfl, ready_synced,
    fun h => ?_, answersOk_of_env (m := 48) rfl ?_⟩, by decide, rfl, ready_synced, fun h => ?_,
    answersOk_of_env (m := 30) rfl ?_⟩
  · simp only [List.mem_cons, List.not_mem_nil, or_false] at hi
    rcases hi with rfl | rfl <;>
      exact ⟨by decide, rfl, ready_synced, by unfold WindowInPanel; decide, rfl, by decide,
        answersOk_of_env (m := 30) rfl (by decide)⟩
  · have h : fillWork 4096 1 = [] := h
    exact absurd (fill_length 1) (by rw [h]; decide)
  · rw [show drawWork _ (.fillscreen 1) = fillWork 4096 1 from rfl, fill_length]
    decide
  · have h : textWork (withText [0x41]) 312 232 1 0 1 = [] := h
    exact absurd corner_length (by rw [h]; decide)
  · rw [show drawWork _ (.drawtext 312 232 1 0 1) = textWork (withText [0x41]) 312 232 1 0 1 from rfl, corner_length]
    decide

theorem witness_EmptyTextAndNewlineEmitNothing :
    ready.par.ok = true ∧ ready.lc = .ready ∧ (withText [0x0A]).par.ok = true ∧ (withText [0x0A]).lc = .ready ∧
    (withText [0x0A]).textAt 0 = 0x0A := by decide

theorem fallback_length : (textWork (withText [0x80]) 304 0 1 0 1).length = 6 := by decide +kernel

theorem fallback_length_wrap : (textWork (withText [0x80]) 305 0 1 0 1).length = 6 := by decide +kernel

/-- The two sides of the wrap (R134). -/
theorem witness_CursorAdvancesAndWraps :
    (withText [0x80]).par.ok = true ∧ (withText [0x80]).lc = .ready ∧ (withText [0x80]).textAt 0 ≠ 0x0A ∧
    ((304 : Half).toNat + 8 + 8 ≤ 320 ∧ 320 < (305 : Half).toNat + 8 + 8) ∧
    AnswersOk (withText [0x80]) (textWork (withText [0x80]) 304 0 1 0 1).length ∧
    AnswersOk (withText [0x80]) (textWork (withText [0x80]) 305 0 1 0 1).length :=
  ⟨by decide, rfl, by decide, by decide, answersOk_of_env (m := 30) rfl (fallback_length.le.trans (by decide)),
    answersOk_of_env (m := 30) rfl (fallback_length_wrap.le.trans (by decide))⟩

/-- A text of 40 spaces, with a blank glyph for the space. -/
def spaces : State :=
  { ready.loadGlyph 0x20 [0, 0, 0, 0, 0, 0, 0, 0] with text := (List.range 40).map fun k => (k, 0x20) }

theorem spaces_codes : ∀ n ∈ [1, 40], ∀ ch ∈ textCodes spaces 0 (BitVec.ofNat 16 n), ch = 0x20 := by decide +kernel

theorem spaces_blank (p : Half × Half) : charPixels spaces p 0x20 = [] := by
  have h : ∀ r ∈ List.range 8, ∀ c ∈ List.range 8, (spaces.glyphRow 0x20 (BitVec.ofNat 3 r)).getLsbD c = false := by
    decide +kernel
  have e : charPixels spaces p 0x20 = glyphPixels spaces p 0x20 := rfl
  rw [e, glyphPixels, List.flatMap_eq_nil_iff]
  intro r hr
  rw [List.flatMap_eq_nil_iff]
  intro c hc
  rw [h r hr c hc]
  rfl

theorem spaces_pixels (l : Half) (cs : List Byte) :
    ∀ p, (∀ ch ∈ cs, ch = 0x20) → (renderText spaces l p cs).1 = [] := by
  induction cs with
  | nil => intro p _; rfl
  | cons ch cs ih =>
    intro p h
    obtain ⟨rfl, h'⟩ := List.forall_mem_cons.mp h
    rw [renderText, spaces_blank, ih _ h']
    rfl

theorem witness_FortyCharactersFillALine : ∀ n ∈ [1, 40],
    spaces.par.ok = true ∧ spaces.lc = .ready ∧ (∀ ch ∈ textCodes spaces 0 (BitVec.ofNat 16 n), ch ≠ 0x0A) ∧
    (BitVec.ofNat 16 n).toNat ≤ 40 ∧ AnswersOk spaces (textWork spaces 0 0 1 0 (BitVec.ofNat 16 n)).length := by
  intro n hn
  refine ⟨show par1.ok = true by decide, rfl, fun ch h => ?_, by revert n; decide, answersOk_of_env (m := 30) rfl ?_⟩
  · rw [spaces_codes n hn ch h]; decide
  · rw [textWork, textPixels, spaces_pixels _ _ _ (spaces_codes n hn)]; decide

theorem witness_CodesFrom128AreRenderedAsQuestionMarks :
    (withText [0x80]).par.ok = true ∧ 128 ≤ ((withText [0x80]).textAt 0).toNat ∧
    128 ≤ ((withText [0xFF]).textAt 0).toNat := by decide

theorem witness_WireInstructionsEmitTheirTransfers :
    let s : State := { ready with stream := [⟨false, 0x29⟩] }
    ready.par.ok = true ∧ ready.Between ∧ ¬s.Between ∧ (Instr.wMemwr [1, 2]).isWire = true ∧
    AnswersOk ready (wireWork ready.par.chunkMax (.wMemwr [1, 2])).length ∧
    AnswersOk s (wireWork s.par.chunkMax .wSlpout).length :=
  ⟨by decide, ⟨rfl, rfl⟩, by decide, rfl, answersOk_of_env (m := 30) rfl (by decide),
    answersOk_of_env (m := 30) rfl (by decide)⟩

theorem witness_WireInstructionsPutTheirEncodingOnTheWire :
    encode .wDispon = .wire [⟨false, 0x29⟩] ∧ encode (.wMemwr [0xF800]) = .wire [⟨false, 0x2C⟩, ⟨true, 0xF8⟩, ⟨true, 0⟩] ∧
    ready.par.ok = true ∧ AnswersOk ready (wireWork ready.par.chunkMax (.wMemwr [0xF800])).length ∧
    AnswersOk ready (wireWork ready.par.chunkMax .wDispon).length :=
  ⟨by decide, by decide, by decide, answersOk_of_env (m := 30) rfl (by decide), answersOk_of_env (m := 30) rfl (by decide)⟩

theorem witness_WireInstructionsStopAtARejectedTransfer : ∀ k ∈ [0, 1],
    (Instr.wColset 0 319).isWire = true ∧ (failingAt ready k).par.ok = true ∧
    k < (wireWork (failingAt ready k).par.chunkMax (.wColset 0 319)).length ∧ FailsFirstAt (failingAt ready k) k := by
  intro k hk
  refine ⟨rfl, show par1.ok = true by decide, ?_, failingAt_failsFirst _ _⟩
  show k < (wireWork 4096 (.wColset 0 319)).length
  revert k; decide

/-- `ready`, 10 ms after its reset pulse. -/
def justReset : State := { ready with rx := { ready.rx with quiet := 10 } }

theorem justReset_listens : justReset.rx.Listening ∧ justReset.rx.AtRest := ⟨⟨rfl, rfl, by decide⟩, rfl, rfl⟩

theorem witness_ReceiverStoresFormatAndOrientation :
    justReset.par.ok = true ∧ justReset.rx.Listening ∧ justReset.rx.AtRest ∧ AnswersOk justReset 2 :=
  ⟨by decide, justReset_listens.1, justReset_listens.2, answersOk_of_env (m := 30) rfl (by decide)⟩

theorem witness_ReceiverWakesAndTurnsOn :
    (justReset.par.ok = true ∧ justReset.rx.Listening ∧ justReset.rx.AtRest ∧ AnswersOk justReset 1) ∧
    (justReset.rx.visualUndefined = false ∧ justReset.rx.sinceSlpout = some 120) ∧
    (∃ s : State, s.par.ok = true ∧ s.rx.Listening ∧ s.rx.AtRest ∧ AnswersOk s 1 ∧ s.rx.sinceSlpout = some 119) :=
  ⟨⟨by decide, justReset_listens.1, justReset_listens.2, answersOk_of_env (m := 30) rfl (by decide)⟩, ⟨rfl, rfl⟩,
    { ready with rx := { ready.rx with sinceSlpout := some 119 } }, by decide, ⟨rfl, rfl, by decide⟩, ⟨rfl, rfl⟩,
    answersOk_of_env (m := 30) rfl (by decide), rfl⟩

theorem witness_ReceiverTakesTheRanges :
    let s : State := { ready with rx := { ready.rx with winseq := 1 } }
    (justReset.par.ok = true ∧ justReset.rx.Listening ∧ justReset.rx.AtRest ∧ AnswersOk justReset 5) ∧
    (s.par.ok = true ∧ s.rx.Listening ∧ s.rx.AtRest ∧ AnswersOk s 5 ∧ s.rx.winseq = 1) :=
  ⟨⟨by decide, justReset_listens.1, justReset_listens.2, answersOk_of_env (m := 30) rfl (by decide)⟩, by decide,
    ⟨rfl, rfl, by decide⟩, ⟨rfl, rfl⟩, answersOk_of_env (m := 30) rfl (by decide), rfl⟩

theorem windowed_synced : windowed.rx.Synced := ⟨⟨rfl, rfl, by decide⟩, ⟨rfl, rfl⟩, rfl, rfl⟩

/-- The window of the last pixel of the panel. -/
def corner : State :=
  { ready with rx := { ready.rx with winseq := 2, xs := some 319, xe := some 319, ys := some 239, ye := some 239 } }

/-- A window filled, one filled in part, one with no pixel, and the last pixel of the panel. -/
theorem witness_MemoryWriteIsRowMajor :
    (∀ cs ∈ [[(1 : Half), 2, 3, 4], [1, 2, 3], []], windowed.par.ok = true ∧ windowed.rx.Synced ∧ windowed.rx.winseq = 2 ∧
      windowed.rx.xs = some 10 ∧ windowed.rx.xe = some 11 ∧ windowed.rx.ys = some 20 ∧ windowed.rx.ye = some 21 ∧
      WindowInPanel 10 11 20 21 ∧ 2 = (11 : Half).toNat - (10 : Half).toNat + 1 ∧
      4 = 2 * ((21 : Half).toNat - (20 : Half).toNat + 1) ∧ cs.length ≤ 4 ∧
      AnswersOk windowed (wireWork windowed.par.chunkMax (.wMemwr cs)).length) ∧
    (corner.par.ok = true ∧ corner.rx.Synced ∧ corner.rx.winseq = 2 ∧ WindowInPanel 319 319 239 239) := by
  refine ⟨fun cs hcs => ?_, by decide, ⟨⟨rfl, rfl, by decide⟩, ⟨rfl, rfl⟩, rfl, rfl⟩, rfl, by unfold WindowInPanel; decide⟩
  simp only [List.mem_cons, List.not_mem_nil, or_false] at hcs
  rcases hcs with rfl | rfl | rfl <;>
    exact ⟨by decide, windowed_synced, rfl, rfl, rfl, rfl, rfl, by unfold WindowInPanel; decide, by decide, by decide,
      by decide, answersOk_of_env (m := 30) rfl (by decide)⟩

/-- V-RX-2 with one pixel fewer: the pointer stands at the last pixel, which is still awaited. -/
theorem test_wMemwr_partial :
    (after (exec (.wMemwr [1, 2, 3]) windowed)).map (fun t => (pixels t, t.rx.remaining, t.rx.px, t.rx.py, t.rx.desync)) =
      some ([⟨10, 20, 1⟩, ⟨11, 20, 2⟩, ⟨10, 21, 3⟩], 1, 11, 21, false) := by decide

/-- One state for each clause of `BadMemoryWritesLoseTheReceiver`. -/
theorem witness_BadMemoryWritesLoseTheReceiver :
    let tooWide : State := { windowed with rx := { windowed.rx with xe := some 320 } }
    let noFormat : State := { windowed with rx := { windowed.rx with pixfmt := none } }
    let noOrientation : State := { windowed with rx := { windowed.rx with madctl := none } }
    (∀ s ∈ [ready, tooWide, noFormat, noOrientation, windowed], s.par.ok = true ∧ s.rx.Listening ∧ s.rx.AtRest ∧
      AnswersOk s (wireWork s.par.chunkMax (.wMemwr [1, 2, 3, 4, 5])).length) ∧
    ready.rx.winseq ≠ 2 ∧ tooWide.rx.windowOk = false ∧ noFormat.rx.pixfmt ≠ some 0x05 ∧ noOrientation.rx.madctl = none ∧
    (windowed.rx.xs = some 10 ∧ windowed.rx.xe = some 11 ∧ windowed.rx.ys = some 20 ∧ windowed.rx.ye = some 21 ∧
      ((11 : Half).toNat - (10 : Half).toNat + 1) * ((21 : Half).toNat - (20 : Half).toNat + 1) <
        [(1 : Half), 2, 3, 4, 5].length) := by
  intro tooWide noFormat noOrientation
  refine ⟨?_, by decide, by decide, by decide, rfl, rfl, rfl, rfl, rfl, by decide⟩
  intro s hs
  simp only [List.mem_cons, List.not_mem_nil, or_false] at hs
  rcases hs with rfl | rfl | rfl | rfl | rfl <;>
    exact ⟨by decide, ⟨rfl, rfl, by decide⟩, ⟨rfl, rfl⟩, answersOk_of_env (m := 30) rfl (by decide)⟩

theorem witness_ResetPulseTiming :
    let low (q : Nat) : Receiver := { Receiver.powerOn none (some false) none with quiet := q }
    (low 9).desync = false ∧ (low 9).rstn = some false ∧ (low 9).quiet < 10 ∧
    (low 10).desync = false ∧ (low 10).rstn = some false ∧ ¬(low 10).quiet < 10 ∧
    (Receiver.powerOn none (some true) none).rstn = some true ∧ (Receiver.powerOn none (some true) none).quiet < 10 ∧
    (Receiver.powerOn none none none).rstn ≠ some true ∧
    (justReset.rx.desync = false ∧ justReset.rx.rstn = some true ∧ 10 ≤ justReset.rx.quiet ∧ justReset.rx.pend = none ∧
      justReset.rx.payloadOpen = false ∧ WireCmd.ofCode 0x3A = some .pixfmt) := by decide

theorem witness_BrokenStreamsLoseTheReceiver :
    let awaiting : Receiver := { ready.rx with pend := some (.pixfmt, []) }
    let drawing : Receiver := { windowed.rx with writing := true, remaining := 1 }
    let full : Receiver := { windowed.rx with writing := true }
    (awaiting.Listening ∧ awaiting.pend ≠ none) ∧ (drawing.Listening ∧ drawing.payloadOpen = true) ∧
    (ready.rx.Listening ∧ WireCmd.ofCode 0x00 = none ∧ ready.rx.pend = none ∧ ready.rx.writing = false) ∧
    (full.Listening ∧ full.pend = none ∧ full.writing = true ∧ full.remaining = 0) :=
  ⟨⟨⟨rfl, rfl, by decide⟩, by decide⟩, ⟨⟨rfl, rfl, by decide⟩, rfl⟩, ⟨⟨rfl, rfl, by decide⟩, rfl, rfl, rfl⟩,
    ⟨rfl, rfl, by decide⟩, rfl, rfl, rfl⟩

theorem witness_DesyncIsStickyUntilReset :
    ready.rx.lose.desync = true ∧ ready.rx.lose.fb = [] ∧ (ready.rx.lose.observe (.pin .rst false)).desync = false ∧
    (ready.rx.lose.observe (.claim .rst false .ok)).desync = false ∧
    ({ ready.rx with visualUndefined := true } : Receiver).visualUndefined = true ∧
    (({ ready.rx with visualUndefined := true } : Receiver).observe (.pin .rst false)).visualUndefined = false :=
  ⟨rfl, rfl, rfl, rfl, rfl, rfl⟩

theorem witness_ChunksPartitionTheStream : 1 ≤ 1 ∧ chunks 1 [0xF8, 0x00] = [[0xF8], [0x00]] := by decide

theorem witness_ChunkSizeIsInvisible :
    (Instr.drawpixel 291 239 0xF800).isDrawing = true ∧
    (∃ t, exec (.drawpixel 291 239 0xF800) ready = .next t ∧ t.status.status = .ok) ∧
    (∃ u, exec (.drawpixel 291 239 0xF800)
        { ready with par := { ready.par with chunkMax := 1 }, env := List.replicate 13 .ok } = .next u ∧
      u.status.status = .ok) :=
  ⟨rfl, of_endsOk (by decide), of_endsOk (by decide)⟩

/-- The invariants hold before a step that has a next state. -/
theorem witness_invariants :
    booted.RxFollowsTrace ∧ booted.Canonical ∧ booted.Aligned ∧ booted.LifecycleOk ∧ booted.BacklightOk ∧ booted.Balanced ∧
    booted.WireOk ∧ ∃ t, step booted = .next t ∧ t.status.status = .ok := by
  have hl : booted.LifecycleOk :=
    ⟨⟨rfl, rfl⟩, by decide, fun _ => rfl, fun h => absurd h (by decide), rfl, rfl, rfl⟩
  refine ⟨rfl, ?_, ⟨⟨rfl, rfl⟩, by decide, by decide, by decide⟩, hl, ⟨hl, by decide, by decide, fun h => absurd h (by decide)⟩,
    ⟨hl, fun l => by cases l <;> rfl, rfl⟩, ⟨⟨rfl, rfl⟩, .inl rfl⟩, of_endsOk (by decide)⟩
  unfold State.Canonical; decide

theorem witness_ReceiverFollowsTheTrace : booted.RxFollowsTrace ∧ ∃ t, step booted = .next t :=
  ⟨witness_invariants.1, _, rfl⟩

theorem witness_MemoriesStayCanonical : booted.Canonical ∧ ∃ t, step booted = .next t :=
  ⟨witness_invariants.2.1, _, rfl⟩

theorem witness_InputsNeverChange : ∃ t, step booted = .next t := ⟨_, rfl⟩

theorem witness_PcStaysAligned : booted.Aligned ∧ ∃ t, step booted = .next t := ⟨witness_invariants.2.2.1, _, rfl⟩

theorem witness_LifecycleStaysLegal : booted.LifecycleOk ∧ ∃ t, step booted = .next t :=
  ⟨witness_invariants.2.2.2.1, _, rfl⟩

theorem witness_BacklightOnlyOverAConfiguredController : booted.BacklightOk ∧ ∃ t, step booted = .next t :=
  ⟨witness_invariants.2.2.2.2.1, _, rfl⟩

theorem witness_EveryResourceIsReleasedOnce : booted.Balanced ∧ ∃ t, step booted = .next t :=
  ⟨witness_invariants.2.2.2.2.2.1, _, rfl⟩

theorem witness_WireStreamKeepsTheDiscipline : booted.WireOk ∧ ∃ t, step booted = .next t :=
  ⟨witness_invariants.2.2.2.2.2.2.1, _, rfl⟩

/-- A whole INIT, and a step that takes the head of a work list. -/
theorem witness_EveryTransferIsFramed :
    let s : State := { ready with work := [.ft true [0xF8, 0x00], .ft false [0x2A]] }
    (booted.WorkOk ∧ ∃ t, step booted = .next t ∧ (t.tr.filter Event.isXfer).length = 6) ∧
    (s.WorkOk ∧ ∃ t, step s = .next t ∧ (t.tr.filter Event.isXfer).length = 1 ∧ t.work ≠ []) := by
  refine ⟨⟨fun w hw => by simp [booted, powered, State.reset, State.loadProgram] at hw, _, rfl, by decide⟩,
    fun w hw => ?_, _, rfl, by decide, by decide⟩
  simp only [List.mem_cons, List.not_mem_nil, or_false] at hw
  rcases hw with rfl | rfl
  · exact ⟨by decide, show 2 ≤ 4096 by decide, by decide⟩
  · exact ⟨by decide, show 1 ≤ 4096 by decide, by decide⟩

theorem witness_FrameOfWireInstructions :
    Instr.wSlpout.isWire = true ∧ (∃ t, exec .wSlpout ready = .next t ∧ t.rx.desync = false) ∧
    (∃ t, exec (.wMemwr [1]) corner = .next t ∧ t.rx.desync = false) ∧
    (∃ t, exec (.wMemwr [1]) windowed = .next t ∧ t.rx.desync = false) :=
  ⟨rfl, ⟨_, rfl, by decide⟩, ⟨_, rfl, by decide⟩, _, rfl, by decide⟩

/-- The FILLSCREEN clause of the frame, with the receiver in step. -/
theorem witness_FrameOfDrawing_fillscreen :
    ∃ t, exec (.fillscreen 0x07E0) readyToFill = .next t ∧ t.rx.desync = false := by
  obtain ⟨dp, gx, ck, e, -⟩ := (exec_drawing (s := readyToFill) (i := .fillscreen 0x07E0) rfl (by decide) rfl).1
    witness_FillscreenFillsThePanel.2.2.2
  obtain ⟨cs, -, -, hrx⟩ := rxAfter_fill (m := 4096) (by decide) ready_synced 0x07E0
  refine ⟨_, e, ?_⟩
  rw [State.finished_rx]
  exact (congrArg Receiver.desync hrx).trans rfl

theorem witness_FrameOfDrawing :
    (∃ t, exec (.setwin 0 0 0 0) ready = .next t ∧ t.rx.desync = false) ∧
    (∃ t, exec (.drawpixel 319 239 1) ready = .next t ∧ t.rx.desync = false) ∧
    (∃ t, exec (.fillscreen 0x07E0) readyToFill = .next t ∧ t.rx.desync = false) ∧
    (∃ t, exec (.drawtext 312 0 1 0 1) (withText [0x80]) = .next t ∧ t.rx.desync = false) :=
  ⟨⟨_, rfl, by decide⟩, ⟨_, rfl, by decide⟩, witness_FrameOfDrawing_fillscreen, _, rfl, by decide⟩

theorem witness_FrameOfLifecycle : (∃ t, exec .init powered = .next t) ∧ (∃ t, exec .teardown ready = .next t) :=
  ⟨⟨_, rfl⟩, _, rfl⟩

end Sys2Proof.Tests
end

/-! ## What a step fetches between operations -/

section
namespace Sys2Proof.Machine

/-- A configuration of rule R6 gives an operation its meaning (R7). -/
theorem configured_ok {s : State} (f : State → State) (hok : s.par.ok = true) : configured s f = .next (f s) :=
  if_pos hok

/-- R37, R75: the legal descriptor at `pc` is fetched as its instruction. -/
theorem fetch_descriptor {s : State} {i : Instr} (hb : s.Between) (hpc : s.pc.toNat < 12 * s.progLen)
    (hd : decodeHost s.descriptor = .ok i) : fetch s = .run i s := by
  obtain ⟨hwork, hstream⟩ := hb
  simp only [fetch, hwork, hstream, Config.descLen, hpc, if_true, hd]

/-- R203: nothing is fetched at the end of the program, nor past it (log 23). -/
theorem fetch_idle {s : State} (hb : s.Between) (hpc : 12 * s.progLen ≤ s.pc.toNat) : fetch s = .idle s := by
  obtain ⟨hwork, hstream⟩ := hb
  simp only [fetch, hwork, hstream, Config.descLen, hpc.not_gt, if_false]

theorem step_descriptor {s : State} {i : Instr} (hb : s.Between) (hpc : s.pc.toNat < 12 * s.progLen)
    (hd : decodeHost s.descriptor = .ok i) : step s = exec i s := by
  rw [step, fetch_descriptor hb hpc hd]

theorem step_idle {s : State} (hb : s.Between) (hok : s.par.ok = true) (hpc : 12 * s.progLen ≤ s.pc.toNat) :
    step s = .next s := by
  rw [step, fetch_idle hb hpc]
  exact configured_ok _ hok

/-- Settles O5, by what is fetched on either side of the end of the program. -/
theorem stepRunsTheDescriptorAtPc : Obligations.StepRunsTheDescriptorAtPc := by
  intro s hb
  exact ⟨fun _ hpc hd => step_descriptor hb hpc hd, fun hok hpc => step_idle hb hok hpc⟩

end Sys2Proof.Machine
end

/-! ## What a step between operations answers -/

section
namespace Sys2Proof.Machine

/-- What a host operation can leave behind, by how it ends. -/
inductive HostResult (s : State) : State → Prop where
  /-- Refused before any event (R73, R79). -/
  | refused (r : Report) (hr : r.status.fatal = false) : HostResult s (RefusedWith s r)
  /-- INIT, done (R85). -/
  | inited (hl : s.lc = .uninitialized) (ck : ChunkRegs) : HostResult s (s.inited ck)
  /-- INIT, resource `k` refused (R86). -/
  | initRefused (hl : s.lc = .uninitialized) {k : Nat} (hk : k < 4) : HostResult s (s.initRefused k)
  /-- INIT, transfer `k` rejected (R87). -/
  | initBroke (hl : s.lc = .uninitialized) {k : Nat} (hk : k < 6) (ck : ChunkRegs) : HostResult s (s.initBroke k ck)
  /-- TEARDOWN (R89). -/
  | tornDown (hok : s.par.ok = true) : HostResult s s.tornDown
  /-- A drawing operation, done. -/
  | finished (hl : s.lc = .ready) {i : Instr} (hi : i.isDrawing = true) (dp : Datapath) (gx : GlyphRegs) (ck : ChunkRegs) :
      HostResult s (s.finished (drawWork s i) dp gx ck)
  /-- A drawing operation, transfer `k` rejected (R102). -/
  | stopped (hl : s.lc = .ready) {i : Instr} (hi : i.isDrawing = true) {k : Nat} (hk : k < (drawWork s i).length)
      (dp : Datapath) (gx : GlyphRegs) (ck : ChunkRegs) : HostResult s (s.stopped ((drawWork s i).take k) (drawWork s i)[k] dp gx ck)

/-- Everything a host operation can answer. -/
theorem exec_hostResult {s t : State} {i : Instr} (hi : i.isWire = false) (h : exec i s = .next t) : HostResult s t := by
  rcases host_cases hi with rfl | rfl | hd
  · obtain ⟨-, ⟨-, rfl⟩ | ⟨hl, -, ck, rfl⟩ | ⟨hl, k, hk, -, rfl⟩ | ⟨hl, k, hk, -, ck, rfl⟩⟩ := exec_init_cases h
    · exact .refused _ rfl
    · exact .inited hl ck
    · exact .initRefused hl hk
    · exact .initBroke hl hk ck
  · have hok := exec_ok h
    obtain rfl := Host.Outcome.next.inj ((exec_teardown hok).symm.trans h)
    exact .tornDown hok
  · obtain ⟨-, ⟨-, rfl⟩ | ⟨hl, -, dp, gx, ck, rfl, -⟩ | ⟨hl, k, hk, -, dp, gx, ck, rfl, -⟩⟩ := exec_drawing_cases hd h
    · exact .refused _ rfl
    · exact .finished hl hd dp gx ck
    · exact .stopped hl hd hk dp gx ck

/-- A step between operations is idle, or it is one host operation fetched inside the program (R12, R203). -/
theorem step_hostResult {s t : State} (hb : s.Between) (h : step s = .next t) :
    t = s ∨ (s.pc.toNat < 12 * s.progLen ∧ HostResult s t) := by
  obtain ⟨hwork, hstream⟩ := hb
  rcases step_cases h with ⟨-, -, rfl⟩ | ⟨-, hpc, -, op, rfl⟩ | ⟨-, hpc, i, hi, he⟩ | ⟨i, rest, -, hs, -⟩ |
    ⟨it, rest, -, hs, -⟩ | ⟨w, rest, hw, -⟩
  · exact .inl rfl
  · exact .inr ⟨hpc, .refused _ rfl⟩
  · exact .inr ⟨hpc, exec_hostResult hi he⟩
  · exact absurd hstream hs
  · exact absurd hstream hs
  · exact absurd (hwork.symm.trans hw) (List.cons_ne_nil w rest).symm

/-- R183: one status is reported and `pc` goes on; a fatal one leaves LC `failed` (R175, R176). -/
theorem HostResult.reports {s t : State} (h : HostResult s t) :
    t.statusLog = s.statusLog ++ [t.status] ∧ t.pc = s.pc + 12 ∧ (t.status.status.fatal = true → t.lc = .failed) := by
  cases h with
  | refused r hr => exact ⟨rfl, rfl, fun hf => absurd hf (ne_true_of_eq_false hr)⟩
  | inited hl ck => exact ⟨rfl, rfl, fun hf => absurd hf Bool.false_ne_true⟩
  | initRefused hl hk => exact ⟨rfl, rfl, fun _ => rfl⟩
  | initBroke hl hk ck => exact ⟨rfl, rfl, fun _ => rfl⟩
  | tornDown hok => exact ⟨rfl, rfl, fun hf => absurd hf Bool.false_ne_true⟩
  | finished hl hi dp gx ck => exact ⟨rfl, rfl, fun hf => absurd hf Bool.false_ne_true⟩
  | stopped hl hi hk dp gx ck => exact ⟨rfl, rfl, fun _ => rfl⟩

/-- Settles O9, by how a host operation can end. -/
theorem everyHostOperationReportsOneStatus : Obligations.EveryHostOperationReportsOneStatus := by
  intro s t i hi h
  obtain ⟨hlog, hpc, hfatal⟩ := (exec_hostResult hi h).reports
  refine ⟨hlog, hpc, fun hst => hfatal ?_⟩
  rcases hst with hst | hst <;> rw [hst] <;> rfl

/-! ## Inputs, `pc` and reset -/

/-- Settles O51: what a step adds is events alone. -/
theorem inputsNeverChange : Obligations.InputsNeverChange := by
  intro s t h
  obtain ⟨evs, -, -, -, hin⟩ := step_grows h
  exact hin

/-- Settles O52: a descriptor was fetched inside the program, so the next one begins inside it or at its end. -/
theorem pcStaysAligned : Obligations.PcStaysAligned := by
  rintro s t ⟨hb, hmod, hle, hlt⟩ h
  obtain ⟨-, -, hlen, -, -⟩ := inputsNeverChange s t h
  refine ⟨step_between hb h, ?_⟩
  rcases step_hostResult hb h with rfl | ⟨hpc, hr⟩
  · exact ⟨hmod, hle, hlt⟩
  · obtain ⟨-, hnext, -⟩ := hr.reports
    have hadd : t.pc.toNat = s.pc.toNat + 12 := by
      rw [hnext]
      bv_omega
    rw [hadd, hlen]
    omega

/-- Settles O10: each value is the one `State.reset` names. -/
theorem resetLeavesThePowerOnValues : Obligations.ResetLeavesThePowerOnValues :=
  ⟨rfl, rfl, rfl, rfl, rfl, rfl, rfl, rfl, rfl, rfl, rfl, rfl, rfl, rfl, rfl, rfl, rfl, rfl, rfl, rfl, rfl, rfl, rfl, rfl,
    rfl, rfl, rfl, fun _ _ => rfl⟩

/-! ## The lifecycle between operations (R14 to R17) -/

@[simp] theorem pinsAfter_rst (p : Pins) (fts : List FT) : (pinsAfter p fts).rst = p.rst := by
  unfold pinsAfter
  split <;> rfl

@[simp] theorem pinsAfter_bl (p : Pins) (fts : List FT) : (pinsAfter p fts).bl = p.bl := by
  unfold pinsAfter
  split <;> rfl

/-- A transfer gives the DC line a level and takes none from it (R96). -/
theorem pinsAfter_dc_isSome {p : Pins} (fts : List FT) (h : p.dc.isSome = true) : (pinsAfter p fts).dc.isSome = true := by
  unfold pinsAfter
  split
  · exact h
  · rfl

/-- Levels follow claims through a list of transfers, the DC line being held (R17, R96). -/
theorem State.PinsFollowClaims.sent {s t : State} (h : s.PinsFollowClaims) (hdc : s.claimed.dc = true) (fts : List FT)
    (hc : t.claimed = s.claimed) (hp : t.pins = pinsAfter s.pins fts) : t.PinsFollowClaims := by
  obtain ⟨hsdc, hsrst, hsbl⟩ := h
  have hlevel : (pinsAfter s.pins fts).dc.isSome = true := pinsAfter_dc_isSome fts (hsdc.trans hdc)
  unfold State.PinsFollowClaims
  rw [hc, hp, pinsAfter_rst, pinsAfter_bl]
  exact ⟨hlevel.trans hdc.symm, hsrst, hsbl⟩

/-- The levels after a rejected transfer are those after the same list, all accepted: `Pin(DC, v)` comes first (R96). -/
theorem State.stopped_pins (s : State) (fts : List FT) (f : FT) (dp : Datapath) (gx : GlyphRegs) (ck : ChunkRegs) :
    (s.stopped fts f dp gx ck).pins = pinsAfter s.pins (fts ++ [f]) :=
  (pinsAfter_append s.pins fts [f]).symm

/-- Where nothing is claimed no level is known (R17). -/
theorem State.PinsFollowClaims.none_of_unclaimed {s : State} (h : s.PinsFollowClaims)
    (hc : s.claimed = ⟨false, false, false, false⟩) : s.pins = ⟨none, none, none⟩ := by
  obtain ⟨hdc, hrst, hbl⟩ := h
  rcases hp : s.pins with ⟨dc, rst, bl⟩
  simp_all

/-- After the acquisition calls of an INIT the levels known are those of the lines held (R86). -/
theorem pinsFollowClaims_initRefused {s : State} {k : Nat} (hk : k < 4) (hp : s.pins = ⟨none, none, none⟩)
    (hc : s.claimed = ⟨false, false, false, false⟩) : (s.initRefused k).PinsFollowClaims := by
  have hpins : (s.initRefused k).pins = claimPins s k := rfl
  have hclaimed : (s.initRefused k).claimed = claimedAfter s.claimed k := rfl
  unfold State.PinsFollowClaims
  rw [hpins, hclaimed, hc, claimPins, hp]
  match k, hk with
  | 0, _ | 1, _ | 2, _ | 3, _ => exact ⟨rfl, rfl, rfl⟩

/-- A line whose level follows its claim has none once it is released; `true` is that `Pins.without` names the line. -/
theorem isSome_released {v : Option Level} {c : Bool} (h : v.isSome = c) :
    (if c && true then none else v).isSome = false := by
  subst h
  cases v <;> rfl

/-- A released line has no level, and one that was not held had none (R91). -/
theorem pinsFollowClaims_tornDown {s : State} (h : s.PinsFollowClaims) : s.tornDown.PinsFollowClaims := by
  obtain ⟨hdc, hrst, hbl⟩ := h
  exact ⟨isSome_released hdc, isSome_released hrst, isSome_released hbl⟩

/-- An operation that ended in `failed` is lawful as soon as levels follow claims. -/
theorem lifecycleOk_of_failed {t : State} (hb : t.Between) (hl : t.lc = .failed) (hp : t.PinsFollowClaims) :
    t.LifecycleOk := by
  refine ⟨hb, ?_, ?_, ?_, hp⟩ <;> simp [hl]

/-- Every way a host operation ends keeps the lifecycle lawful. -/
theorem HostResult.lifecycleOk {s t : State} (hs : s.LifecycleOk) (h : HostResult s t) : t.LifecycleOk := by
  obtain ⟨-, hinit, hun, hready, hpins⟩ := hs
  cases h with
  | refused r hr => exact ⟨⟨rfl, rfl⟩, hinit, hun, hready, hpins⟩
  | inited hl ck =>
    exact ⟨⟨rfl, rfl⟩, Lifecycle.noConfusion, Lifecycle.noConfusion, fun _ => ⟨rfl, rfl, rfl⟩, rfl, rfl, rfl⟩
  | initRefused hl hk =>
    exact lifecycleOk_of_failed ⟨rfl, rfl⟩ rfl
      (pinsFollowClaims_initRefused hk (hpins.none_of_unclaimed (hun hl)) (hun hl))
  | initBroke hl hk ck => exact lifecycleOk_of_failed ⟨rfl, rfl⟩ rfl ⟨rfl, rfl, rfl⟩
  | tornDown hok =>
    exact ⟨⟨rfl, rfl⟩, Lifecycle.noConfusion, fun _ => rfl, Lifecycle.noConfusion, pinsFollowClaims_tornDown hpins⟩
  | finished hl hi dp gx ck =>
    obtain ⟨hc, hrst, hbl⟩ := hready hl
    refine ⟨⟨rfl, rfl⟩, hinit, hun, fun _ => ⟨hc, ?_, ?_⟩, hpins.sent (by rw [hc]) _ rfl rfl⟩
    · exact (pinsAfter_rst s.pins _).trans hrst
    · exact (pinsAfter_bl s.pins _).trans hbl
  | stopped hl hi hk dp gx ck =>
    obtain ⟨hc, -, -⟩ := hready hl
    exact lifecycleOk_of_failed ⟨rfl, rfl⟩ rfl (hpins.sent (by rw [hc]) _ rfl (s.stopped_pins _ _ dp gx ck))

/-- Settles O53, by how a step between operations can end. -/
theorem lifecycleStaysLegal : Obligations.LifecycleStaysLegal := by
  intro s t hs h
  rcases step_hostResult hs.1 h with rfl | ⟨-, hr⟩
  · exact hs
  · exact hr.lifecycleOk hs

end Sys2Proof.Machine
end

/-! ## Acquisitions and releases (R16, R90) -/

section
namespace Sys2Proof.Machine

/-- How often a resource was acquired with success. -/
def acquiresOf (tr : List Event) : Resource → Nat
  | .bus => opensOf tr
  | .dc => claimsOf .dc tr
  | .rst => claimsOf .rst tr
  | .bl => claimsOf .bl tr

/-- How often a resource was released. -/
def dropsOf (tr : List Event) : Resource → Nat
  | .bus => closesOf tr
  | .dc => releasesOf .dc tr
  | .rst => releasesOf .rst tr
  | .bl => releasesOf .bl tr

theorem acquiresOf_append (a b : List Event) (r : Resource) : acquiresOf (a ++ b) r = acquiresOf a r + acquiresOf b r := by
  cases r <;> exact List.countP_append

theorem dropsOf_append (a b : List Event) (r : Resource) : dropsOf (a ++ b) r = dropsOf a r + dropsOf b r := by
  cases r <;> exact List.countP_append

/-- The events account for the change of CLAIMED from `c` to `d`: what was held or has been acquired is what is held or has been
released. -/
def Accounts (c d : Claimed) (evs : List Event) : Prop :=
  ∀ r, acquiresOf evs r + (c.holds r).toNat = dropsOf evs r + (d.holds r).toNat

/-- Balance is the account of the whole trace, from nothing held. -/
theorem balanced_iff (s : State) :
    s.Balanced ↔ s.LifecycleOk ∧ Accounts ⟨false, false, false, false⟩ s.claimed s.tr := by
  refine and_congr_right fun _ => ⟨fun ⟨hlines, hbus⟩ r => ?_, fun h => ⟨fun l => ?_, h .bus⟩⟩
  · cases r with
    | bus => exact hbus
    | dc => exact hlines .dc
    | rst => exact hlines .rst
    | bl => exact hlines .bl
  · cases l with
    | dc => exact h .dc
    | rst => exact h .rst
    | bl => exact h .bl

theorem accounts_nil (c : Claimed) : Accounts c c [] := by
  intro r
  cases r <;> rfl

theorem Accounts.append {c d e : Claimed} {a b : List Event} (ha : Accounts c d a) (hb : Accounts d e b) :
    Accounts c e (a ++ b) := by
  intro r
  have h1 := ha r
  have h2 := hb r
  rw [acquiresOf_append, dropsOf_append]
  omega

/-- A framed transfer acquires and releases nothing, accepted or not. -/
theorem accounts_ftEvents (c : Claimed) (f : FT) (r : Response) : Accounts c c (ftEvents f r) := by
  intro q
  cases q <;> rfl

theorem accounts_okEvents (c : Claimed) (fts : List FT) : Accounts c c (okEvents fts) := by
  induction fts with
  | nil => exact accounts_nil c
  | cons f fts ih => exact (accounts_ftEvents c f .ok).append ih

theorem accounts_failEvents (c : Claimed) {fts : List FT} {k : Nat} (hk : k < fts.length) :
    Accounts c c (failEvents fts k) := by
  rw [failEvents_eq hk]
  exact (accounts_okEvents c _).append (accounts_ftEvents c _ .fail)

/-- The acquisition calls of INIT, all accepted (R81). -/
theorem accounts_acquire (p : Params) :
    Accounts ⟨false, false, false, false⟩ ⟨true, true, true, true⟩ (acquireEvents p .ok) := by
  intro r
  cases r <;> rfl

/-- The acquisition calls of INIT, call `k` refused (R86): what was acquired before it is held. -/
theorem accounts_acquireRefused (p : Params) {k : Nat} (hk : k < 4) :
    Accounts ⟨false, false, false, false⟩ (claimedAfter ⟨false, false, false, false⟩ k)
      ((acquireEvents p .ok).take k ++ ((acquireEvents p .fail).drop k).take 1) := by
  intro r
  match k, hk with
  | 0, _ | 1, _ | 2, _ | 3, _ => cases r <;> rfl

theorem accounts_initEvents (p : Params) :
    Accounts ⟨false, false, false, false⟩ ⟨true, true, true, true⟩ (initEvents p) := by
  intro r
  cases r <;> rfl

theorem accounts_pulse (c : Claimed) (p : Params) : Accounts c c (pulseEvents p) := by
  intro r
  cases r <;> rfl

theorem accounts_delay (c : Claimed) (ms : Nat) : Accounts c c [.delay ms] := by
  intro r
  cases r <;> rfl

/-- An INIT broken off at a transfer holds all it acquired (R87). -/
theorem accounts_initFailEvents (p : Params) (k : Nat) :
    Accounts ⟨false, false, false, false⟩ ⟨true, true, true, true⟩ (initFailEvents p k) := by
  refine ((accounts_acquire p).append (accounts_pulse _ p)).append ?_
  split
  next hk => exact accounts_failEvents _ hk
  next hk => exact ((accounts_okEvents _ _).append (accounts_delay _ _)).append (accounts_ftEvents _ _ _)

theorem acquiresOf_release (r q : Resource) : acquiresOf [releaseEvent r] q = 0 := by
  cases r <;> cases q <;> rfl

theorem dropsOf_release (r q : Resource) : dropsOf [releaseEvent r] q = if q = r then 1 else 0 := by
  cases r <;> cases q <;> rfl

theorem Claimed.holds_without_self (c : Claimed) (r : Resource) : (c.without [r]).holds r = false := by
  cases r <;> simp [Claimed.without, Claimed.holds]

theorem Claimed.holds_without_other (c : Claimed) {r q : Resource} (hq : q ≠ r) : (c.without [r]).holds q = c.holds q := by
  cases r <;> cases q <;> simp [Claimed.without, Claimed.holds] at hq ⊢

/-- The release of one resource, which happens where it is held (R89). -/
theorem accounts_release (c : Claimed) (r : Resource) : Accounts c (c.without [r]) (releaseEvents [r] c) := by
  intro q
  rw [releaseEvents_single]
  by_cases hq : q = r
  · subst hq
    rw [Claimed.holds_without_self]
    split
    next h => rw [acquiresOf_release, dropsOf_release, h, if_pos rfl]; rfl
    next h => simpa only [eq_false_of_ne_true h] using accounts_nil c q
  · rw [Claimed.holds_without_other c hq]
    split
    next h => rw [acquiresOf_release, dropsOf_release, if_neg hq]
    next h => exact accounts_nil c q

/-- The releases of several resources, each named once (R90). -/
theorem accounts_releases (rs : List Resource) (hn : rs.Nodup) (c : Claimed) :
    Accounts c (c.without rs) (releaseEvents rs c) := by
  induction rs generalizing c with
  | nil => simpa [Claimed.without, releaseEvents] using accounts_nil c
  | cons r rs ih =>
    obtain ⟨hr, hn⟩ := List.nodup_cons.mp hn
    rw [releaseEvents_cons r rs c hr, ← Claimed.without_without]
    exact (accounts_release c r).append (ih hn _)

/-- TEARDOWN releases all that is held, in every order the platform can take (R89, R90). -/
theorem accounts_teardown {p : Params} (hok : p.ok = true) (c : Claimed) :
    Accounts c ⟨false, false, false, false⟩ (releaseEvents p.releaseOrder c) := by
  have hp := Params.releaseOrder_perm hok
  have hn : p.releaseOrder.Nodup := hp.nodup_iff.mpr (by decide)
  have hm : ∀ r, r ∈ p.releaseOrder := fun r => hp.mem_iff.mpr (by cases r <;> decide)
  have hall : c.without p.releaseOrder = ⟨false, false, false, false⟩ := by simp [Claimed.without, hm]
  exact hall ▸ accounts_releases p.releaseOrder hn c

/-- Every way a host operation ends accounts for what it holds then. -/
theorem HostResult.accounts {s t : State} (hs : s.LifecycleOk) (h : HostResult s t) :
    ∃ evs, t.tr = s.tr ++ evs ∧ Accounts s.claimed t.claimed evs := by
  obtain ⟨-, -, hun, -, -⟩ := hs
  cases h with
  | refused r hr => exact ⟨[], (List.append_nil _).symm, accounts_nil _⟩
  | inited hl ck => exact ⟨_, rfl, hun hl ▸ accounts_initEvents s.par⟩
  | initRefused hl hk =>
    have hacc := accounts_acquireRefused s.par hk
    rw [← hun hl] at hacc
    exact ⟨_, rfl, hacc⟩
  | initBroke hl hk ck => exact ⟨_, rfl, hun hl ▸ accounts_initFailEvents s.par _⟩
  | tornDown hok => exact ⟨_, rfl, accounts_teardown hok s.claimed⟩
  | finished hl hi dp gx ck => exact ⟨_, rfl, accounts_okEvents _ _⟩
  | stopped hl hi hk dp gx ck =>
    obtain ⟨htr, -, -⟩ := grows_stopped s hk dp gx ck
    exact ⟨_, htr, accounts_failEvents _ hk⟩

/-- Settles O55: every operation accounts for what it acquires and releases, so the whole trace does. -/
theorem everyResourceIsReleasedOnce : Obligations.EveryResourceIsReleasedOnce := by
  intro s t hs h
  obtain ⟨hlife, hacc⟩ := (balanced_iff s).mp hs
  rcases step_hostResult hlife.1 h with rfl | ⟨-, hr⟩
  · exact hs
  · obtain ⟨evs, htr, hevs⟩ := hr.accounts hlife
    exact (balanced_iff t).mpr ⟨hr.lifecycleOk hlife, htr ▸ hacc.append hevs⟩

end Sys2Proof.Machine
end

/-! ## The wire discipline (R122) -/

section
namespace Sys2Proof.Machine

/-- An instruction may begin: nothing is awaited, or what is open is a memory write, which may stop at any pixel (R122). -/
def Phase.Resting (p : Phase) : Prop := p = .rest ∨ p = .pixels

/-- The symbols are allowed wherever an instruction may begin, and leave the stream where one may begin. -/
def Disciplined (ws : List WireSym) : Prop := ∀ p : Phase, p.Resting → ∃ q : Phase, q.Resting ∧ Phase.run p ws = some q

/-- `wire(TR)` obeys the discipline and no instruction is cut short. -/
def WireRests (tr : List Event) : Prop := ∃ q : Phase, q.Resting ∧ Phase.run .rest (wireOf tr) = some q

theorem wireOk_iff (s : State) : s.WireOk ↔ s.Between ∧ WireRests s.tr := by
  refine and_congr_right fun _ => ⟨?_, ?_⟩
  · rintro (h | h)
    · exact ⟨_, .inl rfl, h⟩
    · exact ⟨_, .inr rfl, h⟩
  · rintro ⟨q, rfl | rfl, h⟩
    · exact .inl h
    · exact .inr h

theorem disciplined_nil : Disciplined [] := fun p hp => ⟨p, hp, rfl⟩

theorem Disciplined.append {a b : List WireSym} (ha : Disciplined a) (hb : Disciplined b) : Disciplined (a ++ b) := by
  intro p hp
  obtain ⟨q, hq, ea⟩ := ha p hp
  obtain ⟨u, hu, eb⟩ := hb q hq
  exact ⟨u, hu, by rw [Phase.run_append, ea, Option.bind_some, eb]⟩

/-- A data stream keeps a memory write open (R122). -/
theorem Phase.run_pixels (bytes : List Byte) : Phase.run .pixels (symsOf (dataItems bytes)) = some .pixels := by
  induction bytes with
  | nil => rfl
  | cons b bytes ih => exact ih

/-- A window program is allowed wherever an instruction may begin, and opens a memory write (R113, R122). -/
theorem Phase.run_window {p : Phase} (hp : p.Resting) {m : Nat} (hm : 1 ≤ m) (x0 x1 y0 y1 : Half) :
    Phase.run p (ftSyms (windowWork m x0 x1 y0 y1)) = some .pixels := by
  rw [ftSyms_window hm]
  rcases hp with rfl | rfl <;> rfl

theorem disciplined_window {m : Nat} (hm : 1 ≤ m) (x0 x1 y0 y1 : Half) :
    Disciplined (ftSyms (windowWork m x0 x1 y0 y1)) :=
  fun _ hp => ⟨_, .inr rfl, Phase.run_window hp hm x0 x1 y0 y1⟩

/-- A window program and the pixel data in it (R122). -/
theorem disciplined_stream {m : Nat} (hm : 1 ≤ m) (x0 x1 y0 y1 : Half) (bytes : List Byte) :
    Disciplined (ftSyms (windowWork m x0 x1 y0 y1 ++ dataWork m bytes)) := by
  intro p hp
  refine ⟨.pixels, .inr rfl, ?_⟩
  rw [ftSyms_append, Phase.run_append, Phase.run_window hp hm, ftSyms_data hm]
  exact Phase.run_pixels bytes

theorem disciplined_pixel {m : Nat} (hm : 1 ≤ m) (x y c : Half) : Disciplined (ftSyms (pixelWork m x y c)) :=
  disciplined_stream hm x x y y (bytes16 c)

/-- Pixel writes one after another (R131). -/
theorem disciplined_flatMap {α : Type} {w : α → List FT} (h : ∀ a, Disciplined (ftSyms (w a))) (as : List α) :
    Disciplined (ftSyms (as.flatMap w)) := by
  induction as with
  | nil => exact disciplined_nil
  | cons a as ih =>
    rw [List.flatMap_cons, ftSyms_append]
    exact (h a).append ih

theorem disciplined_text {s : State} (hm : 1 ≤ s.par.chunkMax) (x y c addr len : Half) :
    Disciplined (ftSyms (textWork s x y c addr len)) :=
  disciplined_flatMap (w := fun p : Half × Half => pixelWork s.par.chunkMax p.1 p.2 c)
    (fun p => disciplined_pixel hm p.1 p.2 c) (textPixels s x y addr len)

/-- Every drawing operation keeps the discipline. -/
theorem disciplined_drawWork {s : State} (hm : 1 ≤ s.par.chunkMax) {i : Instr} (hi : i.isDrawing = true) :
    Disciplined (ftSyms (drawWork s i)) := by
  cases i <;> simp only [Instr.isDrawing, Bool.false_eq_true] at hi
  case setwin x0 x1 y0 y1 => exact disciplined_window hm x0 x1 y0 y1
  case drawpixel x y c => exact disciplined_pixel hm x y c
  case fillscreen c => exact disciplined_stream hm 0 319 0 239 (repColor 76800 c)
  case drawtext x y c addr len => exact disciplined_text hm x y c addr len

/-- The configuration of INIT up to sleep-out keeps the discipline (R83, R84). -/
theorem disciplined_config (p : Params) : Disciplined (ftSyms (configWork p)) := by
  rintro q (rfl | rfl) <;> exact ⟨.rest, .inl rfl, rfl⟩

/-- Display-on keeps the discipline (R84). -/
theorem disciplined_dispon : Disciplined (ftSyms (cmdWork .dispon)) := by
  rintro q (rfl | rfl) <;> exact ⟨.rest, .inl rfl, rfl⟩

/-- Events without a transfer put nothing on the wire (R103). -/
theorem wireFrom_quiet {evs : List Event} (h : ∀ e ∈ evs, e.isXfer = false) (lv : Option Level) : wireFrom lv evs = [] := by
  induction evs generalizing lv with
  | nil => rfl
  | cons e evs ih =>
    obtain ⟨he, hevs⟩ := List.forall_mem_cons.mp h
    cases e with
    | xfer bytes r => exact Bool.noConfusion he
    | pin l v => cases l <;> simp [wireFrom, ih hevs]
    | openBus _ _ _ _ => simp [wireFrom, ih hevs]
    | closeBus => simp [wireFrom, ih hevs]
    | claim _ _ _ => simp [wireFrom, ih hevs]
    | release _ => simp [wireFrom, ih hevs]
    | delay _ => simp [wireFrom, ih hevs]

theorem WireRests.quiet {tr evs : List Event} (h : WireRests tr) (hq : ∀ e ∈ evs, e.isXfer = false) :
    WireRests (tr ++ evs) := by
  have e : wireOf (tr ++ evs) = wireOf tr := by
    rw [wireOf, wireFrom_append, wireFrom_quiet hq, List.append_nil, wireOf]
  rwa [WireRests, e]

theorem WireRests.sent {tr : List Event} (h : WireRests tr) {fts : List FT} (hd : Disciplined (ftSyms fts)) :
    WireRests (tr ++ okEvents fts) := by
  obtain ⟨p, hp, ep⟩ := h
  obtain ⟨q, hq, eq⟩ := hd p hp
  exact ⟨q, hq, by rw [wireOf_okEvents, Phase.run_append, ep, Option.bind_some, eq]⟩

/-- After LOST an instruction may begin (R122). -/
theorem Phase.run_lost {p q : Phase} {ws : List WireSym} (h : Phase.run p ws = some q) :
    Phase.run p (ws ++ [.lost]) = some .rest := by
  rw [Phase.run_append, h]
  rfl

theorem WireRests.lost {tr : List Event} (h : WireRests tr) (f : FT) : WireRests (tr ++ ftEvents f .fail) := by
  obtain ⟨p, hp, ep⟩ := h
  exact ⟨.rest, .inl rfl, by rw [wireOf_fail, Phase.run_lost ep]⟩

/-- What comes before in an allowed stream is allowed. -/
theorem Phase.run_of_append {p q : Phase} {a b : List WireSym} (h : Phase.run p (a ++ b) = some q) :
    ∃ u, Phase.run p a = some u := by
  rw [Phase.run_append] at h
  obtain ⟨u, hu, -⟩ := Option.bind_eq_some_iff.mp h
  exact ⟨u, hu⟩

/-- A list of transfers broken off anywhere: what was sent is the beginning of an allowed stream, and LOST ends it. -/
theorem WireRests.broken {tr : List Event} (h : WireRests tr) {fts : List FT} {k : Nat} (hk : k < fts.length)
    (hd : Disciplined (ftSyms fts)) : WireRests (tr ++ failEvents fts k) := by
  obtain ⟨p, hp, ep⟩ := h
  obtain ⟨q, -, eq⟩ := hd p hp
  rw [← List.take_append_drop k fts, ftSyms_append] at eq
  obtain ⟨u, hu⟩ := Phase.run_of_append eq
  refine ⟨.rest, .inl rfl, ?_⟩
  rw [wireOf_failEvents tr hk]
  exact Phase.run_lost (by rw [Phase.run_append, ep, Option.bind_some, hu])

theorem acquireEvents_quiet (p : Params) (r : Response) : ∀ e ∈ acquireEvents p r, e.isXfer = false := by
  simp [acquireEvents, Event.isXfer]

/-- The acquisition calls of an INIT with one refused (R86) put nothing on the wire. -/
theorem acquireRefused_quiet (p : Params) (k : Nat) :
    ∀ e ∈ (acquireEvents p .ok).take k ++ ((acquireEvents p .fail).drop k).take 1, e.isXfer = false := by
  intro e he
  rcases List.mem_append.mp he with he | he
  · exact acquireEvents_quiet p .ok e (List.mem_of_mem_take he)
  · exact acquireEvents_quiet p .fail e (List.mem_of_mem_drop (List.mem_of_mem_take he))

theorem pulseEvents_quiet (p : Params) : ∀ e ∈ pulseEvents p, e.isXfer = false := by
  simp [pulseEvents, Event.isXfer]

theorem releaseEvents_quiet (order : List Resource) (c : Claimed) : ∀ e ∈ releaseEvents order c, e.isXfer = false := by
  intro e he
  obtain ⟨r, -, rfl⟩ := List.mem_map.mp he
  cases r <;> rfl

/-- INIT up to the end of its reset pulse puts nothing on the wire. -/
theorem WireRests.pulsed {tr : List Event} (h : WireRests tr) (p : Params) :
    WireRests (tr ++ (acquireEvents p .ok ++ pulseEvents p)) := by
  rw [← List.append_assoc]
  exact (h.quiet (acquireEvents_quiet p .ok)).quiet (pulseEvents_quiet p)

/-- INIT up to the wait after sleep-out (R83, R84). -/
theorem WireRests.configSent {tr : List Event} (h : WireRests tr) (p : Params) :
    WireRests (tr ++ (acquireEvents p .ok ++ pulseEvents p) ++ okEvents (configWork p) ++ [.delay p.tSlpout]) :=
  ((h.pulsed p).sent (disciplined_config p)).quiet (by simp [Event.isXfer])

/-- The events of INIT by its phases (R81 to R85, R88). -/
theorem initEvents_eq (p : Params) :
    initEvents p = acquireEvents p .ok ++ pulseEvents p ++ okEvents (configWork p) ++ [.delay p.tSlpout] ++
      okEvents (cmdWork .dispon) ++ [.pin .bl p.blOn] := rfl

/-- A whole INIT keeps the discipline (R88). -/
theorem WireRests.init {tr : List Event} (h : WireRests tr) (p : Params) : WireRests (tr ++ initEvents p) := by
  have hall := ((h.configSent p).sent disciplined_dispon).quiet (evs := [.pin .bl p.blOn]) (by simp [Event.isXfer])
  simpa only [initEvents_eq, List.append_assoc] using hall

/-- An INIT whose transfer `k` is rejected (R87). -/
theorem WireRests.initFail {tr : List Event} (h : WireRests tr) (p : Params) (k : Nat) :
    WireRests (tr ++ initFailEvents p k) := by
  rw [initFailEvents, ← List.append_assoc]
  split
  next hk => exact (h.pulsed p).broken hk (disciplined_config p)
  next hk => simpa only [List.append_assoc] using (h.configSent p).lost (false, [0x29])

/-- Between operations the transfers a step sets out to do are those of a drawing operation. -/
theorem StepWork.disciplined {s : State} {fts : List FT} (h : StepWork s fts) (hb : s.Between)
    (hm : 1 ≤ s.par.chunkMax) : Disciplined (ftSyms fts) := by
  obtain ⟨hwork, hstream⟩ := hb
  cases h with
  | drawing i hi hl => exact disciplined_drawWork hm hi
  | wire i hi hs => exact absurd hstream hs
  | stray it hs => exact absurd hstream hs
  | head v bytes hw => exact absurd (hwork ▸ hw) List.not_mem_nil

/-- Between operations every step adds events that keep the discipline. -/
theorem StepEvents.wireRests {s : State} {evs : List Event} (h : StepEvents s evs) (hb : s.Between)
    (hm : 1 ≤ s.par.chunkMax) (hw : WireRests s.tr) : WireRests (s.tr ++ evs) := by
  cases h with
  | none => exact hw.quiet (by simp)
  | ok fts h => exact hw.sent (h.disciplined hb hm)
  | fail fts k hk h => exact hw.broken hk (h.disciplined hb hm)
  | pin l v _ => exact hw.quiet (by simp [Event.isXfer])
  | delay ms _ => exact hw.quiet (by simp [Event.isXfer])
  | init _ => exact hw.init s.par
  | initRefused _ k _ => exact hw.quiet (acquireRefused_quiet s.par k)
  | initBroke _ k _ => exact hw.initFail s.par k
  | release => exact hw.quiet (releaseEvents_quiet _ _)

/-- Settles O56: between operations every step adds whole instructions, or ends with LOST. -/
theorem wireStreamKeepsTheDiscipline : Obligations.WireStreamKeepsTheDiscipline := by
  intro s t hs h
  obtain ⟨hb, hw⟩ := (wireOk_iff s).mp hs
  obtain ⟨evs, hevs, htr, -, -⟩ := step_grows h
  refine (wireOk_iff t).mpr ⟨step_between hb h, ?_⟩
  rw [htr]
  exact hevs.wireRests hb (Params.one_le_chunkMax (step_ok h)) hw

end Sys2Proof.Machine
end

/-! ## A pixel write (R117) -/

section
namespace Sys2Proof.Machine

/-- The items of a pixel write: a 1x1 window program, then the colour, most significant byte first (R42, R117). -/
theorem ftSyms_pixel {m : Nat} (hm : 1 ≤ m) (x y c : Half) :
    ftSyms (pixelWork m x y c) =
      symsOf [⟨false, 0x2A⟩, ⟨true, hi8 x⟩, ⟨true, lo8 x⟩, ⟨true, hi8 x⟩, ⟨true, lo8 x⟩,
        ⟨false, 0x2B⟩, ⟨true, hi8 y⟩, ⟨true, lo8 y⟩, ⟨true, hi8 y⟩, ⟨true, lo8 y⟩, ⟨false, 0x2C⟩,
        ⟨true, hi8 c⟩, ⟨true, lo8 c⟩] := by
  rw [pixelWork, ftSyms_append, ftSyms_window hm, ftSyms_data hm]
  rfl

/-- Settles O25: the operation sends its whole work list, whose items are those of a pixel write. -/
theorem drawpixelSendsOnePixel : Obligations.DrawpixelSendsOnePixel := by
  intro s x y c hok hl ha
  obtain ⟨hsent, -⟩ := exec_drawing (i := .drawpixel x y c) rfl hok hl
  obtain ⟨dp, gx, ck, he, hdp, -⟩ := hsent ha
  rw [State.finished_dp] at hdp
  subst hdp
  refine ⟨_, he, rfl, ?_, rfl, rfl, rfl, rfl, rfl, hl, rfl, rfl⟩
  rw [State.finished_tr, wireOf_okEvents]
  exact congrArg _ (ftSyms_pixel (Params.one_le_chunkMax hok) x y c)

end Sys2Proof.Machine
end

/-! ## Chunking is invisible (R58, R171) -/

section
namespace Sys2Proof.Machine

/-- Two work lists are told apart neither by `wire(TR)` nor by any receiver. -/
structure SameOnWire (a b : List FT) : Prop where
  syms : ftSyms a = ftSyms b
  rx : ∀ r, rxAfter r a = rxAfter r b

theorem SameOnWire.refl (a : List FT) : SameOnWire a a := ⟨rfl, fun _ => rfl⟩

theorem SameOnWire.append {a b c d : List FT} (hab : SameOnWire a b) (hcd : SameOnWire c d) :
    SameOnWire (a ++ c) (b ++ d) where
  syms := by rw [ftSyms_append, ftSyms_append, hab.syms, hcd.syms]
  rx r := by rw [rxAfter_append, rxAfter_append, hab.rx, hcd.rx]

theorem SameOnWire.flatMap {α : Type} {v w : α → List FT} (h : ∀ a, SameOnWire (v a) (w a)) (as : List α) :
    SameOnWire (as.flatMap v) (as.flatMap w) := by
  induction as with
  | nil => exact .refl []
  | cons a as ih =>
    rw [List.flatMap_cons, List.flatMap_cons]
    exact (h a).append ih

/-- A data stream is its bytes, however it is cut: an empty one makes no transfer, and any other leaves the DC
line at 1 (R98, R171). -/
theorem sameOnWire_data {m n : Nat} (hm : 1 ≤ m) (hn : 1 ≤ n) (bytes : List Byte) :
    SameOnWire (dataWork m bytes) (dataWork n bytes) where
  syms := by rw [ftSyms_data hm, ftSyms_data hn]
  rx r := by
    by_cases hb : bytes = []
    · subst hb
      rfl
    · rw [rxAfter_data r bytes hm hb, rxAfter_data r bytes hn hb]

theorem sameOnWire_window {m n : Nat} (hm : 1 ≤ m) (hn : 1 ≤ n) (x0 x1 y0 y1 : Half) :
    SameOnWire (windowWork m x0 x1 y0 y1) (windowWork n x0 x1 y0 y1) :=
  ((((SameOnWire.refl _).append (sameOnWire_data hm hn _)).append (.refl _)).append
    (sameOnWire_data hm hn _)).append (.refl _)

/-- A window program and the pixel data in it. -/
theorem sameOnWire_stream {m n : Nat} (hm : 1 ≤ m) (hn : 1 ≤ n) (x0 x1 y0 y1 : Half) (bytes : List Byte) :
    SameOnWire (windowWork m x0 x1 y0 y1 ++ dataWork m bytes) (windowWork n x0 x1 y0 y1 ++ dataWork n bytes) :=
  (sameOnWire_window hm hn x0 x1 y0 y1).append (sameOnWire_data hm hn bytes)

/-- The pixels of a text come from TEXT and GLYPH alone. -/
theorem textPixels_congr {s t : State} (ht : t.text = s.text) (hg : t.glyph = s.glyph) (x y addr len : Half) :
    textPixels t x y addr len = textPixels s x y addr len := by
  rw [textPixels, textPixels, textCodes_congr ht, renderText_congr hg]

/-- A drawing operation over the same TEXT and GLYPH, whatever CHUNK_MAX is. -/
theorem sameOnWire_drawWork {s u : State} (hs : 1 ≤ s.par.chunkMax) (hu : 1 ≤ u.par.chunkMax) (ht : u.text = s.text)
    (hg : u.glyph = s.glyph) {i : Instr} (hi : i.isDrawing = true) : SameOnWire (drawWork u i) (drawWork s i) := by
  cases i <;> simp only [Instr.isDrawing, Bool.false_eq_true] at hi
  case setwin x0 x1 y0 y1 => exact sameOnWire_window hu hs x0 x1 y0 y1
  case drawpixel x y c => exact sameOnWire_stream hu hs x x y y (bytes16 c)
  case fillscreen c => exact sameOnWire_stream hu hs 0 319 0 239 (repColor 76800 c)
  case drawtext x y c addr len =>
    rw [drawWork, drawWork, textWork, textWork, textPixels_congr ht hg]
    refine .flatMap (fun p => ?_) _
    exact sameOnWire_stream hu hs p.1 p.1 p.2 p.2 (bytes16 c)

/-- A drawing operation that ends OK has sent its whole work list. -/
theorem exec_drawing_endsOk {s t : State} {i : Instr} (hi : i.isDrawing = true) (h : exec i s = .next t)
    (hst : t.status.status = .ok) : ∃ dp gx ck, t = s.finished (drawWork s i) dp gx ck := by
  obtain ⟨-, ⟨-, rfl⟩ | ⟨-, -, dp, gx, ck, rfl, -⟩ | ⟨-, k, hk, -, dp, gx, ck, rfl, -⟩⟩ := exec_drawing_cases hi h
  · exact Status.noConfusion hst
  · exact ⟨dp, gx, ck, rfl⟩
  · exact Status.noConfusion hst

/-- Settles O48: both runs send their whole work lists, which are the same on the wire. -/
theorem chunkSizeIsInvisible : Obligations.ChunkSizeIsInvisible := by
  intro s t u i m answers hi ht htOk hu huOk
  have hsame := sameOnWire_drawWork (Params.one_le_chunkMax (exec_ok ht)) (Params.one_le_chunkMax (exec_ok hu)) rfl rfl hi
  obtain ⟨_, _, _, rfl⟩ := exec_drawing_endsOk hi ht htOk
  obtain ⟨_, _, _, rfl⟩ := exec_drawing_endsOk hi hu huOk
  refine ⟨?_, hsame.rx s.rx⟩
  rw [State.finished_tr, State.finished_tr, wireOf_okEvents, wireOf_okEvents, hsame.syms]

end Sys2Proof.Machine
end

/-! ## Encoding and decoding are inverse (R60 to R73) -/

section
namespace Sys2Proof.Machine

/-- A descriptor that encodes an operation decodes to it (R68 to R72). -/
theorem decodeHost_of_encode {i : Instr} {bytes : List Byte} (h : encode i = .host bytes) : decodeHost bytes = .ok i := by
  cases i with
  | init | teardown | setwin | drawpixel | fillscreen | drawtext =>
    cases h
    exact decodeHost_descriptorOf _ _ _ _ _ _
  | wPixfmt | wMemctl | wSlpout | wDispon | wColset | wRowset | wMemwr => exact Code.noConfusion h

/-- A payload of the length its code fixes, and nothing after it, decodes to its instruction (R60, R66). -/
theorem decode_wireCode {c : WireCmd} {bytes : List Byte} {i : Instr} (hlen : bytes.length = c.payload)
    (h : decodePayload c bytes [] = .ok (i, [])) : decode (.wire (wireCode c bytes)) = .ok i := by
  have hd := decodeWire_wireCode c bytes [] hlen
  rw [List.append_nil] at hd
  simp only [decode, hd, h]

/-- A pixel stream no longer than the largest window is read back whole (R65, R115). -/
theorem decode_memwr {cs : List Half} (h : cs.length ≤ maxPixels) :
    decode (.wire (wireCode .memwr (pixelBytes cs))) = .ok (.wMemwr cs) := by
  have hd : decodeWire (wireCode .memwr (pixelBytes cs)) = .ok (.wMemwr cs, []) := by
    refine (decodeWire_wireCode .memwr [] (dataItems (pixelBytes cs)) rfl).trans ?_
    rw [decodePayload, takePixels_dataItems cs h]
  simp only [decode, hd]

/-- A payload of two 16-bit values is read back (R64). -/
theorem twoHalves_bytes16 (a b : Half) (f : Half → Half → Instr) : twoHalves (bytes16 a ++ bytes16 b) f = .ok (f a b) := by
  simp [bytes16, twoHalves, be16_bytes]

theorem decode_colset (a b : Half) : decode (encode (.wColset a b)) = .ok (.wColset a b) :=
  decode_wireCode rfl (by rw [decodePayload, twoHalves_bytes16]; rfl)

theorem decode_rowset (a b : Half) : decode (encode (.wRowset a b)) = .ok (.wRowset a b) :=
  decode_wireCode rfl (by rw [decodePayload, twoHalves_bytes16]; rfl)

/-- Items that encode a wire instruction decode to it (R60 to R65). -/
theorem decode_wire_of_encode {i : Instr} (hi : i.wellFormed = true) {items : List Item} (h : encode i = .wire items) :
    decode (.wire items) = .ok i := by
  rw [← h]
  cases i with
  | wPixfmt p => exact decode_wireCode rfl rfl
  | wMemctl p => exact decode_wireCode rfl rfl
  | wSlpout => exact decode_wireCode rfl rfl
  | wDispon => exact decode_wireCode rfl rfl
  | wColset a b => exact decode_colset a b
  | wRowset a b => exact decode_rowset a b
  | wMemwr cs => exact decode_memwr (of_decide_eq_true hi)
  | init | teardown | setwin | drawpixel | fillscreen | drawtext => exact Code.noConfusion h

/-- Settles O1, in the space the instruction is encoded in. -/
theorem encodedInstructionsDecodeBack : Obligations.EncodedInstructionsDecodeBack := by
  intro i hi
  cases henc : encode i with
  | host bytes => exact decodeHost_of_encode henc
  | wire items => exact decode_wire_of_encode hi henc

/-- The operation given where the unused fields are zero is encoded with zeros in them (R70, R73). -/
theorem encode_of_whenUnused {u : List Half} {i j : Instr} {code : Code} (h : whenUnused u i = .ok j)
    (hi : (∀ v ∈ u, v = 0) → encode i = code) : encode j = code := by
  obtain ⟨rfl, hz⟩ := whenUnused_some h
  exact hi hz

/-- Fields that have a meaning are those of its encoding (R70, R71). -/
theorem encode_of_decodeFields {op : Byte} {a b c d e : Half} {i : Instr} (h : decodeFields op a b c d e = .ok i) :
    encode i = .host (descriptorOf op a b c d e) := by
  unfold decodeFields at h
  split_ifs at h with hop hop hop hop hop hop <;> subst hop
  · exact encode_of_whenUnused h (by simp +contextual [encode])
  · exact encode_of_whenUnused h (by simp +contextual [encode])
  · exact encode_of_whenUnused h (by simp +contextual [encode])
  · exact encode_of_whenUnused h (by simp +contextual [encode])
  · exact encode_of_whenUnused h (by simp +contextual [encode])
  · cases h
    rfl

/-- Bytes the host decoder accepts are a descriptor with a zero `rsv`, and its fields have the meaning given (R68, R69, R73). -/
theorem decodeHost_ok {bytes : List Byte} {i : Instr} (h : decodeHost bytes = .ok i) :
    ∃ op a b c d e, bytes = descriptorOf op a b c d e ∧ decodeFields op a b c d e = .ok i := by
  unfold decodeHost at h
  split at h
  next op rsv a1 a0 b1 b0 c1 c0 d1 d0 e1 e0 =>
    split at h
    next hrsv =>
      subst hrsv
      exact ⟨op, be16 a1 a0, be16 b1 b0, be16 c1 c0, be16 d1 d0, be16 e1 e0, by simp [descriptorOf, half_of_bytes], h⟩
    next => split at h <;> cases h
  next => cases h

/-- Settles O2, by the fields of the descriptor. -/
theorem descriptorsHaveOneEncoding : Obligations.DescriptorsHaveOneEncoding := by
  intro bytes i h
  obtain ⟨op, a, b, c, d, e, rfl, hf⟩ := decodeHost_ok h
  exact encode_of_decodeFields hf

/-- What the wire decoder accepts begins with a command item and the data items its code fixes (R60, R66). -/
theorem decodeWire_ok {items rest : List Item} {i : Instr} (h : decodeWire items = .ok (i, rest)) :
    ∃ c bytes tail, items = wireCode c bytes ++ tail ∧ bytes.length = c.payload ∧ decodePayload c bytes tail = .ok (i, rest) := by
  unfold decodeWire at h
  split at h
  next => cases h
  next it more =>
    rcases it with ⟨dc, b⟩
    cases dc with
    | true => cases h
    | false =>
      simp only [Bool.false_eq_true, if_false] at h
      split at h
      next => cases h
      next c hc =>
        split at h
        next => cases h
        next bytes tail ht =>
          obtain ⟨rfl, hlen⟩ := takeData_some ht
          obtain rfl := WireCmd.ofCode_some hc
          exact ⟨c, bytes, tail, rfl, hlen, h⟩

/-- A payload of the length its code fixes is, with what the instruction takes of the items after it, the encoding of the
instruction it decodes to (R61, R65). -/
theorem encode_of_decodePayload {c : WireCmd} {bytes : List Byte} {tail rest : List Item} {i : Instr}
    (hlen : bytes.length = c.payload) (h : decodePayload c bytes tail = .ok (i, rest)) :
    ∃ code, encode i = .wire code ∧ wireCode c bytes ++ tail = code ++ rest := by
  rcases decodePayload_cases h with ⟨rfl, ⟨p, rfl, rfl⟩, rfl⟩ | ⟨rfl, ⟨p, rfl, rfl⟩, rfl⟩ | ⟨rfl, rfl, rfl⟩ | ⟨rfl, rfl, rfl⟩ |
    ⟨rfl, ⟨a1, a0, b1, b0, rfl, rfl⟩, rfl⟩ | ⟨rfl, ⟨a1, a0, b1, b0, rfl, rfl⟩, rfl⟩ | ⟨rfl, rfl, rfl⟩
  · exact ⟨_, rfl, rfl⟩
  · exact ⟨_, rfl, rfl⟩
  · obtain rfl := List.eq_nil_of_length_eq_zero hlen
    exact ⟨_, rfl, rfl⟩
  · obtain rfl := List.eq_nil_of_length_eq_zero hlen
    exact ⟨_, rfl, rfl⟩
  · exact ⟨_, rfl, by simp [bytes16, half_of_bytes]⟩
  · exact ⟨_, rfl, by simp [bytes16, half_of_bytes]⟩
  · obtain rfl := List.eq_nil_of_length_eq_zero hlen
    exact ⟨_, rfl, congrArg (List.cons _) (takePixels_eq maxPixels tail)⟩

/-- Settles O3: the command item, its payload and, for W_MEMWR, the pixels taken from the items after it. -/
theorem wireInstructionsHaveOneEncoding : Obligations.WireInstructionsHaveOneEncoding := by
  intro items i rest h
  obtain ⟨c, bytes, tail, rfl, hlen, hp⟩ := decodeWire_ok h
  exact encode_of_decodePayload hlen hp

/-- Settles O4: each word is decoded. -/
theorem specWordsDecode : Obligations.SpecWordsDecode :=
  ⟨rfl, rfl, rfl, rfl, rfl, rfl, rfl, rfl⟩

/-- R73: bytes at `pc` that encode no operation are fetched as illegal. -/
theorem fetch_illegal {s : State} (hb : s.Between) (hpc : s.pc.toNat < 12 * s.progLen)
    (hd : ∀ i : Instr, encode i ≠ .host s.descriptor) : fetch s = .illegal (s.cmdAt s.pc) s := by
  obtain ⟨hwork, hstream⟩ := hb
  simp only [fetch, hwork, hstream, Config.descLen, hpc, if_true]
  cases h : decodeHost s.descriptor with
  | ok i => exact absurd (descriptorsHaveOneEncoding _ i h) (hd i)
  | error r => rfl

/-- Settles O8: such bytes do not decode, so the step is the IllegalOp of R178, before any gate. -/
theorem illegalDescriptorsEndWithIllegalOp : Obligations.IllegalDescriptorsEndWithIllegalOp := by
  intro s hok hb hpc hd
  rw [step, fetch_illegal hb hpc hd]
  exact execIllegal_eq _ hok

end Sys2Proof.Machine
end

/-! ## A window program (R113) -/

section
namespace Sys2Proof.Machine

/-- Settles O21: the operation sends its whole work list, whose items are those of a window program. -/
theorem setwinSendsTheWindowProgram : Obligations.SetwinSendsTheWindowProgram := by
  intro s x0 x1 y0 y1 hok hl ha
  obtain ⟨hsent, -⟩ := exec_drawing (i := .setwin x0 x1 y0 y1) rfl hok hl
  obtain ⟨dp, gx, ck, he, hdp, -⟩ := hsent ha
  rw [State.finished_dp] at hdp
  subst hdp
  refine ⟨_, he, rfl, ?_, rfl, rfl, rfl, rfl, hl, rfl, rfl⟩
  rw [State.finished_tr, wireOf_okEvents]
  exact congrArg _ (ftSyms_window (Params.one_le_chunkMax hok) x0 x1 y0 y1)

end Sys2Proof.Machine
end

/-! ## The wire instructions (R104 to R110, R152 to R162) -/

section
namespace Sys2Proof.Machine

@[simp] theorem State.wired_tr (s : State) (fts : List FT) (ck : ChunkRegs) : (s.wired fts ck).tr = s.tr ++ okEvents fts := by
  unfold State.wired
  split <;> rfl

@[simp] theorem State.wired_rx (s : State) (fts : List FT) (ck : ChunkRegs) : (s.wired fts ck).rx = rxAfter s.rx fts := by
  unfold State.wired
  split <;> rfl

/-- A wire instruction whose every transfer is accepted: what it adds to the trace, and what the receiver makes of it. -/
theorem exec_wire_sent {s : State} {i : Instr} (hi : i.isWire = true) (hok : s.par.ok = true)
    (ha : AnswersOk s (wireWork s.par.chunkMax i).length) :
    ∃ t, exec i s = .next t ∧ t.tr = s.tr ++ okEvents (wireWork s.par.chunkMax i) ∧
      t.rx = rxAfter s.rx (wireWork s.par.chunkMax i) := by
  obtain ⟨hsent, -⟩ := exec_wire hi hok
  obtain ⟨ck, he⟩ := hsent ha
  exact ⟨_, he, s.wired_tr _ ck, s.wired_rx _ ck⟩

/-- An instruction encoded in wire space is a wire instruction, and its work list is the command and payload of its encoding
(R60, R104 to R110). -/
theorem wireWork_of_encode {i : Instr} {items : List Item} (h : encode i = .wire items) (m : Nat) :
    i.isWire = true ∧ ∃ c bytes, items = wireCode c bytes ∧ wireWork m i = cmdWork c ++ dataWork m bytes := by
  cases i with
  | wPixfmt p => exact ⟨rfl, .pixfmt, [p], (Code.wire.inj h).symm, rfl⟩
  | wMemctl p => exact ⟨rfl, .memctl, [p], (Code.wire.inj h).symm, rfl⟩
  | wSlpout => exact ⟨rfl, .slpout, [], (Code.wire.inj h).symm, rfl⟩
  | wDispon => exact ⟨rfl, .dispon, [], (Code.wire.inj h).symm, rfl⟩
  | wColset a b => exact ⟨rfl, .colset, bytes16 a ++ bytes16 b, (Code.wire.inj h).symm, rfl⟩
  | wRowset a b => exact ⟨rfl, .rowset, bytes16 a ++ bytes16 b, (Code.wire.inj h).symm, rfl⟩
  | wMemwr cs => exact ⟨rfl, .memwr, pixelBytes cs, (Code.wire.inj h).symm, rfl⟩
  | init | teardown | setwin | drawpixel | fillscreen | drawtext => exact Code.noConfusion h

/-- A command and its payload are their items, however the payload is cut (R58, R103). -/
theorem ftSyms_wireCode {m : Nat} (hm : 1 ≤ m) (c : WireCmd) (bytes : List Byte) :
    ftSyms (cmdWork c ++ dataWork m bytes) = symsOf (wireCode c bytes) := by
  rw [ftSyms_append, ftSyms_data hm]
  rfl

/-- Settles O37: the work list of the instruction is the command and payload of its encoding. -/
theorem wireInstructionsPutTheirEncodingOnTheWire : Obligations.WireInstructionsPutTheirEncodingOnTheWire := by
  intro s i items henc hok ha
  obtain ⟨hi, c, bytes, rfl, hwork⟩ := wireWork_of_encode henc s.par.chunkMax
  obtain ⟨t, he, htr, -⟩ := exec_wire_sent hi hok ha
  refine ⟨t, he, ?_⟩
  rw [htr, wireOf_okEvents, hwork, ftSyms_wireCode (Params.one_le_chunkMax hok)]

/-- A payload of `n` bytes is at most `n` transfers: each carries at least one of them (R97, R98). -/
theorem length_dataWork_le {m : Nat} (hm : 1 ≤ m) (bytes : List Byte) : (dataWork m bytes).length ≤ bytes.length := by
  rw [dataWork, List.length_map, chunks_length bytes hm]
  refine Nat.le_of_lt_succ (Nat.div_lt_of_lt_mul ?_)
  have hle := Nat.le_mul_of_pos_left bytes.length hm
  rw [Nat.mul_succ]
  omega

/-- A column or row set is at most five transfers (R108, R109). -/
theorem length_rangeWork_le {m : Nat} (hm : 1 ≤ m) (c : WireCmd) (a b : Half) :
    (cmdWork c ++ dataWork m (bytes16 a ++ bytes16 b)).length ≤ 5 := by
  have hle : (dataWork m (bytes16 a ++ bytes16 b)).length ≤ 4 := length_dataWork_le hm _
  rw [List.length_append]
  exact Nat.add_le_add_left hle 1

/-- Settles O41, by what the receiver makes of each range command. -/
theorem receiverTakesTheRanges : Obligations.ReceiverTakesTheRanges := by
  intro s a b hok hl hr ha
  have hm := Params.one_le_chunkMax hok
  constructor
  · obtain ⟨t, he, -, hrx⟩ := exec_wire_sent (i := .wColset a b) rfl hok (ha.mono (length_rangeWork_le hm .colset a b))
    exact ⟨t, he, hrx.trans (rxAfter_colset hm hl hr a b)⟩
  · obtain ⟨t, he, -, hrx⟩ := exec_wire_sent (i := .wRowset a b) rfl hok (ha.mono (length_rangeWork_le hm .rowset a b))
    exact ⟨t, he, hrx.trans (rxAfter_rowset hm hl hr a b)⟩

/-- The receiver after a W_MEMWR with no more pixels than its window holds (R158 to R162). -/
def Receiver.filled (r : Receiver) (x0 x1 y0 y1 : Half) (cs : List Half) : Receiver :=
  Receiver.painted { r.opened x0 x1 y0 y1 with dc := some !cs.isEmpty } x0 x1 y0 0 cs

/-- A receiver whose window has had all its pixels is at rest again, in step with the engine (R164, R172e). -/
theorem Receiver.filled_synced {r : Receiver} {x0 x1 y0 y1 : Half} (h : r.Synced) {cs : List Half}
    (hc : cs.length = (x1.toNat - x0.toNat + 1) * (y1.toNat - y0.toNat + 1)) : (r.filled x0 x1 y0 y1 cs).Synced := by
  obtain ⟨hl, -, hp, ho⟩ := h
  have hrem : (r.filled x0 x1 y0 y1 cs).remaining = 0 := Nat.sub_eq_zero_of_le hc.ge
  refine ⟨hl, ⟨rfl, ?_⟩, hp, ho⟩
  simp only [Receiver.payloadOpen, hrem]
  rfl

/-- Pixel `k` stands where R65 puts it. -/
theorem Receiver.filled_read (r : Receiver) (x0 x1 y0 y1 : Half) (cs : List Half) (k : Nat) (h : k < cs.length) :
    FrameMem.read (r.filled x0 x1 y0 y1 cs).fb (x0.toNat + k % (x1.toNat - x0.toNat + 1))
      (y0.toNat + k / (x1.toNat - x0.toNat + 1)) = some cs[k] := by
  have hread := paint_read x0.toNat y0.toNat (x1.toNat - x0.toNat + 1) r.fb 0 cs k h
  rwa [Nat.zero_add] at hread

/-- No other pixel changes (R161). -/
theorem Receiver.filled_read_other (r : Receiver) (x0 x1 y0 y1 : Half) (cs : List Half) {x y : Nat}
    (h : ∀ k, k < cs.length → ¬(x = x0.toNat + k % (x1.toNat - x0.toNat + 1) ∧ y = y0.toNat + k / (x1.toNat - x0.toNat + 1))) :
    FrameMem.read (r.filled x0 x1 y0 y1 cs).fb x y = FrameMem.read r.fb x y :=
  paint_read_other x0.toNat y0.toNat _ r.fb 0 cs fun k _ hk hxy => h k (by omega) ⟨hxy.1.symm, hxy.2.symm⟩

/-- Settles O42: the receiver paints the stream from the first corner of its window. -/
theorem memoryWriteIsRowMajor : Obligations.MemoryWriteIsRowMajor := by
  rintro s cs x0 x1 y0 y1 _ _ hok hs hq hxs hxe hys hye hw rfl rfl hc ha
  have hwin : s.rx.Windowed x0 x1 y0 y1 := ⟨hs, hq, hxs, hxe, hys, hye, hw⟩
  obtain ⟨t, he, -, hrx⟩ := exec_wire_sent (i := .wMemwr cs) rfl hok ha
  replace hrx : t.rx = s.rx.filled x0 x1 y0 y1 cs :=
    hrx.trans (rxAfter_memwr_pixels (Params.one_le_chunkMax hok) hwin cs hc)
  obtain ⟨⟨hdesync, -, -⟩, -, -, -⟩ := hs
  refine ⟨t, he, ?_⟩
  rw [hrx]
  refine ⟨hdesync, rfl, rfl, rfl, ?_, ?_, fun hn => ?_, fun k hk => ?_, fun x y hxy => ?_⟩
  · simp only [Receiver.filled, Receiver.painted, Nat.zero_add]
  · simp only [Receiver.filled, Receiver.painted, Nat.zero_add]
  · exact Receiver.filled_synced hwin.synced hn
  · exact s.rx.filled_read x0 x1 y0 y1 cs k hk
  · exact s.rx.filled_read_other x0 x1 y0 y1 cs hxy

end Sys2Proof.Machine
end

/-! ## The backlight and the releases at the receiver (R85, R148, R170) -/

section
namespace Sys2Proof.Machine

/-- The event moves the level of the backlight line at the receiver (R148). -/
def Event.movesBacklight : Event → Bool
  | .claim .bl _ .ok => true
  | .release .bl => true
  | .pin .bl _ => true
  | _ => false

theorem Receiver.setLine_bl (r : Receiver) {l : Line} (hl : l ≠ .bl) (v : Level) : (r.setLine l v).bl = r.bl := by
  cases l with
  | dc => rfl
  | bl => exact absurd rfl hl
  | rst =>
    cases v with
    | false => rfl
    | true =>
      simp only [Receiver.setLine, Receiver.resetHigh]
      split <;> rfl

theorem Receiver.feed_bl (r : Receiver) (bytes : List Byte) : (r.feed bytes).bl = r.bl := by
  unfold Receiver.feed
  split
  · rfl
  · obtain ⟨-, -, hbl, -⟩ := Receiver.items_lines r ‹Level› bytes
    exact hbl

theorem Receiver.observe_bl (r : Receiver) {e : Event} (he : e.movesBacklight = false) : (r.observe e).bl = r.bl := by
  cases e with
  | openBus _ _ _ _ | closeBus | delay _ => rfl
  | claim l v a =>
    cases a with
    | fail => rfl
    | ok => exact r.setLine_bl (by rintro rfl; cases he) v
  | release l =>
    cases l with
    | dc | rst => rfl
    | bl => cases he
  | pin l v => exact r.setLine_bl (by rintro rfl; cases he) v
  | xfer bytes a =>
    cases a with
    | ok => exact r.feed_bl bytes
    | fail => rfl

theorem Receiver.observes_bl (r : Receiver) {evs : List Event} (h : evs.any Event.movesBacklight = false) :
    (evs.foldl Receiver.observe r).bl = r.bl := by
  induction evs generalizing r with
  | nil => rfl
  | cons e evs ih =>
    obtain ⟨he, hevs⟩ := Bool.or_eq_false_iff.mp h
    exact (ih _ hevs).trans (r.observe_bl he)

theorem okEvents_movesBacklight (fts : List FT) : (okEvents fts).any Event.movesBacklight = false := by
  induction fts with
  | nil => rfl
  | cons f fts ih => exact ih

theorem failEvents_movesBacklight {fts : List FT} {k : Nat} (hk : k < fts.length) :
    (failEvents fts k).any Event.movesBacklight = false := by
  rw [failEvents_eq hk, List.any_append, okEvents_movesBacklight]
  rfl

/-- An INIT with a refused acquisition never claims the backlight line (R86): it is the last of the four. -/
theorem acquireRefused_movesBacklight (p : Params) {k : Nat} (hk : k < 4) :
    ((acquireEvents p .ok).take k ++ ((acquireEvents p .fail).drop k).take 1).any Event.movesBacklight = false := by
  match k, hk with
  | 0, _ | 1, _ | 2, _ | 3, _ => rfl

/-- An INIT broken off at a transfer leaves the backlight line at its claim level (R87). -/
theorem observes_initFailEvents_bl (r : Receiver) (p : Params) (k : Nat) :
    ((initFailEvents p k).foldl Receiver.observe r).bl = some p.blInit := by
  rw [initFailEvents, List.foldl_append, Receiver.observes_bl]
  · rw [List.foldl_append, Receiver.observes_bl]
    · rfl
    · rfl
  · split
    next hk => exact failEvents_movesBacklight hk
    next => rw [List.any_append, List.any_append, okEvents_movesBacklight]; rfl

/-- The receiver after the lines that are held are released, in the reference order (R89, R148). -/
def Receiver.dropHeld (r : Receiver) (c : Claimed) : Receiver :=
  let r := if c.bl then r.dropLine .bl else r
  let r := if c.rst then r.dropLine .rst else r
  if c.dc then r.dropLine .dc else r

/-- What TEARDOWN makes of the receiver, in whatever order it releases (R90). -/
theorem observes_releaseEvents (r : Receiver) {p : Params} (hok : p.ok = true) (c : Claimed) :
    (releaseEvents p.releaseOrder c).foldl Receiver.observe r = r.dropHeld c := by
  rw [observes_release_perm r (Params.releaseOrder_perm hok), releaseEvents_reference]
  rcases c with ⟨bus, dc, rst, bl⟩
  cases bus <;> cases dc <;> cases rst <;> cases bl <;> rfl

theorem Receiver.dropHeld_bl (r : Receiver) (c : Claimed) : (r.dropHeld c).bl = if c.bl then none else r.bl := by
  rcases c with ⟨bus, dc, rst, bl⟩
  cases dc <;> cases rst <;> cases bl <;> rfl

/-- Only the release of the reset line touches the contents of the controller (R148). -/
theorem Receiver.dropHeld_fb (r : Receiver) {c : Claimed} (hc : c.rst = false) :
    (r.dropHeld c).fb = r.fb ∧ (r.dropHeld c).desync = r.desync := by
  rcases c with ⟨bus, dc, rst, bl⟩
  obtain rfl : rst = false := hc
  cases dc <;> cases bl <;> exact ⟨rfl, rfl⟩

theorem State.tornDown_rx {s : State} (hok : s.par.ok = true) : s.tornDown.rx = s.rx.dropHeld s.claimed :=
  observes_releaseEvents s.rx hok s.claimed

/-- The backlight is on only while its line is held, over a configured controller (R170). -/
def State.LitOnlyConfigured (s : State) : Prop :=
  s.rx.bl = some s.par.blOn → s.claimed.bl = true ∧ s.rx.Lit s.par

theorem backlightOk_iff (s : State) :
    s.BacklightOk ↔ s.LifecycleOk ∧ s.par.ok = true ∧ s.par.blInit ≠ s.par.blOn ∧ s.LitOnlyConfigured := Iff.rfl

theorem State.LitOnlyConfigured.of_dark {s : State} (h : s.rx.bl ≠ some s.par.blOn) : s.LitOnlyConfigured :=
  fun hon => absurd hon h

/-- Where the line is not held the backlight is not on. -/
theorem State.LitOnlyConfigured.dark {s : State} (h : s.LitOnlyConfigured) (hc : s.claimed.bl = false) :
    s.rx.bl ≠ some s.par.blOn :=
  fun hon => absurd (h hon).1 (ne_true_of_eq_false hc)

/-- Window programs and pixels keep the controller configured. -/
theorem Receiver.Lit.keeps {r q : Receiver} {p : Params} (h : r.Lit p) (hk : r.Keeps q) : q.Lit p := by
  obtain ⟨hpix, hmad, hsleep, hdisp, hvis⟩ := h
  exact ⟨hk.pixfmt.trans hpix, hk.madctl.trans hmad, hk.sleepOut.trans hsleep, hk.displayOn.trans hdisp,
    hk.visualUndefined.trans hvis⟩

theorem State.LitOnlyConfigured.keeps {s t : State} (h : s.LitOnlyConfigured) (hk : s.rx.Keeps t.rx)
    (hc : t.claimed = s.claimed) (hp : t.par = s.par) : t.LitOnlyConfigured := by
  intro hon
  rw [hk.bl, hp] at hon
  obtain ⟨hheld, hlit⟩ := h hon
  rw [hc, hp]
  exact ⟨hheld, hlit.keeps hk⟩

/-- The controller after a whole INIT is configured, awake and on (R149 to R155). -/
theorem lit_initEvents (r : Receiver) {p : Params} (hok : p.ok = true) :
    ((initEvents p).foldl Receiver.observe r).Lit p := by
  rw [observes_initEvents r hok]
  exact ⟨rfl, rfl, rfl, rfl, rfl⟩

/-- Every way a host operation ends keeps the backlight off unless the controller is configured. -/
theorem HostResult.litOnlyConfigured {s t : State} (hs : s.BacklightOk) (h : HostResult s t) : t.LitOnlyConfigured := by
  obtain ⟨⟨-, -, hun, -, -⟩, hok, hne, hlit⟩ := (backlightOk_iff s).mp hs
  cases h with
  | refused r hr => exact hlit
  | inited hl ck => exact fun _ => ⟨rfl, lit_initEvents s.rx hok⟩
  | @initRefused hl k hk =>
    have hkeep : (s.initRefused k).rx.bl = s.rx.bl := s.rx.observes_bl (acquireRefused_movesBacklight s.par hk)
    exact .of_dark (hkeep ▸ hlit.dark (by rw [hun hl]))
  | @initBroke hl k hk ck =>
    have hinit : (s.initBroke k ck).rx.bl = some s.par.blInit := observes_initFailEvents_bl s.rx s.par k
    exact .of_dark (hinit ▸ fun hon => hne (Option.some.inj hon))
  | tornDown _ =>
    refine .of_dark ?_
    rw [State.tornDown_rx hok, Receiver.dropHeld_bl]
    split
    next => exact (Option.some_ne_none _).symm
    next hc => exact hlit.dark (eq_false_of_ne_true hc)
  | finished hl hi dp gx ck => exact hlit.keeps (rxAfter_keeps s.rx (drawList_drawWork s _)) rfl rfl
  | stopped hl hi hk dp gx ck =>
    obtain ⟨-, hrx, -⟩ := grows_stopped s hk dp gx ck
    exact hlit.keeps (hrx ▸ observes_failEvents_keeps s.rx hk (drawList_drawWork s _)) rfl rfl

/-- Settles O54, by how a step between operations can end. -/
theorem backlightOnlyOverAConfiguredController : Obligations.BacklightOnlyOverAConfiguredController := by
  intro s t hs h
  obtain ⟨hlife, hok, hne, -⟩ := (backlightOk_iff s).mp hs
  rcases step_hostResult hlife.1 h with rfl | ⟨-, hr⟩
  · exact hs
  · obtain ⟨hpar, -, -, -, -⟩ := inputsNeverChange s t h
    rw [backlightOk_iff, hpar]
    exact ⟨lifecycleStaysLegal s t hlife h, hok, hne, hr.litOnlyConfigured hs⟩

end Sys2Proof.Machine
end

/-! ## INIT and TEARDOWN (R80 to R92) -/

section
namespace Sys2Proof.Machine

/-- Settles O12: the state after an accepted INIT. -/
theorem initRunsTheWholeSequence : Obligations.InitRunsTheWholeSequence := by
  intro s hok hl ha
  obtain ⟨ck, he⟩ := exec_init_ok hok hl ha
  exact ⟨_, he, rfl, rfl, rfl, rfl, rfl, rfl, rfl⟩

/-- Settles O13, by what the receiver makes of the 22 events. -/
theorem initConfiguresTheReceiver : Obligations.InitConfiguresTheReceiver := by
  intro s hok hl ha
  obtain ⟨ck, he⟩ := exec_init_ok hok hl ha
  exact ⟨_, he, observes_initEvents s.rx hok⟩

/-- Settles O14: the state after an INIT with a refused acquisition. -/
theorem initStopsAtARefusedResource : Obligations.InitStopsAtARefusedResource := by
  intro s k hok hl hc hk hf
  have hclaimed : (s.initRefused k).claimed = claimedAfter s.claimed k := rfl
  refine ⟨_, exec_init_refusedResource hok hl hk hf, ?_, ?_, rfl, rfl, rfl⟩
  · exact (List.append_assoc _ _ _).symm
  · rw [hclaimed, hc, claimedAfter_none]

/-- Settles O15: the state after an INIT with a rejected transfer, which is Desync at the receiver (R168). -/
theorem initStopsAtARejectedTransfer : Obligations.InitStopsAtARejectedTransfer := by
  intro s k hok hl hk hf
  obtain ⟨ck, he⟩ := exec_init_broke hok hl hk hf
  exact ⟨_, he, rfl, rfl, rfl, rfl, rfl, rfl, desync_initFailEvents s.rx s.par k, rfl⟩

/-- The order of releases is a matter of order alone (R90). -/
theorem releaseEvents_perm {a b : List Resource} (h : a.Perm b) (c : Claimed) :
    (releaseEvents a c).Perm (releaseEvents b c) := (h.filter _).map _

/-- Settles O16: the state after TEARDOWN, and what the releases make of the receiver. -/
theorem teardownReleasesWhatIsClaimed : Obligations.TeardownReleasesWhatIsClaimed := by
  intro s hok
  refine ⟨⟨_, exec_teardown hok, rfl, rfl, rfl, rfl, rfl, rfl, fun hc => ?_⟩,
    releaseEvents_perm (Params.releaseOrder_perm hok) s.claimed⟩
  rw [State.tornDown_rx hok, hc]
  rfl

/-- Where nothing is held there is nothing to release. -/
theorem releaseEvents_none (order : List Resource) : releaseEvents order ⟨false, false, false, false⟩ = [] := by
  have hno : order.filter (Claimed.holds ⟨false, false, false, false⟩) = [] :=
    List.filter_eq_nil_iff.mpr fun r _ => by cases r <;> exact Bool.false_ne_true
  rw [releaseEvents, hno, List.map_nil]

/-- Settles O17: after the first TEARDOWN nothing is held, so the second has nothing to release. -/
theorem teardownIsIdempotent : Obligations.TeardownIsIdempotent := by
  intro s hok hp
  have hpins : s.tornDown.pins = ⟨none, none, none⟩ := (pinsFollowClaims_tornDown hp).none_of_unclaimed rfl
  have htr : s.tornDown.tornDown.tr = s.tornDown.tr ++ releaseEvents s.par.releaseOrder ⟨false, false, false, false⟩ := rfl
  have hrx : s.tornDown.tornDown.rx = s.tornDown.rx := State.tornDown_rx (s := s.tornDown) hok
  refine ⟨_, _, exec_teardown hok, exec_teardown (s := s.tornDown) hok, ?_, hrx, rfl, rfl, hpins, rfl, rfl, rfl, rfl⟩
  rw [htr, releaseEvents_none, List.append_nil]

/-- A wait of 10 ms after the reset pulse is long enough for the receiver to listen (R7, R150). -/
theorem Params.resetHold_le_tRstHigh {p : Params} (h : p.ok = true) : Config.resetHold ≤ p.tRstHigh := by
  simp only [Params.ok, Bool.and_eq_true, decide_eq_true_eq] at h
  obtain ⟨⟨⟨⟨⟨⟨-, hhigh⟩, -⟩, -⟩, -⟩, -⟩, -⟩ := h
  exact hhigh

/-- The receiver after a whole INIT is in step with the engine (R158, R172). -/
theorem synced_initEvents (r : Receiver) {p : Params} (hok : p.ok = true) :
    ((initEvents p).foldl Receiver.observe r).Synced := by
  rw [observes_initEvents r hok]
  exact ⟨⟨rfl, rfl, Nat.le_add_right_of_le (Params.resetHold_le_tRstHigh hok)⟩, ⟨rfl, rfl⟩, rfl, rfl⟩

/-- Settles O18: TEARDOWN consumes no answer and ends in `uninitialized`, and the reset pulse of INIT forgets the rest. -/
theorem teardownAndInitRecover : Obligations.TeardownAndInitRecover := by
  intro s hok ha
  have hnext : AnswersOk s.tornDown 10 := fun i hi => (s.tornDown_responseAt i).trans (ha i hi)
  obtain ⟨ck, he⟩ := exec_init_ok (s := s.tornDown) hok rfl hnext
  exact ⟨_, _, exec_teardown hok, he, rfl, synced_initEvents _ hok, lit_initEvents _ hok⟩

/-- Settles O19, for INIT and for the drawing operations. -/
theorem operationsOutsideTheirStateAreRefused : Obligations.OperationsOutsideTheirStateAreRefused := by
  rintro s i hok (⟨rfl, hl⟩ | ⟨hi, hl⟩)
  · exact exec_init_outside hok hl
  · exact exec_drawing_refused hi hok hl

/-- What INIT leaves unchanged, however it ends. -/
theorem exec_init_frame {s t : State} (h : exec .init s = .next t) : SameInputs s t ∧ t.dp = s.dp ∧ t.gx = s.gx := by
  obtain ⟨-, ⟨-, rfl⟩ | ⟨-, -, ck, rfl⟩ | ⟨-, k, -, -, rfl⟩ | ⟨-, k, -, -, ck, rfl⟩⟩ := exec_init_cases h <;>
    exact ⟨⟨rfl, rfl, rfl, rfl, rfl⟩, rfl, rfl⟩

/-- Settles O60, by the ways INIT can end and by the one state TEARDOWN answers. -/
theorem frameOfLifecycle : Obligations.FrameOfLifecycle := by
  refine fun s t => ⟨exec_init_frame, fun h => ?_⟩
  have hok := exec_ok h
  obtain rfl := Host.Outcome.next.inj ((exec_teardown hok).symm.trans h)
  refine ⟨⟨rfl, rfl, rfl, rfl, rfl⟩, rfl, rfl, rfl, rfl, rfl, fun hc => ?_⟩
  rw [State.tornDown_rx hok]
  exact s.rx.dropHeld_fb hc

end Sys2Proof.Machine
end

/-! ## Small steps of an operation in progress (R111, R124, R146) -/

section
namespace Sys2Proof.Machine

/-- A step of an operation in progress takes the head of its work list, the tail being what is left (R111). -/
theorem step_head {s : State} (hok : s.par.ok = true) {w : Work} {rest : List Work} (hw : s.work = w :: rest) :
    step s = .next ((s.over rest).runWork w).state :=
  (step_work hw).trans (execWork_eq (s := s.over rest) hok w)

/-- An accepted framed transfer; where it is a chunk of DATA it is counted (R94, R111). -/
theorem State.runWork_ft_ok {s : State} (v : Level) (bytes : List Byte) (h : s.responseAt 0 = .ok) :
    s.runWork (.ft v bytes) = .go ((s.sent [(v, bytes)]).withRegs s.dp s.gx
      (if v then { s.ck with clen := bytes.length, spos := s.ck.spos + bytes.length } else s.ck)) := by
  cases v with
  | false => exact State.framed_ok false bytes h
  | true =>
    have hframed : (s.loadChunk bytes.length).framed true bytes = .go ((s.loadChunk bytes.length).sent [(true, bytes)]) :=
      State.framed_ok true bytes h
    rw [State.runWork, State.sendChunk, hframed]
    rfl

/-- A framed transfer of an operation in progress, accepted or rejected (R111). -/
theorem step_ft {s : State} (hok : s.par.ok = true) {v : Level} {bytes : List Byte} {rest : List Work}
    (hw : s.work = .ft v bytes :: rest) :
    (s.responseAt 0 = .ok → step s = .next (((s.over rest).sent [(v, bytes)]).withRegs s.dp s.gx
      (if v then { s.ck with clen := bytes.length, spos := s.ck.spos + bytes.length } else s.ck))) ∧
    (s.responseAt 0 = .fail → ∃ ck, step s = .next (((s.over rest).broke [] (v, bytes)).withRegs s.dp s.gx ck)) := by
  refine ⟨fun h => ?_, fun h => ?_⟩
  · rw [step_head hok hw, State.runWork_ft_ok (s := s.over rest) v bytes h]
    rfl
  · rw [step_work hw]
    exact (execWork_ft (s := s.over rest) hok v bytes).2 h

/-- `T_FETCH` at the end of the text: the expander is done (R146). -/
theorem State.fetchChar_end {s : State} (addr : Half) {len : Half} (h : s.gx.ci = len) : s.fetchChar addr len = s :=
  if_pos h

/-- `T_FETCH` of a newline (R128, R146). -/
theorem State.fetchChar_newline {s : State} {addr len : Half} (h : s.gx.ci ≠ len) (hc : s.textAt (addr + s.gx.ci) = 0x0A) :
    s.fetchChar addr len = { s with work := .text .fetch addr len :: s.work, gx := { s.gx with ch := 0x0A, ci := s.gx.ci + 1 },
                                    dp := { s.dp with cx := s.dp.lsx, cy := s.dp.cy + 10 } } := by
  have hnl : isNewline (s.readChar addr).gx.ch = true := beq_iff_eq.mpr hc
  simp only [State.fetchChar, h, hnl, if_true, if_false]
  simp [State.pushWork, State.nextChar, State.newLine, State.readChar, hc, Config.linePitch]

/-- `T_FETCH` of any other character: its glyph begins (R129, R146). -/
theorem State.fetchChar_glyph {s : State} {addr len : Half} (h : s.gx.ci ≠ len) (hc : s.textAt (addr + s.gx.ci) ≠ 0x0A) :
    s.fetchChar addr len = ((s.readChar addr).setGr 0).pushWork [.text .row addr len] := by
  have hnl : isNewline (s.readChar addr).gx.ch = false := beq_eq_false_iff_ne.mpr hc
  simp only [State.fetchChar, h, hnl, if_false, Bool.false_eq_true]

/-- `T_BIT` at a clear bit, and where the window machine has returned, goes on to the next bit (R146). -/
theorem State.expand_afterBit {s : State} {q : TextPhase} (addr len : Half)
    (h : q = .pixelDone ∨ (q = .bit ∧ s.gx.rowb.getLsbD s.gx.gc.toNat = false)) :
    s.expand q addr len = s.afterBit addr len := by
  obtain rfl | ⟨rfl, hb⟩ := h
  · rfl
  · exact if_neg (ne_true_of_eq_false hb)

/-- `T_BIT` at a set bit runs the window machine for one pixel (R131, R146). -/
theorem State.testBit_lit {s : State} (addr len : Half) {x y : Half} (hb : s.gx.rowb.getLsbD s.gx.gc.toNat = true)
    (hx : x = s.dp.cx + BitVec.ofNat 16 s.gx.gc.toNat) (hy : y = s.dp.cy + BitVec.ofNat 16 s.gx.gr.toNat) :
    s.testBit addr len = (s.loadWindow x x y y).pushWork
      (streamElems s.par.chunkMax x x y y (bytes16 s.dp.color) ++ [.text .pixelDone addr len]) := by
  subst hx hy
  rw [BitVec.ofNat_toNat, BitVec.ofNat_toNat]
  exact if_pos hb

/-- The wrap test on the advanced position (R134). -/
theorem State.advanceCursor_eq (s : State) :
    s.advanceCursor = { s with dp := if 320 < s.dp.cx.toNat + 8 + 8 then { s.dp with cx := s.dp.lsx, cy := s.dp.cy + 10 }
                                     else { s.dp with cx := s.dp.cx + 8 } } := by
  have hwraps : (wraps s.dp.cx = true) = (320 < s.dp.cx.toNat + 8 + 8) := decide_eq_true_eq
  simp only [State.advanceCursor, hwraps]
  split <;> rfl

/-- A placed item that begins no wire instruction is sent as one framed transfer of one byte (log 1). -/
theorem step_raw {s : State} (hok : s.par.ok = true) {it : Item} {rest : List Item} {e : Reject} (hw : s.work = [])
    (hs : s.stream = it :: rest) (hd : decodeWire s.stream = .error e) (ha : AnswersOk s 1) :
    ∃ ck, step s = .next (State.wired { s with stream := rest } [(it.dc, [it.byte])] ck) := by
  have hfetch : fetch s = .raw it { s with stream := rest } := by
    rw [hs] at hd
    simp only [fetch, hw, hs, hd]
  rw [step, hfetch]
  exact (wireOp_performs (s := { s with stream := rest }) hok (performs_framed _ it.dc [it.byte])).1 ha

/-- The placed items after a wire instruction are those behind it, whether or not it ends the operation. -/
theorem State.wired_stream (s : State) (fts : List FT) (ck : ChunkRegs) :
    (s.wired fts ck).stream = s.stream := by
  unfold State.wired
  split
  next hb => exact hb.2.symm
  next => rfl

/-- Settles O7, element by element of the work list. -/
theorem stepTakesTheHeadOfTheWork : Obligations.StepTakesTheHeadOfTheWork := by
  intro s hok
  refine ⟨fun v bytes rest hw => ?_, fun n rest hw => step_head hok hw, fun l v rest hw => ?_, fun ms rest hw => ?_,
    fun rest hw => step_head hok hw, fun rest hw => ?_, fun addr len rest hw => ?_, fun addr len rest hw => step_head hok hw,
    fun addr len rest hw hb x y hx hy => ?_, fun q addr len rest hw hq => ?_, fun addr len rest hw => ?_,
    fun it rest e hw hs hd ha => ?_⟩
  -- a framed transfer (R111)
  · obtain ⟨hacc, hrej⟩ := step_ft hok hw
    refine ⟨fun h => ⟨_, hacc h, rfl, rfl, rfl, rfl, rfl, rfl, rfl, rfl, rfl, rfl, rfl, rfl, rfl⟩, fun h => ?_⟩
    obtain ⟨ck, he⟩ := hrej h
    obtain ⟨htr, -⟩ := grows_broke (s.over rest) (fts := [(v, bytes)]) (k := 0) Nat.one_pos s.dp s.gx ck
    exact ⟨_, he, htr, ⟨rfl, rfl⟩, rfl, rfl, rfl, rfl, rfl⟩
  -- `Pin`, `Delay` and `DONE`
  · exact ⟨_, step_head hok hw, rfl, rfl, rfl, rfl, rfl, rfl, rfl, rfl, rfl, rfl⟩
  · exact ⟨_, step_head hok hw, rfl, rfl, rfl, rfl, rfl, rfl, rfl, rfl, rfl, rfl, rfl⟩
  · exact ⟨_, step_head hok hw, ⟨rfl, rfl⟩, rfl, rfl, rfl, rfl, rfl⟩
  -- `T_FETCH`: the end, a newline, a glyph
  · refine ⟨fun h => ?_, fun h hc => ?_, fun h hc => ?_⟩ <;> refine (step_head hok hw).trans (congrArg _ ?_)
    · exact State.fetchChar_end (s := s.over rest) addr h
    · exact State.fetchChar_newline (s := s.over rest) h hc
    · exact State.fetchChar_glyph (s := s.over rest) h hc
  -- `T_BIT` at a lit bit, at a bit that is done, and `T_ADV`
  · refine (step_head hok hw).trans (congrArg _ ((State.testBit_lit (s := s.over rest) addr len hb hx hy).trans ?_))
    simp only [State.pushWork, List.append_assoc]
    rfl
  · exact (step_head hok hw).trans (congrArg _ (State.expand_afterBit (s := s.over rest) addr len hq))
  · rw [step_head hok hw, State.runWork, State.expand, State.advanceCursor_eq]
    rfl
  -- a placed item that begins no wire instruction
  · obtain ⟨ck, he⟩ := step_raw hok hw hs hd ha
    exact ⟨_, he, State.wired_tr _ _ _, State.wired_stream _ _ _⟩

end Sys2Proof.Machine
end

/-! ## Chunks (R97 to R99) -/

section
namespace Sys2Proof.Machine

@[simp] theorem chunksFuel_nil (n m : Nat) : chunksFuel n m [] = [] := by
  cases n <;> rfl

/-- Every chunk but the last is full: one is cut short only where it takes all that is left (R97, R99). -/
theorem chunksFuel_full {n m : Nat} {bytes ch : List Byte} (h : ch ∈ (chunksFuel n m bytes).dropLast) : ch.length = m := by
  induction n generalizing bytes with
  | zero => simp [chunksFuel] at h
  | succ n ih =>
    by_cases hb : bytes = []
    · simp [hb] at h
    · simp only [chunksFuel, hb, if_false] at h
      by_cases hrest : chunksFuel n m (bytes.drop m) = []
      · simp [hrest] at h
      · rw [List.dropLast_cons_of_ne_nil hrest] at h
        rcases List.mem_cons.mp h with rfl | h
        · have hleft : bytes.drop m ≠ [] := fun he => hrest (by rw [he, chunksFuel_nil])
          rw [ne_eq, List.drop_eq_nil_iff, Nat.not_le] at hleft
          exact List.length_take_of_le hleft.le
        · exact ih h

/-- Settles O47: the laws of the chunking function, with every chunk but the last full. -/
theorem chunksPartitionTheStream : Obligations.ChunksPartitionTheStream := fun _ bytes hm =>
  ⟨chunks_flatten bytes hm, chunks_length bytes hm, fun _ => chunks_bound hm, fun _ => chunksFuel_full⟩

end Sys2Proof.Machine
end

/-! ## Where a wire instruction or a drawing operation ends (R102, R111) -/

section
namespace Sys2Proof.Machine

/-- A wire instruction with more left to do goes on (log 1). -/
theorem State.wired_inProgress {s : State} (hb : ¬s.Between) (fts : List FT) (ck : ChunkRegs) :
    s.wired fts ck = (s.sent fts).withRegs s.dp s.gx ck := if_neg hb

/-- A wire instruction with nothing left to do ends `OK` (log 1). -/
theorem State.wired_between {s : State} (hb : s.Between) (fts : List FT) (ck : ChunkRegs) :
    s.wired fts ck = ((s.sent fts).withRegs s.dp s.gx ck).endOp ⟨.ok, 0⟩ := if_pos hb

@[simp] theorem State.wired_lc (s : State) (fts : List FT) (ck : ChunkRegs) : (s.wired fts ck).lc = s.lc := by
  unfold State.wired
  split <;> rfl

/-- Settles O36: its transfers are sent, and whether something is left decides if the operation goes on. -/
theorem wireInstructionsEmitTheirTransfers : Obligations.WireInstructionsEmitTheirTransfers := by
  intro s i hi hok ha
  obtain ⟨hsent, -⟩ := exec_wire hi hok
  obtain ⟨ck, he⟩ := hsent ha
  refine ⟨_, he, s.wired_tr _ ck, s.wired_lc _ ck, fun hb => ?_, fun hb => ?_⟩
  · rw [State.wired_inProgress hb]
    exact ⟨rfl, rfl, rfl, rfl, rfl, rfl⟩
  · rw [State.wired_between hb]
    exact ⟨⟨rfl, rfl⟩, rfl, rfl, rfl⟩

/-- The status of a rejected transfer carries its index in the operation (R174, R176). -/
theorem State.broke_status (s : State) {fts : List FT} {k : Nat} (hk : k < fts.length) :
    (s.broke (fts.take k) fts[k]).status = ⟨.transferFailure, s.xferIx + k⟩ := by
  have hix : (s.sent (fts.take k)).xferIx = s.xferIx + k := by
    simp only [State.sent, List.length_take_of_le hk.le]
  rw [← hix]
  rfl

/-- Settles O38: the state after the rejected transfer, which is Desync at the receiver (R168). -/
theorem wireInstructionsStopAtARejectedTransfer : Obligations.WireInstructionsStopAtARejectedTransfer := by
  intro s i k hi hok hk hf
  obtain ⟨-, hbroken⟩ := exec_wire hi hok
  obtain ⟨ck, he⟩ := hbroken k hk hf
  obtain ⟨htr, hrx, -⟩ := grows_broke s hk s.dp s.gx ck
  exact ⟨_, he, htr, rfl, ⟨rfl, rfl⟩, s.broke_status hk, rfl, hrx ▸ desync_failEvents s.rx hk⟩

/-- Settles O27: the state after the rejected transfer, the transfers counted from 0 over the whole operation (R93). -/
theorem drawingStopsAtARejectedTransfer : Obligations.DrawingStopsAtARejectedTransfer := by
  intro s i fts k hfts hok hl hk hf
  obtain ⟨hi, rfl⟩ : i.isDrawing = true ∧ fts = drawWork s i := by
    rcases hfts with ⟨x0, x1, y0, y1, rfl, rfl⟩ | ⟨x, y, c, rfl, rfl⟩ | ⟨c, rfl, rfl⟩ | ⟨x, y, c, addr, len, rfl, rfl⟩ <;>
      exact ⟨rfl, rfl⟩
  obtain ⟨-, hstopped⟩ := exec_drawing hi hok hl
  obtain ⟨dp, gx, ck, he, -⟩ := hstopped k hk hf
  obtain ⟨htr, hrx, -⟩ := grows_stopped s hk dp gx ck
  have hstatus : (s.stopped ((drawWork s i).take k) (drawWork s i)[k] dp gx ck).status = ⟨.transferFailure, k⟩ := by
    have h := State.broke_status { s with xferIx := 0 } hk
    rwa [Nat.zero_add] at h
  refine ⟨_, he, htr, rfl, rfl, hstatus, ?_, rfl, hrx ▸ desync_failEvents s.rx hk⟩
  rw [← hstatus]
  rfl

end Sys2Proof.Machine
end

/-! ## A full-screen fill (R119 to R123) -/

section
namespace Sys2Proof.Machine

theorem symsOf_append (a b : List Item) : symsOf (a ++ b) = symsOf a ++ symsOf b := List.map_append

/-- A run of pixels of one colour is its two bytes again and again, as data items (R42, R119). -/
theorem dataItems_repColor (n : Nat) (c : Half) :
    dataItems (repColor n c) = (List.replicate n [⟨true, hi8 c⟩, ⟨true, lo8 c⟩]).flatten := by
  rw [dataItems, repColor, List.map_flatten, List.map_replicate]
  rfl

theorem length_repColor (n : Nat) (c : Half) : (repColor n c).length = n * 2 := by
  simp [repColor, bytes16]

theorem length_dataItems (bytes : List Byte) : (dataItems bytes).length = bytes.length := List.length_map _

/-- The items of a full-screen fill (R119). -/
theorem ftSyms_fill {m : Nat} (hm : 1 ≤ m) (c : Half) :
    ftSyms (fillWork m c) =
      symsOf ([⟨false, 0x2A⟩, ⟨true, 0x00⟩, ⟨true, 0x00⟩, ⟨true, 0x01⟩, ⟨true, 0x3F⟩,
        ⟨false, 0x2B⟩, ⟨true, 0x00⟩, ⟨true, 0x00⟩, ⟨true, 0x00⟩, ⟨true, 0xEF⟩, ⟨false, 0x2C⟩] ++
        (List.replicate 76800 [⟨true, hi8 c⟩, ⟨true, lo8 c⟩]).flatten) := by
  rw [fillWork, ftSyms_append, ftSyms_window hm, ftSyms_data hm, dataItems_repColor, symsOf_append]
  rfl

/-- The number of transfers of a payload (R97). -/
theorem length_dataWork {m : Nat} (hm : 1 ≤ m) (bytes : List Byte) :
    (dataWork m bytes).length = (bytes.length + m - 1) / m := by
  rw [dataWork, List.length_map, chunks_length bytes hm]

/-- A fill is 5 transfers of the window program and, with CHUNK_MAX 4096, 38 of pixels (R121). -/
theorem length_fillWork (c : Half) : (fillWork 4096 c).length = 43 := by
  have hrange (a b : Half) : (bytes16 a ++ bytes16 b).length = 4 := rfl
  have hcmd (w : WireCmd) : (cmdWork w).length = 1 := rfl
  simp only [fillWork, windowWork, List.length_append, hcmd, length_dataWork (show 1 ≤ 4096 by decide), hrange,
    length_repColor]

/-- Each accepted transfer is one Xfer event (R111, R112). -/
theorem xferCount_append_okEvents (tr : List Event) (fts : List FT) :
    xferCount (tr ++ okEvents fts) = xferCount tr + fts.length := by
  induction fts generalizing tr with
  | nil => simp
  | cons f fts ih =>
    have hcons : tr ++ okEvents (f :: fts) = tr ++ ftEvents f .ok ++ okEvents fts := (List.append_assoc _ _ _).symm
    have hone : xferCount (tr ++ ftEvents f .ok) = xferCount tr + 1 := List.countP_append
    rw [hcons, ih, hone, List.length_cons]
    omega

/-- Each accepted transfer is two events: the write of the DC line and the Xfer (R96, R111). -/
theorem length_okEvents (fts : List FT) : (okEvents fts).length = 2 * fts.length := by
  simp [okEvents, ftEvents, Nat.mul_comm]

/-- A fill is 11 items of the window program and two bytes for every pixel (R121). -/
theorem length_ftSyms_fill {m : Nat} (hm : 1 ≤ m) (c : Half) : (ftSyms (fillWork m c)).length = 153611 := by
  have hlength (items : List Item) : (symsOf items).length = items.length := List.length_map _
  rw [ftSyms_fill hm, hlength, ← dataItems_repColor, List.length_append, length_dataItems, length_repColor]
  rfl

/-- Settles O28: the operation sends its whole work list, whose transfers, events and items are counted. -/
theorem fillscreenSendsThePanel : Obligations.FillscreenSendsThePanel := by
  intro s c hok hl ha
  obtain ⟨hsent, -⟩ := exec_drawing (i := .fillscreen c) rfl hok hl
  obtain ⟨dp, gx, ck, he, hdp, -⟩ := hsent ha
  rw [State.finished_dp] at hdp
  subst hdp
  have h1 := Params.one_le_chunkMax hok
  have hwire := wireOf_okEvents s.tr (fillWork s.par.chunkMax c)
  refine ⟨_, he, rfl, hwire.trans (congrArg _ (ftSyms_fill h1 c)), rfl, rfl, rfl, rfl, rfl, hl, rfl, rfl,
    fun hm => ⟨?_, ?_, ?_⟩⟩
  · rw [State.finished_tr, drawWork, xferCount_append_okEvents, hm, length_fillWork]
  · rw [State.finished_tr, drawWork, List.length_append, length_okEvents, hm, length_fillWork]
  · rw [State.finished_tr, drawWork, hwire, List.length_append, length_ftSyms_fill h1]

end Sys2Proof.Machine
end

/-! ## Framed transfers (R95, R96, R101) -/

section
namespace Sys2Proof.Machine

/-- Every transfer of the list is one the engine can make: at least one byte and at most CHUNK_MAX = `m`, a command byte being one
of its own (R93, R101, R111). -/
def TransfersOk (m : Nat) (fts : List FT) : Prop := ∀ f ∈ fts, (Work.ft f.1 f.2).ok m

theorem TransfersOk.append {m : Nat} {a b : List FT} (ha : TransfersOk m a) (hb : TransfersOk m b) : TransfersOk m (a ++ b) :=
  List.forall_mem_append.mpr ⟨ha, hb⟩

theorem TransfersOk.flatMap {α : Type} {m : Nat} {w : α → List FT} (h : ∀ a, TransfersOk m (w a)) (as : List α) :
    TransfersOk m (as.flatMap w) :=
  List.forall_mem_flatMap.mpr fun a _ => h a

/-- One byte is a transfer at either level of the DC line. -/
theorem transfersOk_byte {m : Nat} (hm : 1 ≤ m) (v : Level) (b : Byte) : TransfersOk m [(v, [b])] :=
  List.forall_mem_singleton.mpr ⟨Nat.le_refl 1, hm, fun _ => rfl⟩

theorem transfersOk_cmd {m : Nat} (hm : 1 ≤ m) (c : WireCmd) : TransfersOk m (cmdWork c) := transfersOk_byte hm false c.code

theorem transfersOk_data {m : Nat} (hm : 1 ≤ m) (bytes : List Byte) : TransfersOk m (dataWork m bytes) := by
  refine List.forall_mem_map.mpr fun ch hch => ?_
  obtain ⟨hpos, hle⟩ := chunks_bound hm hch
  exact ⟨hpos, hle, Bool.noConfusion⟩

theorem transfersOk_payload {m : Nat} (hm : 1 ≤ m) (c : WireCmd) (bytes : List Byte) :
    TransfersOk m (cmdWork c ++ dataWork m bytes) := (transfersOk_cmd hm c).append (transfersOk_data hm bytes)

theorem transfersOk_window {m : Nat} (hm : 1 ≤ m) (x0 x1 y0 y1 : Half) : TransfersOk m (windowWork m x0 x1 y0 y1) :=
  (((transfersOk_payload hm _ _).append (transfersOk_cmd hm _)).append (transfersOk_data hm _)).append (transfersOk_cmd hm _)

theorem transfersOk_pixel {m : Nat} (hm : 1 ≤ m) (x y c : Half) : TransfersOk m (pixelWork m x y c) :=
  (transfersOk_window hm x x y y).append (transfersOk_data hm _)

theorem transfersOk_drawWork {s : State} (hm : 1 ≤ s.par.chunkMax) {i : Instr} (hi : i.isDrawing = true) :
    TransfersOk s.par.chunkMax (drawWork s i) := by
  cases i <;> simp only [Instr.isDrawing, Bool.false_eq_true] at hi
  case setwin x0 x1 y0 y1 => exact transfersOk_window hm x0 x1 y0 y1
  case drawpixel x y c => exact transfersOk_pixel hm x y c
  case fillscreen c => exact (transfersOk_window hm 0 319 0 239).append (transfersOk_data hm _)
  case drawtext x y c addr len =>
    exact .flatMap (w := fun p : Half × Half => pixelWork s.par.chunkMax p.1 p.2 c)
      (fun p => transfersOk_pixel hm p.1 p.2 c) (textPixels s x y addr len)

theorem transfersOk_wireWork {m : Nat} (hm : 1 ≤ m) {i : Instr} (hi : i.isWire = true) : TransfersOk m (wireWork m i) := by
  cases i <;> simp only [Instr.isWire, Bool.false_eq_true] at hi
  case wPixfmt p => exact transfersOk_payload hm .pixfmt [p]
  case wMemctl p => exact transfersOk_payload hm .memctl [p]
  case wSlpout => exact transfersOk_cmd hm .slpout
  case wDispon => exact transfersOk_cmd hm .dispon
  case wColset a b => exact transfersOk_payload hm .colset (bytes16 a ++ bytes16 b)
  case wRowset a b => exact transfersOk_payload hm .rowset (bytes16 a ++ bytes16 b)
  case wMemwr cs => exact transfersOk_payload hm .memwr (pixelBytes cs)

/-- Every transfer of INIT is one byte (R83, R84). -/
theorem transfersOk_config (p : Params) {m : Nat} (hm : 1 ≤ m) : TransfersOk m (configWork p) :=
  ((((transfersOk_byte hm false 0x3A).append (transfersOk_byte hm true 0x05)).append
    (transfersOk_byte hm false 0x36)).append (transfersOk_byte hm true p.madctlVal)).append (transfersOk_byte hm false 0x11)

/-- The transfers a step sets out to do, from a work list the engine can have. -/
theorem StepWork.transfersOk {s : State} {fts : List FT} (h : StepWork s fts) (hs : s.WorkOk) (hm : 1 ≤ s.par.chunkMax) :
    TransfersOk s.par.chunkMax fts := by
  cases h with
  | drawing i hi hl => exact transfersOk_drawWork hm hi
  | wire i hi _ => exact transfersOk_wireWork hm hi
  | stray it _ => exact transfersOk_byte hm it.dc it.byte
  | head v bytes hw => exact List.forall_mem_singleton.mpr (hs _ hw)

/-- Every transfer among the events comes immediately after a write of the DC line, and is one the engine can make (R96, R101). -/
def Framed (m : Nat) (evs : List Event) : Prop :=
  ∀ pre bytes r post, evs = pre ++ .xfer bytes r :: post → ∃ pre' v, pre = pre' ++ [.pin .dc v] ∧ (Work.ft v bytes).ok m

/-- Events without a transfer. -/
theorem framed_quiet {evs : List Event} (h : ∀ e ∈ evs, e.isXfer = false) (m : Nat) : Framed m evs := by
  rintro pre bytes r post rfl
  exact Bool.noConfusion (h (.xfer bytes r) (by simp))

/-- The transfers of each part keep their own write of the DC line before them. -/
theorem Framed.append {m : Nat} {a b : List Event} (ha : Framed m a) (hb : Framed m b) : Framed m (a ++ b) := by
  intro pre bytes r post h
  rcases List.append_eq_append_iff.mp h with ⟨as, rfl, hsplit⟩ | ⟨bs, rfl, hsplit⟩
  · obtain ⟨pre', v, rfl, hok⟩ := hb as bytes r post hsplit
    exact ⟨a ++ pre', v, (List.append_assoc _ _ _).symm, hok⟩
  · cases bs with
    | nil =>
      obtain ⟨pre', v, hpre, -⟩ := hb [] bytes r post hsplit.symm
      simp at hpre
    | cons e bs =>
      obtain ⟨rfl, -⟩ := List.cons.inj hsplit
      exact ha pre bytes r bs rfl

/-- The two events of a framed transfer, accepted or not (R96). -/
theorem framed_ftEvents {m : Nat} {f : FT} (h : (Work.ft f.1 f.2).ok m) (a : Response) : Framed m (ftEvents f a) := by
  intro pre bytes r post hsplit
  match pre with
  | [] => exact Event.noConfusion (List.cons.inj hsplit).1
  | [e] =>
    obtain ⟨rfl, hrest⟩ := List.cons.inj hsplit
    obtain ⟨hx, -⟩ := List.cons.inj hrest
    obtain ⟨rfl, -⟩ := Event.xfer.inj hx
    exact ⟨[], f.1, rfl, h⟩
  | _ :: _ :: _ => simp [ftEvents] at hsplit

theorem framed_okEvents {m : Nat} {fts : List FT} (h : TransfersOk m fts) : Framed m (okEvents fts) := by
  induction fts with
  | nil => exact framed_quiet (by simp) m
  | cons f fts ih =>
    obtain ⟨hf, hfts⟩ := List.forall_mem_cons.mp h
    exact (framed_ftEvents hf .ok).append (ih hfts)

theorem framed_failEvents {m : Nat} {fts : List FT} {k : Nat} (hk : k < fts.length) (h : TransfersOk m fts) :
    Framed m (failEvents fts k) := by
  rw [failEvents_eq hk]
  exact (framed_okEvents fun f hf => h f (List.mem_of_mem_take hf)).append
    (framed_ftEvents (h _ (List.getElem_mem hk)) .fail)

/-- INIT up to the end of its reset pulse makes no transfer (R81, R82). -/
theorem framed_pulsed (p : Params) (m : Nat) : Framed m (acquireEvents p .ok ++ pulseEvents p) :=
  (framed_quiet (acquireEvents_quiet p .ok) m).append (framed_quiet (pulseEvents_quiet p) m)

/-- INIT up to the wait after sleep-out (R83, R84). -/
theorem framed_configSent (p : Params) {m : Nat} (hm : 1 ≤ m) :
    Framed m (acquireEvents p .ok ++ pulseEvents p ++ okEvents (configWork p) ++ [.delay p.tSlpout]) :=
  ((framed_pulsed p m).append (framed_okEvents (transfersOk_config p hm))).append
    (framed_quiet (by simp [Event.isXfer]) m)

theorem framed_initEvents (p : Params) {m : Nat} (hm : 1 ≤ m) : Framed m (initEvents p) := by
  rw [initEvents_eq]
  exact ((framed_configSent p hm).append (framed_okEvents (transfersOk_cmd hm .dispon))).append
    (framed_quiet (by simp [Event.isXfer]) m)

theorem framed_initFailEvents (p : Params) {m : Nat} (hm : 1 ≤ m) (k : Nat) : Framed m (initFailEvents p k) := by
  rw [initFailEvents]
  split
  next hk => exact (framed_pulsed p m).append (framed_failEvents hk (transfersOk_config p hm))
  next =>
    have hlast : Framed m (ftEvents (false, [0x29]) .fail) :=
      framed_ftEvents (transfersOk_byte hm false 0x29 _ (List.mem_singleton_self _)) .fail
    simpa only [List.append_assoc] using (framed_configSent p hm).append hlast

/-- Every step frames its transfers. -/
theorem StepEvents.framed {s : State} {evs : List Event} (h : StepEvents s evs) (hs : s.WorkOk) (hm : 1 ≤ s.par.chunkMax) :
    Framed s.par.chunkMax evs := by
  cases h with
  | none => exact framed_quiet (by simp) _
  | ok fts h => exact framed_okEvents (h.transfersOk hs hm)
  | fail fts k hk h => exact framed_failEvents hk (h.transfersOk hs hm)
  | pin l v _ => exact framed_quiet (by simp [Event.isXfer]) _
  | delay ms _ => exact framed_quiet (by simp [Event.isXfer]) _
  | init _ => exact framed_initEvents s.par hm
  | initRefused _ k _ => exact framed_quiet (acquireRefused_quiet s.par k) _
  | initBroke _ k _ => exact framed_initFailEvents s.par hm k
  | release => exact framed_quiet (releaseEvents_quiet _ _) _

/-- A wire instruction leaves the work list as it was, whether or not it ends the operation. -/
theorem State.wired_work (s : State) (fts : List FT) (ck : ChunkRegs) : (s.wired fts ck).work = s.work := by
  unfold State.wired
  split
  next hb => exact hb.1.symm
  next => rfl

/-- Only an operation in progress leaves work: a whole host operation and a placed wire item add none (R12, log 1). -/
theorem step_work_nil {s t : State} (hw : s.work = []) (h : step s = .next t) : t.work = [] := by
  rcases step_cases h with ⟨-, -, rfl⟩ | ⟨-, -, -, op, rfl⟩ | ⟨-, -, i, hi, he⟩ | ⟨i, rest, -, -, hi, he⟩ |
    ⟨it, rest, -, -, he⟩ | ⟨w, rest, hcons, -⟩
  · exact hw
  · rfl
  · exact (exec_host_pc hi he).2.1
  · obtain ⟨-, ⟨-, ck, rfl⟩ | ⟨k, hk, -, ck, rfl⟩⟩ := exec_wire_cases hi he
    · exact (State.wired_work _ _ _).trans hw
    · rfl
  · obtain ⟨-, ⟨-, ck, rfl⟩ | ⟨-, ck, rfl⟩⟩ := execRaw_cases he
    · exact (State.wired_work _ _ _).trans hw
    · rfl
  · exact absurd (hw.symm.trans hcons) (List.cons_ne_nil w rest).symm

/-- What a step leaves of a work list the engine can have is one again (R111). -/
theorem State.WorkOk.step {s t : State} (hs : s.WorkOk) (h : step s = .next t) : t.WorkOk := by
  obtain ⟨hpar, -, -, -, -⟩ := inputsNeverChange s t h
  unfold State.WorkOk
  rw [hpar]
  cases hw : s.work with
  | nil =>
    rw [step_work_nil hw h]
    exact List.forall_mem_nil _
  | cons w rest =>
    rcases step_work_rest hw h with hnil | ⟨ws, happ, hws⟩
    · rw [hnil]
      exact List.forall_mem_nil _
    · rw [happ]
      refine List.forall_mem_append.mpr ⟨hws (Params.one_le_chunkMax (step_ok h)), fun u hu => hs u ?_⟩
      rw [hw]
      exact List.mem_cons_of_mem w hu

theorem Params.chunkMax_le_xferMax {p : Params} (h : p.ok = true) : p.chunkMax ≤ p.xferMax := by
  simp only [Params.ok, Bool.and_eq_true, decide_eq_true_eq] at h
  obtain ⟨⟨⟨⟨⟨⟨⟨⟨-, hx⟩, -⟩, -⟩, -⟩, -⟩, -⟩, -⟩, -⟩ := h
  exact hx

/-- Settles O57, by what a step adds to the trace and what it leaves of the work list. -/
theorem everyTransferIsFramed : Obligations.EveryTransferIsFramed := by
  intro s t hs h
  have hok := step_ok h
  obtain ⟨evs, hevs, htr, -, -⟩ := step_grows h
  refine ⟨hs.step h, evs, htr, fun pre bytes r post hsplit => ?_⟩
  obtain ⟨pre', v, hpre, hpos, hle, hcmd⟩ := hevs.framed hs (Params.one_le_chunkMax hok) pre bytes r post hsplit
  exact ⟨pre', v, hpre, hpos, hle, Params.chunkMax_le_xferMax hok, hcmd⟩

end Sys2Proof.Machine
end

/-! ## The frame of the wire instructions -/

section
namespace Sys2Proof.Machine

/-- The levels of the reset line and the backlight line and the quiet time are the same. -/
def Receiver.SameLines (r q : Receiver) : Prop := q.rstn = r.rstn ∧ q.bl = r.bl ∧ q.quiet = r.quiet

theorem Receiver.SameLines.trans {r q p : Receiver} (h : r.SameLines q) (g : q.SameLines p) : r.SameLines p := by
  obtain ⟨hrst, hbl, hquiet⟩ := h
  obtain ⟨grst, gbl, gquiet⟩ := g
  exact ⟨grst.trans hrst, gbl.trans hbl, gquiet.trans hquiet⟩

/-- A framed transfer moves no line but DC, and takes no time (R111, R148). -/
theorem Receiver.sameLines_ftEvents (r : Receiver) (f : FT) (a : Response) :
    r.SameLines ((ftEvents f a).foldl Receiver.observe r) := by
  cases a with
  | fail => exact ⟨rfl, rfl, rfl⟩
  | ok =>
    obtain ⟨-, hrst, hbl, hquiet⟩ := Receiver.items_lines { r with dc := some f.1 } f.1 f.2
    exact ⟨hrst, hbl, hquiet⟩

theorem Receiver.sameLines_okEvents (r : Receiver) (fts : List FT) :
    r.SameLines ((okEvents fts).foldl Receiver.observe r) := by
  induction fts generalizing r with
  | nil => exact ⟨rfl, rfl, rfl⟩
  | cons f fts ih => exact (r.sameLines_ftEvents f .ok).trans (ih _)

theorem Receiver.sameLines_failEvents (r : Receiver) {fts : List FT} {k : Nat} (hk : k < fts.length) :
    r.SameLines ((failEvents fts k).foldl Receiver.observe r) := by
  rw [failEvents_eq hk, List.foldl_append]
  exact (r.sameLines_okEvents _).trans (Receiver.sameLines_ftEvents _ _ .fail)

/-- What a wire instruction makes of the engine: it is a list of transfers, all accepted or broken off. -/
structure WireFrame (s t : State) : Prop where
  inputs : SameInputs s t
  claimed : t.claimed = s.claimed
  rst : t.pins.rst = s.pins.rst
  bl : t.pins.bl = s.pins.bl
  dp : t.dp = s.dp
  gx : t.gx = s.gx
  lc : t.lc = s.lc ∨ t.lc = .failed
  lines : s.rx.SameLines t.rx

theorem wireFrame_wired (s : State) (fts : List FT) (ck : ChunkRegs) : WireFrame s (s.wired fts ck) := by
  obtain ⟨-, hrx, hin⟩ := grows_wired s fts ck
  have hlines := hrx ▸ s.rx.sameLines_okEvents fts
  by_cases hb : s.Between
  · rw [State.wired_between hb] at hin hlines ⊢
    exact ⟨hin, rfl, pinsAfter_rst _ _, pinsAfter_bl _ _, rfl, rfl, .inl rfl, hlines⟩
  · rw [State.wired_inProgress hb] at hin hlines ⊢
    exact ⟨hin, rfl, pinsAfter_rst _ _, pinsAfter_bl _ _, rfl, rfl, .inl rfl, hlines⟩

theorem wireFrame_broke (s : State) {fts : List FT} {k : Nat} (hk : k < fts.length) (ck : ChunkRegs) :
    WireFrame s ((s.broke (fts.take k) fts[k]).withRegs s.dp s.gx ck) := by
  obtain ⟨-, hrx, hin⟩ := grows_broke s hk s.dp s.gx ck
  exact ⟨hin, rfl, pinsAfter_rst _ _, pinsAfter_bl _ _, rfl, rfl, .inr rfl, hrx ▸ s.rx.sameLines_failEvents hk⟩

/-- What a wire instruction makes of the frame memory `fb`, the receiver having been `r`: nothing, but for W_MEMWR inside the
window (R161). -/
def WireInstrKeepsPixels (i : Instr) (r : Receiver) (fb : FrameMem) : Prop :=
  ((∀ cs, i ≠ .wMemwr cs) → fb = r.fb) ∧
  ∀ cs, i = .wMemwr cs → ∃ x0 x1 y0 y1, r.xs = some x0 ∧ r.xe = some x1 ∧ r.ys = some y0 ∧ r.ye = some y1 ∧
    ∀ x y, ¬(x0.toNat ≤ x ∧ x ≤ x1.toNat ∧ y0.toNat ≤ y ∧ y ≤ y1.toNat) → FrameMem.read fb x y = FrameMem.read r.fb x y

/-- An instruction that keeps every pixel where its command is listened to; at any other receiver that command is Desync (R149,
R164, R166). -/
theorem rxAfter_fb_or_desync (r : Receiver) (c : WireCmd) (rest : List FT)
    (h : r.Listening → r.AtRest → ∃ q, rxAfter r (cmdWork c ++ rest) = q ∧ q.fb = r.fb) :
    (rxAfter r (cmdWork c ++ rest)).desync = true ∨ (rxAfter r (cmdWork c ++ rest)).fb = r.fb := by
  rcases rxAfter_cmd_cases r c with hd | ⟨hl, ha⟩
  · rw [rxAfter_append]
    exact .inl (rxAfter_desync rest hd)
  · obtain ⟨q, rfl, hq⟩ := h hl ha
    exact .inr hq

/-- The pixels of a window, row by row, are inside it (R65, R162). -/
theorem rowMajor_inWindow {x0 x1 y0 y1 k : Nat} (hx : x0 ≤ x1) (hy : y0 ≤ y1) (hk : k < (x1 - x0 + 1) * (y1 - y0 + 1)) :
    x0 + k % (x1 - x0 + 1) ≤ x1 ∧ y0 + k / (x1 - x0 + 1) ≤ y1 := by
  have hcol : k % (x1 - x0 + 1) < x1 - x0 + 1 := Nat.mod_lt k (Nat.succ_pos _)
  have hrow : k / (x1 - x0 + 1) < y1 - y0 + 1 := Nat.div_lt_of_lt_mul hk
  omega

/-- W_MEMWR: Desync, or no pixel outside the receiver's window changes (R158 to R163). -/
theorem rxAfter_memwr_pixelsKept (r : Receiver) {m : Nat} (hm : 1 ≤ m) (cs : List Half) :
    (rxAfter r (wireWork m (.wMemwr cs))).desync = true ∨
      WireInstrKeepsPixels (.wMemwr cs) r (rxAfter r (wireWork m (.wMemwr cs))).fb := by
  rcases rxAfter_memwr_cases r with hd | ⟨x0, x1, y0, y1, hw⟩
  · rw [wireWork, rxAfter_append]
    exact .inl (rxAfter_desync _ hd)
  by_cases hc : cs.length ≤ (x1.toNat - x0.toNat + 1) * (y1.toNat - y0.toNat + 1)
  · have hfill : rxAfter r (wireWork m (.wMemwr cs)) = r.filled x0 x1 y0 y1 cs := rxAfter_memwr_pixels hm hw cs hc
    obtain ⟨hx, -, hy, -⟩ := hw.panel
    refine .inr ⟨fun hne => absurd rfl (hne cs), fun _ _ => ⟨x0, x1, y0, y1, hw.xs, hw.xe, hw.ys, hw.ye, ?_⟩⟩
    intro x y hout
    rw [hfill]
    refine r.filled_read_other x0 x1 y0 y1 cs fun k hk hxy => hout ?_
    obtain ⟨rfl, rfl⟩ := hxy
    obtain ⟨hx1, hy1⟩ := rowMajor_inWindow hx hy (hk.trans_le hc)
    exact ⟨Nat.le_add_right _ _, hx1, Nat.le_add_right _ _, hy1⟩
  · exact .inl (rxAfter_memwr_excess hm hw cs (Nat.lt_of_not_le hc))

/-- A wire instruction other than W_MEMWR: Desync, or no pixel changes (R152 to R157). -/
theorem rxAfter_wireWork_fb (r : Receiver) {m : Nat} (hm : 1 ≤ m) {i : Instr} (hi : i.isWire = true)
    (hne : ∀ cs, i ≠ .wMemwr cs) : (rxAfter r (wireWork m i)).desync = true ∨ (rxAfter r (wireWork m i)).fb = r.fb := by
  cases i <;> simp only [Instr.isWire, Bool.false_eq_true] at hi
  case wPixfmt p => exact rxAfter_fb_or_desync r .pixfmt _ fun hl ha => ⟨_, rxAfter_pixfmt hm hl ha p, rfl⟩
  case wMemctl p => exact rxAfter_fb_or_desync r .memctl _ fun hl ha => ⟨_, rxAfter_memctl hm hl ha p, rfl⟩
  case wSlpout => exact rxAfter_fb_or_desync r .slpout [] fun hl ha => ⟨_, rxAfter_slpout hl ha, rfl⟩
  case wDispon => exact rxAfter_fb_or_desync r .dispon [] fun hl ha => ⟨_, rxAfter_dispon hl ha, rfl⟩
  case wColset a b => exact rxAfter_fb_or_desync r .colset _ fun hl ha => ⟨_, rxAfter_colset hm hl ha a b, rfl⟩
  case wRowset a b => exact rxAfter_fb_or_desync r .rowset _ fun hl ha => ⟨_, rxAfter_rowset hm hl ha a b, rfl⟩
  case wMemwr cs => exact absurd rfl (hne cs)

/-- A wire instruction at any receiver: Desync, or the pixels it may not write are kept. -/
theorem rxAfter_wireWork_pixelsKept (r : Receiver) {m : Nat} (hm : 1 ≤ m) {i : Instr} (hi : i.isWire = true) :
    (rxAfter r (wireWork m i)).desync = true ∨ WireInstrKeepsPixels i r (rxAfter r (wireWork m i)).fb := by
  by_cases hmem : ∃ cs, i = .wMemwr cs
  · obtain ⟨cs, rfl⟩ := hmem
    exact rxAfter_memwr_pixelsKept r hm cs
  · have hne : ∀ cs, i ≠ .wMemwr cs := not_exists.mp hmem
    exact (rxAfter_wireWork_fb r hm hi hne).imp_right fun h => ⟨fun _ => h, fun cs hc => absurd hc (hne cs)⟩

/-- Settles O58, by the two ways a wire instruction can end and by what the receiver makes of its work list. -/
theorem frameOfWireInstructions : Obligations.FrameOfWireInstructions := by
  intro s t i hi h
  obtain ⟨hframe, hpixels⟩ : WireFrame s t ∧ (t.rx.desync = true ∨ WireInstrKeepsPixels i s.rx t.rx.fb) := by
    obtain ⟨hok, ⟨-, ck, rfl⟩ | ⟨k, hk, -, ck, rfl⟩⟩ := exec_wire_cases hi h
    · refine ⟨wireFrame_wired s _ ck, ?_⟩
      rw [State.wired_rx]
      exact rxAfter_wireWork_pixelsKept s.rx (Params.one_le_chunkMax hok) hi
    · obtain ⟨-, hrx, -⟩ := grows_broke s hk s.dp s.gx ck
      exact ⟨wireFrame_broke s hk ck, .inl (hrx ▸ desync_failEvents s.rx hk)⟩
  obtain ⟨hin, hclaimed, hrst, hbl, hdp, hgx, hlc, hrstn, hrxbl, hquiet⟩ := hframe
  exact ⟨hin, hclaimed, hrst, hbl, hdp, hgx, hlc, hrstn, hrxbl, hquiet,
    fun hne => hpixels.imp_right fun hk => hk.1 hne, fun cs hc => hpixels.imp_right fun hk => hk.2 cs hc⟩

end Sys2Proof.Machine
end

/-! ## Drawing at a receiver in step (R113 to R119, R158 to R164, R172) -/

section
namespace Sys2Proof.Machine

/-- A drawing operation whose every transfer is accepted ends OK, and the receiver has its whole work list. -/
theorem exec_drawing_sent {s : State} {i : Instr} (hi : i.isDrawing = true) (hok : s.par.ok = true) (hl : s.lc = .ready)
    (ha : AnswersOk s (drawWork s i).length) :
    ∃ t, exec i s = .next t ∧ t.status = ⟨.ok, 0⟩ ∧ t.lc = .ready ∧ t.rx = rxAfter s.rx (drawWork s i) := by
  obtain ⟨hsent, -⟩ := exec_drawing hi hok hl
  obtain ⟨dp, gx, ck, he, -⟩ := hsent ha
  exact ⟨_, he, rfl, hl, rfl⟩

/-- Settles O22: the receiver takes the window program and opens the window. -/
theorem setwinOpensItsWindow : Obligations.SetwinOpensItsWindow := by
  intro s x0 x1 y0 y1 hok hl hs hw ha
  obtain ⟨t, he, -, -, hrx⟩ := exec_drawing_sent (i := .setwin x0 x1 y0 y1) rfl hok hl ha
  replace hrx := hrx.trans (rxAfter_window (Params.one_le_chunkMax hok) hs hw)
  obtain ⟨⟨hdesync, -, -⟩, -, -, -⟩ := hs
  refine ⟨t, he, ?_⟩
  rw [hrx]
  exact ⟨hdesync, rfl, rfl, rfl, rfl, rfl, rfl, rfl, rfl, rfl, rfl⟩

/-- Settles O23: the engine does not check the window, the receiver does, at its memory write. -/
theorem setwinOutsideThePanelLosesTheReceiver : Obligations.SetwinOutsideThePanelLosesTheReceiver := by
  intro s x0 x1 y0 y1 hok hl hs hw ha
  obtain ⟨t, he, hstatus, hlc, hrx⟩ := exec_drawing_sent (i := .setwin x0 x1 y0 y1) rfl hok hl ha
  obtain ⟨hlisten, hrest, -, -⟩ := hs
  obtain ⟨hdesync, -⟩ := rxAfter_window_bad (Params.one_le_chunkMax hok) hlisten hrest hw
  exact ⟨t, he, hstatus, hlc, hrx ▸ hdesync⟩

/-- After a window program inside the panel pixels are awaited: a window holds at least one (R115, R158). -/
theorem rxAfter_window_open {r : Receiver} {m : Nat} (hm : 1 ≤ m) (hs : r.Synced) {x0 x1 y0 y1 : Half}
    (hw : WindowInPanel x0 x1 y0 y1) :
    (rxAfter r (windowWork m x0 x1 y0 y1)).Listening ∧ (rxAfter r (windowWork m x0 x1 y0 y1)).payloadOpen = true := by
  rw [rxAfter_window hm hs hw]
  obtain ⟨hl, -, -, -⟩ := hs
  refine ⟨hl, ?_⟩
  have hpos : (x1.toNat - x0.toNat + 1) * (y1.toNat - y0.toNat + 1) ≠ 0 :=
    Nat.mul_ne_zero (Nat.succ_ne_zero _) (Nat.succ_ne_zero _)
  simp only [Receiver.payloadOpen, Bool.true_and, bne_iff_ne.mpr hpos, Bool.true_or]

/-- The first transfer of a list of window programs and pixels is a command (R113). -/
theorem DrawList.eq_cmdWork_append {fts : List FT} (h : DrawList fts) (hn : fts ≠ []) :
    ∃ c rest, fts = cmdWork c ++ rest := by
  obtain ⟨hall, hhead⟩ := h
  obtain ⟨f, rest, rfl⟩ := List.exists_cons_of_ne_nil hn
  rcases hall f (List.mem_cons_self ..) with hdata | ⟨c, -, rfl⟩
  · exact absurd (hdata.symm.trans (hhead f rfl)) Bool.noConfusion
  · exact ⟨c, rest, rfl⟩

/-- Whatever is drawn next while pixels are awaited, its first command is Desync (R116, R164). -/
theorem rxAfter_drawList_open {r : Receiver} (hl : r.Listening) (ho : r.payloadOpen = true) {fts : List FT}
    (h : DrawList fts) (hn : fts ≠ []) : (rxAfter r fts).desync = true := by
  obtain ⟨c, rest, rfl⟩ := h.eq_cmdWork_append hn
  rw [rxAfter_append]
  exact rxAfter_desync rest (rxAfter_cmd_open hl ho c)

/-- The work list of a drawing operation comes from the parameters, TEXT and GLYPH alone (R111). -/
theorem drawWork_congr {s t : State} (h : SameInputs s t) (i : Instr) : drawWork t i = drawWork s i := by
  obtain ⟨hpar, -, -, htext, hglyph⟩ := h
  cases i with
  | drawtext x y c addr len => exact textWork_congr hpar htext hglyph x y c addr len
  | setwin | drawpixel | fillscreen => simp only [drawWork, hpar]
  | _ => rfl

/-- Settles O24: SETWIN leaves its window open, and the next operation begins with a command. -/
theorem drawingAfterSetwinLosesTheReceiver : Obligations.DrawingAfterSetwinLosesTheReceiver := by
  intro s x0 x1 y0 y1 i hok hl hs hw hi hne ha
  obtain ⟨hsent, -⟩ := exec_drawing (i := .setwin x0 x1 y0 y1) rfl hok hl
  obtain ⟨dp, gx, ck, he, -⟩ := hsent (ha.mono (Nat.le_add_right _ _))
  obtain ⟨-, hrx, hin⟩ := grows_finished s (drawWork s (.setwin x0 x1 y0 y1)) dp gx ck
  generalize ht : s.finished (drawWork s (.setwin x0 x1 y0 y1)) dp gx ck = t at he hrx hin
  have hwork : drawWork t i = drawWork s i := drawWork_congr hin i
  have hanswers : AnswersOk t (drawWork t i).length := fun j hj => by
    rw [← ht, State.finished_responseAt]
    exact ha _ (Nat.add_lt_add_left (hwork ▸ hj) _)
  obtain ⟨u, hu, hstatus, -, hurx⟩ := exec_drawing_sent hi (hin.1 ▸ hok) (ht ▸ hl) hanswers
  obtain ⟨hlisten, hopen⟩ := rxAfter_window_open (Params.one_le_chunkMax hok) hs hw
  refine ⟨t, u, he, hu, hstatus, ?_⟩
  rw [hurx, hrx]
  exact rxAfter_drawList_open hlisten hopen (drawList_drawWork t i) (hwork ▸ hne)

/-- Settles O26: the receiver draws the one pixel of its window. -/
theorem drawpixelWritesExactlyOnePixel : Obligations.DrawpixelWritesExactlyOnePixel := by
  intro s x y c hok hl hs hp ha
  obtain ⟨t, he, -, -, hrx⟩ := exec_drawing_sent (i := .drawpixel x y c) rfl hok hl ha
  replace hrx := hrx.trans (rxAfter_pixelWork (Params.one_le_chunkMax hok) hs hp c)
  refine ⟨t, he, ?_⟩
  rw [hrx]
  refine ⟨Receiver.drawn_synced hs x x y y [c], rfl, fun x' y' => ?_⟩
  rw [Receiver.drawn_pixel_fb]
  split
  case isTrue hxy =>
    obtain ⟨rfl, rfl⟩ := hxy
    exact FrameMem.read_write_same _ _ _ _
  case isFalse hxy => exact FrameMem.read_write_other _ _ fun h => hxy ⟨h.1.symm, h.2.symm⟩

/-- Pixel `x` of row `y` of a panel drawn whole is pixel `x + 320 * y` of the stream (R65). -/
theorem Receiver.drawn_panel_read (r : Receiver) {cs : List Half} (hc : cs.length = 76800) {c : Half}
    (h : ∀ (j : Nat) (hj : j < cs.length), cs[j] = c) {x y : Nat} (hx : x < 320) (hy : y < 240) :
    FrameMem.read (r.drawn 0 319 0 239 cs).fb x y = some c := by
  have hk : x + 320 * y < cs.length := by omega
  have hread : FrameMem.read (r.drawn 0 319 0 239 cs).fb (0 + (0 + (x + 320 * y)) % 320) (0 + (0 + (x + 320 * y)) / 320) =
      some cs[x + 320 * y] := paint_read 0 0 320 r.fb 0 cs (x + 320 * y) hk
  have hcol : (x + 320 * y) % 320 = x := by omega
  have hrow : (x + 320 * y) / 320 = y := by omega
  rwa [Nat.zero_add, Nat.zero_add, Nat.zero_add, hcol, hrow, h] at hread

/-- Settles O29: the receiver draws the whole panel, every pixel of the stream being the colour. -/
theorem fillscreenFillsThePanel : Obligations.FillscreenFillsThePanel := by
  intro s c hok hl hs ha
  obtain ⟨t, he, -, -, hrx⟩ := exec_drawing_sent (i := .fillscreen c) rfl hok hl ha
  obtain ⟨cs, hlen, hcs, hfill⟩ := rxAfter_fill (Params.one_le_chunkMax hok) hs c
  replace hrx := hrx.trans hfill
  refine ⟨t, he, ?_⟩
  rw [hrx]
  exact ⟨Receiver.drawn_synced hs 0 319 0 239 cs, rfl, fun x y => Receiver.drawn_panel_read s.rx hlen hcs⟩

end Sys2Proof.Machine
end

/-! ## The frame of the drawing operations -/

section
namespace Sys2Proof.Machine

/-- The registers a drawing operation other than DRAWTEXT keeps (R113 to R119), and COLOR, which SETWIN keeps. -/
def DrawingKeepsRegs (s : State) (i : Instr) (t : State) : Prop :=
  ((∀ x y c addr len, i ≠ .drawtext x y c addr len) →
    t.dp.cx = s.dp.cx ∧ t.dp.cy = s.dp.cy ∧ t.dp.lsx = s.dp.lsx ∧ t.gx = s.gx) ∧
  ∀ x0 x1 y0 y1, i = .setwin x0 x1 y0 y1 → t.dp.color = s.dp.color

theorem StopRegs.keepsRegs {s t : State} {i : Instr} (hi : i.isDrawing = true) (h : StopRegs s i t) :
    DrawingKeepsRegs s i t := by
  cases i <;> simp only [Instr.isDrawing, Bool.false_eq_true] at hi
  case setwin | drawpixel | fillscreen =>
    obtain ⟨hdp, hgx⟩ := h fun _ _ _ _ _ => Instr.noConfusion
    refine ⟨fun _ => ⟨hdp ▸ rfl, hdp ▸ rfl, hdp ▸ rfl, hgx⟩, fun _ _ _ _ he => ?_⟩
    cases he <;> exact hdp ▸ rfl
  case drawtext x y c addr len =>
    exact ⟨fun hne => absurd rfl (hne x y c addr len), fun _ _ _ _ => Instr.noConfusion⟩

/-- What a drawing operation makes of the engine, pixels apart: it is a list of transfers, all accepted or broken off. -/
structure DrawingFrame (s : State) (i : Instr) (t : State) : Prop where
  inputs : SameInputs s t
  claimed : t.claimed = s.claimed
  rst : t.pins.rst = s.pins.rst
  bl : t.pins.bl = s.pins.bl
  lc : t.lc = s.lc ∨ t.lc = .failed
  regs : DrawingKeepsRegs s i t
  rx : s.rx.Keeps t.rx

theorem drawingFrame_refusedWith (s : State) (i : Instr) (r : Report) : DrawingFrame s i (RefusedWith s r) := by
  obtain ⟨-, -, hin⟩ := grows_refusedWith s r
  exact ⟨hin, rfl, rfl, rfl, .inl rfl, ⟨fun _ => ⟨rfl, rfl, rfl, rfl⟩, fun _ _ _ _ _ => rfl⟩, .refl s.rx⟩

theorem drawingFrame_finished {s : State} {i : Instr} {dp : Datapath} {gx : GlyphRegs} {ck : ChunkRegs}
    (h : DrawingKeepsRegs s i (s.finished (drawWork s i) dp gx ck)) :
    DrawingFrame s i (s.finished (drawWork s i) dp gx ck) := by
  obtain ⟨-, -, hin⟩ := grows_finished s (drawWork s i) dp gx ck
  exact ⟨hin, rfl, pinsAfter_rst _ _, pinsAfter_bl _ _, .inl rfl, h, rxAfter_keeps s.rx (drawList_drawWork s i)⟩

theorem drawingFrame_stopped {s : State} {i : Instr} {k : Nat} (hk : k < (drawWork s i).length) {dp : Datapath}
    {gx : GlyphRegs} {ck : ChunkRegs} (h : DrawingKeepsRegs s i (s.stopped ((drawWork s i).take k) (drawWork s i)[k] dp gx ck)) :
    DrawingFrame s i (s.stopped ((drawWork s i).take k) (drawWork s i)[k] dp gx ck) := by
  obtain ⟨-, hrx, hin⟩ := grows_stopped s hk dp gx ck
  exact ⟨hin, rfl, pinsAfter_rst _ _, pinsAfter_bl _ _, .inr rfl, h,
    hrx ▸ observes_failEvents_keeps s.rx hk (drawList_drawWork s i)⟩

/-- What a drawing operation makes of the frame memory `fb`: no pixel changes but those it writes (R172). -/
def DrawingKeepsPixels (s : State) (i : Instr) (fb : FrameMem) : Prop :=
  match i with
  | .setwin _ _ _ _ => fb = s.rx.fb
  | .drawpixel x y _ => ∀ x' y', ¬(x' = x.toNat ∧ y' = y.toNat) → FrameMem.read fb x' y' = FrameMem.read s.rx.fb x' y'
  | .fillscreen _ => ∀ x' y', ¬(x' < 320 ∧ y' < 240) → FrameMem.read fb x' y' = FrameMem.read s.rx.fb x' y'
  | .drawtext x y _ addr len => ∀ x' y', (∀ p ∈ textPixels s x y addr len, ¬(x' = p.1.toNat ∧ y' = p.2.toNat)) →
      FrameMem.read fb x' y' = FrameMem.read s.rx.fb x' y'
  | _ => fb = s.rx.fb

theorem drawingKeepsPixels_self (s : State) (i : Instr) : DrawingKeepsPixels s i s.rx.fb := by
  cases i with
  | drawpixel | fillscreen | drawtext => exact fun _ _ _ => rfl
  | _ => rfl

/-- A window program and its pixels: Desync, or the receiver was in step and the window is in the panel (R158, R160). -/
theorem rxAfter_stream_cases (r : Receiver) {m : Nat} (hm : 1 ≤ m) (x0 x1 y0 y1 : Half) (fts : List FT) :
    (rxAfter r (windowWork m x0 x1 y0 y1 ++ fts)).desync = true ∨ (r.Synced ∧ WindowInPanel x0 x1 y0 y1) := by
  rw [rxAfter_append]
  exact (rxAfter_window_cases r hm x0 x1 y0 y1).imp_left (rxAfter_desync fts)

/-- A pixel write at any receiver: Desync, or its frame memory has the pixel written. -/
theorem rxAfter_pixelWork_cases (r : Receiver) {m : Nat} (hm : 1 ≤ m) (x y c : Half) :
    (rxAfter r (pixelWork m x y c)).desync = true ∨
      (rxAfter r (pixelWork m x y c)).fb = FrameMem.write r.fb x.toNat y.toNat c := by
  rcases rxAfter_stream_cases r hm x x y y (dataWork m (bytes16 c)) with hd | ⟨hs, -, hx, -, hy⟩
  · exact .inl hd
  · rw [rxAfter_pixelWork hm hs ⟨hx, hy⟩]
    exact .inr (r.drawn_pixel_fb x y c)

/-- Several pixel writes at any receiver: Desync, or its frame memory is written in order. -/
theorem rxAfter_pixels_cases (r : Receiver) {m : Nat} (hm : 1 ≤ m) (ps : List (Half × Half)) (c : Half) :
    (rxAfter r (ps.flatMap fun p => pixelWork m p.1 p.2 c)).desync = true ∨
      (rxAfter r (ps.flatMap fun p => pixelWork m p.1 p.2 c)).fb =
        ps.foldl (fun fb p => FrameMem.write fb p.1.toNat p.2.toNat c) r.fb := by
  induction ps generalizing r with
  | nil => exact .inr rfl
  | cons p ps ih =>
    rw [List.flatMap_cons, rxAfter_append, List.foldl_cons]
    rcases rxAfter_pixelWork_cases r hm p.1 p.2 c with hd | hfb
    · exact .inl (rxAfter_desync _ hd)
    · rw [← hfb]
      exact ih _

/-- A pixel outside the window keeps its value (R161, R162). -/
theorem Receiver.drawn_read_outside (r : Receiver) {x0 x1 y0 y1 : Half} (hx : x0.toNat ≤ x1.toNat) (hy : y0.toNat ≤ y1.toNat)
    {cs : List Half} (hc : cs.length ≤ (x1.toNat - x0.toNat + 1) * (y1.toNat - y0.toNat + 1)) {x y : Nat}
    (h : ¬(x0.toNat ≤ x ∧ x ≤ x1.toNat ∧ y0.toNat ≤ y ∧ y ≤ y1.toNat)) :
    FrameMem.read (r.drawn x0 x1 y0 y1 cs).fb x y = FrameMem.read r.fb x y := by
  refine paint_read_other _ _ _ r.fb 0 cs fun k _ hk hxy => h ?_
  obtain ⟨rfl, rfl⟩ := hxy
  obtain ⟨hx1, hy1⟩ := rowMajor_inWindow hx hy (show k < _ by omega)
  exact ⟨Nat.le_add_right _ _, hx1, Nat.le_add_right _ _, hy1⟩

/-- The work list of a drawing operation at any receiver: Desync, or only the pixels it writes change. -/
theorem rxAfter_drawWork_pixelsKept {s : State} (hm : 1 ≤ s.par.chunkMax) {i : Instr} (hi : i.isDrawing = true) :
    (rxAfter s.rx (drawWork s i)).desync = true ∨ DrawingKeepsPixels s i (rxAfter s.rx (drawWork s i)).fb := by
  cases i <;> simp only [Instr.isDrawing, Bool.false_eq_true] at hi
  case setwin x0 x1 y0 y1 =>
    refine (rxAfter_window_cases s.rx hm x0 x1 y0 y1).imp_right fun ⟨hs, hw⟩ => ?_
    rw [drawWork, rxAfter_window hm hs hw]
    rfl
  case drawpixel x y c =>
    refine (rxAfter_pixelWork_cases s.rx hm x y c).imp_right fun hfb x' y' hxy => ?_
    rw [drawWork, hfb]
    exact FrameMem.read_write_other _ _ fun h => hxy ⟨h.1.symm, h.2.symm⟩
  case fillscreen c =>
    refine (rxAfter_stream_cases s.rx hm 0 319 0 239 _).imp_right fun ⟨hs, hx, _, hy, _⟩ x' y' hxy => ?_
    obtain ⟨cs, hlen, -, hfill⟩ := rxAfter_fill hm hs c
    rw [drawWork, hfill]
    refine s.rx.drawn_read_outside hx hy (Nat.le_of_eq hlen) fun ⟨_, hx', _, hy'⟩ => hxy ?_
    exact ⟨Nat.lt_succ_of_le hx', Nat.lt_succ_of_le hy'⟩
  case drawtext x y c addr len =>
    refine (rxAfter_pixels_cases s.rx hm (textPixels s x y addr len) c).imp_right fun hfb x' y' hxy => ?_
    rw [drawWork, textWork, hfb, read_writes, if_neg]
    exact fun ⟨p, hp, h⟩ => hxy p hp h

/-- Settles O59, by the three ways a drawing operation can end and by what the receiver makes of its work list. -/
theorem frameOfDrawing : Obligations.FrameOfDrawing := by
  intro s t i hi h
  obtain ⟨hframe, hpixels⟩ : DrawingFrame s i t ∧ (t.rx.desync = true ∨ DrawingKeepsPixels s i t.rx.fb) := by
    obtain ⟨hok, ⟨-, rfl⟩ | ⟨-, -, dp, gx, ck, rfl, hregs⟩ | ⟨-, k, hk, -, dp, gx, ck, rfl, hregs⟩⟩ := exec_drawing_cases hi h
    · exact ⟨drawingFrame_refusedWith s i _, .inr (drawingKeepsPixels_self s i)⟩
    · exact ⟨drawingFrame_finished (StopRegs.keepsRegs hi fun _ => hregs),
        rxAfter_drawWork_pixelsKept (Params.one_le_chunkMax hok) hi⟩
    · obtain ⟨-, hrx, -⟩ := grows_stopped s hk dp gx ck
      exact ⟨drawingFrame_stopped hk (hregs.keepsRegs hi), .inl (hrx ▸ desync_failEvents s.rx hk)⟩
  obtain ⟨hin, hclaimed, hrst, hbl, hlc, ⟨hregs, hcolor⟩, hrx⟩ := hframe
  refine ⟨hin, hclaimed, hrst, hbl, hlc, hregs, hrx.rstn, hrx.bl, hrx.quiet, hrx.sinceSlpout, hrx.pixfmt, hrx.madctl,
    hrx.sleepOut, hrx.displayOn, hrx.visualUndefined, hpixels.imp_right fun hkept => ⟨?_, ?_, ?_, ?_⟩⟩
  · rintro x0 x1 y0 y1 rfl
    exact ⟨hcolor x0 x1 y0 y1 rfl, hkept⟩
  · rintro x y c rfl
    exact hkept
  · rintro c rfl
    exact hkept
  · rintro x y c addr len rfl
    exact hkept

end Sys2Proof.Machine
end

/-! ## The receiver's sticky flags (R125, R155, R169) -/

section
namespace Sys2Proof.Machine

/-- Desync and visual_undefined, where set, stay set. -/
def Receiver.FlagsStay (r q : Receiver) : Prop :=
  (r.desync = true → q.desync = true) ∧ (r.visualUndefined = true → q.visualUndefined = true)

theorem Receiver.items_visualUndefined {r : Receiver} (h : r.visualUndefined = true) (v : Level) (bytes : List Byte) :
    (r.items v bytes).visualUndefined = true := by
  induction bytes generalizing r with
  | nil => exact h
  | cons b bs ih => exact ih (r.item_visualUndefined v b h)

/-- No transfer clears a flag (R155, R169). -/
theorem Receiver.flagsStay_feed (r : Receiver) (bytes : List Byte) : r.FlagsStay (r.feed bytes) := by
  unfold Receiver.feed
  split
  · exact ⟨fun _ => rfl, id⟩
  · refine ⟨fun h => ?_, fun h => Receiver.items_visualUndefined h _ bytes⟩
    exact (congrArg Receiver.desync (Receiver.items_desync h _ bytes)).trans h

/-- A line that takes a level clears no flag, but for the reset line at 0 (R148 to R150). -/
theorem Receiver.flagsStay_setLine (r : Receiver) {l : Line} {v : Level} (h : ¬(l = .rst ∧ v = false)) :
    r.FlagsStay (r.setLine l v) := by
  cases l with
  | dc | bl => exact ⟨id, id⟩
  | rst =>
    cases v with
    | false => exact absurd ⟨rfl, rfl⟩ h
    | true =>
      simp only [Receiver.setLine, Receiver.resetHigh]
      split
      · exact ⟨fun _ => rfl, id⟩
      · exact ⟨id, id⟩

/-- Only the reset line driven low clears a flag; its release is not that (U12, log 32). -/
theorem Receiver.flagsStay_observe (r : Receiver) {e : Event} (hpin : e ≠ .pin .rst false)
    (hclaim : e ≠ .claim .rst false .ok) : r.FlagsStay (r.observe e) := by
  cases e with
  | openBus | closeBus | delay => exact ⟨id, id⟩
  | claim l v a =>
    cases a with
    | fail => exact ⟨id, id⟩
    | ok => exact r.flagsStay_setLine fun ⟨hl, hv⟩ => hclaim (by rw [hl, hv])
  | release l =>
    cases l with
    | dc | bl => exact ⟨id, id⟩
    | rst => exact ⟨fun _ => rfl, id⟩
  | pin l v => exact r.flagsStay_setLine fun ⟨hl, hv⟩ => hpin (by rw [hl, hv])
  | xfer bytes a =>
    cases a with
    | ok => exact r.flagsStay_feed bytes
    | fail => exact ⟨fun _ => rfl, id⟩

/-- Where a flag is cleared, the reset line was driven low. -/
theorem Receiver.resets_of_not_flagsStay {r : Receiver} {e : Event} (h : ¬r.FlagsStay (r.observe e)) :
    e = .pin .rst false ∨ e = .claim .rst false .ok := by
  by_contra hne
  obtain ⟨hpin, hclaim⟩ := not_or.mp hne
  exact h (r.flagsStay_observe hpin hclaim)

/-- In Desync, with no pixel known, losing the receiver again changes nothing (R169). -/
theorem Receiver.lose_eq_self {r : Receiver} (hd : r.desync = true) (hfb : r.fb = []) : r.lose = r := by
  rw [Receiver.lose, ← hd, ← hfb]

theorem Receiver.observe_xfer_desync {r : Receiver} (hd : r.desync = true) (hfb : r.fb = []) (bytes : List Byte)
    (a : Response) : r.observe (.xfer bytes a) = r := by
  cases a with
  | fail => exact Receiver.lose_eq_self hd hfb
  | ok =>
    simp only [Receiver.observe, Receiver.feed]
    split
    · exact Receiver.lose_eq_self hd hfb
    · exact Receiver.items_desync hd _ bytes

/-- Settles O46, by what can clear a flag. -/
theorem desyncIsStickyUntilReset : Obligations.DesyncIsStickyUntilReset := by
  intro r hd hfb
  refine ⟨Receiver.observe_xfer_desync hd hfb, fun e he => ?_, fun _ => rfl, fun r' e hv he => ?_⟩
  · exact Receiver.resets_of_not_flagsStay fun hstay => Bool.false_ne_true (he.symm.trans (hstay.1 hd))
  · exact Receiver.resets_of_not_flagsStay fun hstay => Bool.false_ne_true (he.symm.trans (hstay.2 hv))

end Sys2Proof.Machine
end

/-! ## A text (R127 to R141) -/

section
namespace Sys2Proof.Machine

theorem textCodes_one (s : State) (addr : Half) : textCodes s addr 1 = [s.textAt addr] :=
  congrArg (fun a => [s.textAt a]) (BitVec.add_zero addr)

theorem length_textCodes (s : State) (addr len : Half) : (textCodes s addr len).length = len.toNat := by
  rw [textCodes, List.length_map, List.length_range]

/-- A newline, or a character whose advanced position is past 312, moves the cursor to the next line (R128, R134). -/
theorem cursorAfter_nextLine {lsx cx cy : Half} {ch : Byte} (h : ch = 0x0A ∨ 312 < cx.toNat + 8) :
    cursorAfter lsx (cx, cy) ch = (lsx, cy + 10) := if_pos h

/-- Any other character moves it on by one pitch (R134). -/
theorem cursorAfter_advance {lsx cx cy : Half} {ch : Byte} (hn : ch ≠ 0x0A) (h : cx.toNat + 8 ≤ 312) :
    cursorAfter lsx (cx, cy) ch = (cx + 8, cy) := if_neg (not_or.mpr ⟨hn, h.not_gt⟩)

/-- The cursor of the reference rendering goes from character to character and depends on no glyph (R127). -/
theorem renderText_cursor (s : State) (lsx : Half) (p : Half × Half) (chs : List Byte) :
    (renderText s lsx p chs).2 = chs.foldl (cursorAfter lsx) p := by
  induction chs generalizing p with
  | nil => rfl
  | cons ch chs ih => exact ih (cursorAfter lsx p ch)

theorem textCursor_one (s : State) (x y addr : Half) :
    textCursor s x y addr 1 = cursorAfter x (x, y) (s.textAt addr) := by
  rw [textCursor, textCodes_one]
  rfl

theorem textPixels_one (s : State) (x y addr : Half) : textPixels s x y addr 1 = charPixels s (x, y) (s.textAt addr) := by
  rw [textPixels, textCodes_one]
  exact List.append_nil _

/-- A DRAWTEXT that has run to its end: its whole work list is sent, and its cursor is the reference's (R127, R146). -/
structure TextDrawn (s : State) (x y c addr len : Half) (t : State) : Prop where
  tr : t.tr = s.tr ++ okEvents (textWork s x y c addr len)
  rx : t.rx = rxAfter s.rx (textWork s x y c addr len)
  cursor : (t.dp.cx, t.dp.cy) = textCursor s x y addr len
  lsx : t.dp.lsx = x
  lc : t.lc = .ready
  status : t.status = ⟨.ok, 0⟩
  pc : t.pc = s.pc + 12

theorem exec_drawtext_sent {s : State} {x y c addr len : Half} (hok : s.par.ok = true) (hl : s.lc = .ready)
    (ha : AnswersOk s (textWork s x y c addr len).length) :
    ∃ t, exec (.drawtext x y c addr len) s = .next t ∧ TextDrawn s x y c addr len t := by
  obtain ⟨hsent, -⟩ := exec_drawing (i := .drawtext x y c addr len) rfl hok hl
  obtain ⟨dp, gx, ck, he, hcursor, hlsx⟩ := hsent ha
  exact ⟨_, he, rfl, rfl, hcursor, hlsx, hl, rfl, rfl⟩

/-- Settles O30, by the work list of a text that has run to its end. -/
theorem drawtextDrawsTheReferenceText : Obligations.DrawtextDrawsTheReferenceText := by
  intro s x y c addr len hok hl ha
  obtain ⟨t, he, hd⟩ := exec_drawtext_sent hok hl ha
  exact ⟨t, he, hd.tr, hd.cursor, hd.lsx, hd.lc, hd.status, hd.pc⟩

/-- Settles O31: the receiver writes the colour at each pixel of the work list, in order. -/
theorem drawtextChangesExactlyTheLitPixels : Obligations.DrawtextChangesExactlyTheLitPixels := by
  intro s x y c addr len hok hl hs hp ha
  obtain ⟨t, he, hd⟩ := exec_drawtext_sent hok hl ha
  obtain ⟨hsynced, hfb⟩ := rxAfter_pixels (Params.one_le_chunkMax hok) hs (textPixels s x y addr len) c hp
  refine ⟨t, he, ?_⟩
  rw [hd.rx, textWork]
  exact ⟨hsynced, fun x' y' => hfb ▸ read_writes s.rx.fb (textPixels s x y addr len) c x' y'⟩

/-- A text that lights no pixel emits no event (R141). -/
theorem exec_drawtext_unlit {s : State} {x y c addr len : Half} (hok : s.par.ok = true) (hl : s.lc = .ready)
    (hp : textPixels s x y addr len = []) :
    ∃ t, exec (.drawtext x y c addr len) s = .next t ∧ TextDrawn s x y c addr len t ∧ t.tr = s.tr ∧ t.rx = s.rx := by
  have hw : textWork s x y c addr len = [] := by
    rw [textWork, hp]
    rfl
  obtain ⟨t, he, hd⟩ := exec_drawtext_sent (s := s) (x := x) (y := y) (c := c) (addr := addr) (len := len) hok hl
    (hw ▸ fun _ h => absurd h (Nat.not_lt_zero _))
  refine ⟨t, he, hd, ?_, ?_⟩
  · rw [hd.tr, hw, okEvents_nil, List.append_nil]
  · rw [hd.rx, hw, rxAfter_nil]

/-- Settles O32: neither text lights a pixel. -/
theorem emptyTextAndNewlineEmitNothing : Obligations.EmptyTextAndNewlineEmitNothing := by
  intro s x y c addr hok hl
  refine ⟨?_, fun hch => ?_⟩
  · obtain ⟨t, he, hd, htr, hrx⟩ := exec_drawtext_unlit (c := c) hok hl (show textPixels s x y addr 0 = [] from rfl)
    obtain ⟨hcx, hcy⟩ := Prod.ext_iff.mp hd.cursor
    exact ⟨t, he, htr, hrx, hd.status, hd.lc, hcx, hcy, hd.lsx⟩
  · have hunlit : textPixels s x y addr 1 = [] := by
      rw [textPixels_one, hch]
      rfl
    obtain ⟨t, he, hd, htr, hrx⟩ := exec_drawtext_unlit (c := c) hok hl hunlit
    have hcursor := hd.cursor
    rw [textCursor_one, cursorAfter_nextLine (.inl hch)] at hcursor
    obtain ⟨hcx, hcy⟩ := Prod.ext_iff.mp hcursor
    exact ⟨t, he, htr, hrx, hd.status, hd.lc, hcx, hcy⟩

/-- Settles O33, by the two cases of the cursor's rule. -/
theorem cursorAdvancesAndWraps : Obligations.CursorAdvancesAndWraps := by
  intro s x y c addr hok hl hch ha
  obtain ⟨t, he, hd⟩ := exec_drawtext_sent hok hl ha
  have hcursor := hd.cursor
  rw [textCursor_one] at hcursor
  refine ⟨t, he, hd.status, fun hx => ?_, fun hx => ?_⟩
  · rw [cursorAfter_nextLine (.inr (by omega))] at hcursor
    exact Prod.ext_iff.mp hcursor
  · rw [cursorAfter_advance hch (by omega)] at hcursor
    exact Prod.ext_iff.mp hcursor

/-- From the left edge the cursor advances 39 times, and the 40th character of a line wraps it (R134, R136). -/
theorem cursor_from_leftEdge (y : Half) {chs : List Byte} (hn : ∀ ch ∈ chs, ch ≠ 0x0A) (hlen : chs.length ≤ 40) :
    chs.foldl (cursorAfter 0) (0, y) =
      if chs.length = 40 then (0, y + 10) else (8 * BitVec.ofNat 16 chs.length, y) := by
  induction chs using List.reverseRecOn with
  | nil => rfl
  | append_singleton chs ch ih =>
    rw [List.length_append, List.length_singleton] at hlen ⊢
    have hx : (8 * BitVec.ofNat 16 chs.length).toNat = 8 * chs.length := by
      bv_omega
    rw [List.foldl_append, ih (fun c hc => hn c (List.mem_append_left _ hc)) (by omega), if_neg (by omega),
      List.foldl_cons, List.foldl_nil]
    by_cases hlast : chs.length + 1 = 40
    · rw [if_pos hlast, cursorAfter_nextLine (.inr (by omega))]
    · rw [if_neg hlast, cursorAfter_advance (hn ch (by simp)) (by omega), BitVec.ofNat_add, BitVec.mul_add]
      rfl

/-- Settles O34: the cursor follows the line of characters from the left edge. -/
theorem fortyCharactersFillALine : Obligations.FortyCharactersFillALine := by
  intro s y c addr len hok hl hn hlen ha
  obtain ⟨t, he, hd⟩ := exec_drawtext_sent hok hl ha
  have hcursor := cursor_from_leftEdge y hn ((length_textCodes s addr len).trans_le hlen)
  rw [length_textCodes, BitVec.ofNat_toNat, BitVec.setWidth_eq] at hcursor
  exact ⟨t, he, hd.status, hd.cursor.trans ((renderText_cursor s 0 (0, y) _).trans hcursor)⟩

/-! ### The fallback glyph (R129) -/

theorem ne_newline_of_fallback {ch : Byte} (h : 128 ≤ ch.toNat) : ch ≠ 0x0A := by
  rintro rfl
  exact absurd h (by decide)

theorem charPixels_fallback (s : State) (p : Half × Half) {ch : Byte} (h : 128 ≤ ch.toNat) :
    charPixels s p ch = charPixels s p 0x3F := by
  rw [charPixels, if_neg (ne_newline_of_fallback h), if_pos h]
  rfl

theorem cursorAfter_congr (lsx : Half) (p : Half × Half) {a b : Byte} (ha : a ≠ 0x0A) (hb : b ≠ 0x0A) :
    cursorAfter lsx p a = cursorAfter lsx p b := by
  simp only [cursorAfter, ha, hb]

theorem textAt_write (s : State) (addr : Half) (v : Byte) :
    State.textAt { s with text := Mem.write s.text addr.toNat v } addr = v := by
  rw [State.textAt, Memory.read, Mem.read_write_same, Option.getD_some]

/-- Two runs end alike: the same events, the same receiver, the same status, the same lifecycle state. -/
structure SameOutcome (t u : State) : Prop where
  tr : u.tr = t.tr
  rx : u.rx = t.rx
  status : u.status = t.status
  lc : u.lc = t.lc

/-- A drawing operation over another TEXT with the same work list ends in the same way, refused, `OK` or broken off. -/
theorem exec_drawing_withText {s : State} {i : Instr} (m : Memory) (hi : i.isDrawing = true) (hok : s.par.ok = true)
    (hw : drawWork { s with text := m } i = drawWork s i) :
    ∃ t u, exec i s = .next t ∧ exec i { s with text := m } = .next u ∧ SameOutcome t u ∧
      (t.status.status = .ok → DrawRegs s i t ∧ DrawRegs { s with text := m } i u) := by
  by_cases hl : s.lc = .ready
  · obtain ⟨hsent, hstopped⟩ := exec_drawing hi hok hl
    obtain ⟨hsent', hstopped'⟩ := exec_drawing (s := { s with text := m }) hi hok hl
    simp only [hw] at hsent' hstopped'
    rcases answers_cases s (drawWork s i).length with ha | ⟨k, hk, hf⟩
    · obtain ⟨_, _, _, he, hregs⟩ := hsent ha
      obtain ⟨_, _, _, he', hregs'⟩ := hsent' ha
      exact ⟨_, _, he, he', ⟨rfl, rfl, rfl, rfl⟩, fun _ => ⟨hregs, hregs'⟩⟩
    · obtain ⟨_, _, _, he, -⟩ := hstopped k hk hf
      obtain ⟨_, _, _, he', -⟩ := hstopped' k hk hf
      exact ⟨_, _, he, he', ⟨rfl, rfl, rfl, rfl⟩, fun h => Status.noConfusion h⟩
  · exact ⟨_, _, exec_drawing_refused hi hok hl, exec_drawing_refused (s := { s with text := m }) hi hok hl,
      ⟨rfl, rfl, rfl, rfl⟩, fun h => Status.noConfusion h⟩

/-- Settles O35: both texts have the same pixels and the same cursor. -/
theorem codesFrom128AreRenderedAsQuestionMarks : Obligations.CodesFrom128AreRenderedAsQuestionMarks := by
  intro s x y c addr hok hch
  have hpixels : textPixels { s with text := Mem.write s.text addr.toNat 0x3F } x y addr 1 = textPixels s x y addr 1 := by
    rw [textPixels_one, textPixels_one, textAt_write, charPixels_fallback s (x, y) hch]
    rfl
  have hcursor : textCursor { s with text := Mem.write s.text addr.toNat 0x3F } x y addr 1 = textCursor s x y addr 1 := by
    rw [textCursor_one, textCursor_one, textAt_write]
    exact cursorAfter_congr x (x, y) (by decide) (ne_newline_of_fallback hch)
  have hwork : drawWork { s with text := Mem.write s.text addr.toNat 0x3F } (.drawtext x y c addr 1) =
      drawWork s (.drawtext x y c addr 1) := by
    rw [drawWork, drawWork, textWork, textWork, hpixels]
  obtain ⟨t, u, ht, hu, hsame, hregs⟩ := exec_drawing_withText _ rfl hok hwork
  refine ⟨t, u, ht, hu, hsame.tr, hsame.rx, hsame.status, hsame.lc, fun hst => ?_⟩
  obtain ⟨⟨hcur, -⟩, hcur', -⟩ := hregs hst
  exact Prod.ext_iff.mp ((hcur'.trans hcursor).trans hcur.symm)

end Sys2Proof.Machine
end

/-! ## The receiver's rules (R149 to R167) -/

section
namespace Sys2Proof.Machine

/-- Settles O49: a step adds events to the trace, and the receiver sees exactly these. -/
theorem receiverFollowsTheTrace : Obligations.ReceiverFollowsTheTrace := by
  intro s t hs h
  obtain ⟨evs, -, htr, hrx, -⟩ := step_grows h
  calc t.rx = evs.foldl Receiver.observe (Receiver.after s.tr) := hs ▸ hrx
    _ = Receiver.after (s.tr ++ evs) := (List.foldl_append ..).symm
    _ = Receiver.after t.tr := by rw [htr]

/-- Settles O39, by what the receiver makes of each command and its one parameter. -/
theorem receiverStoresFormatAndOrientation : Obligations.ReceiverStoresFormatAndOrientation := by
  intro s p hok hl hr ha
  have hm := Params.one_le_chunkMax hok
  have hlen (c : WireCmd) : (cmdWork c ++ dataWork s.par.chunkMax [p]).length ≤ 2 := by
    rw [dataWork_single p hm]
    exact Nat.le_refl 2
  constructor
  · obtain ⟨t, he, -, hrx⟩ := exec_wire_sent (i := .wPixfmt p) rfl hok (ha.mono (hlen .pixfmt))
    exact ⟨t, he, hrx.trans (rxAfter_pixfmt hm hl hr p)⟩
  · obtain ⟨t, he, -, hrx⟩ := exec_wire_sent (i := .wMemctl p) rfl hok (ha.mono (hlen .memctl))
    exact ⟨t, he, hrx.trans (rxAfter_memctl hm hl hr p)⟩

/-- The wait after sleep-out is not over: there was none, or it was less than 120 ms ago (R155). -/
theorem Receiver.settled_eq_false_iff (r : Receiver) :
    r.settled = false ↔ r.sinceSlpout = none ∨ ∃ ms, r.sinceSlpout = some ms ∧ ms < 120 := by
  unfold Receiver.settled
  cases r.sinceSlpout with
  | none => simp
  | some ms =>
    have hwait : decide (Config.slpoutWait ≤ ms) = false ↔ ms < 120 := decide_eq_false_iff_not.trans Nat.not_le
    simp [hwait]

/-- Settles O40, by what the receiver makes of each of the two commands. -/
theorem receiverWakesAndTurnsOn : Obligations.ReceiverWakesAndTurnsOn := by
  intro s hok hl hr ha
  have ⟨hdesync, _, _⟩ := hl
  constructor
  · obtain ⟨t, he, -, hrx⟩ := exec_wire_sent (i := .wSlpout) rfl hok ha
    replace hrx := hrx.trans (rxAfter_slpout hl hr)
    refine ⟨t, he, ?_⟩
    rw [hrx]
    exact ⟨rfl, rfl, hdesync⟩
  · obtain ⟨t, he, -, hrx⟩ := exec_wire_sent (i := .wDispon) rfl hok ha
    replace hrx := hrx.trans (rxAfter_dispon hl hr)
    refine ⟨t, he, ?_⟩
    rw [hrx]
    refine ⟨rfl, hdesync, ?_⟩
    rw [← Receiver.settled_eq_false_iff, Bool.or_eq_true, Bool.not_eq_true']

/-- Settles O43: the command is Desync unless the window, the format and the orientation are as R158 to R160 ask, and then the
pixels are too many. -/
theorem badMemoryWritesLoseTheReceiver : Obligations.BadMemoryWritesLoseTheReceiver := by
  intro s cs hok hl hr ha hbad
  have hm := Params.one_le_chunkMax hok
  obtain ⟨t, he, -, hrx⟩ := exec_wire_sent (i := .wMemwr cs) rfl hok ha
  refine ⟨t, he, ?_⟩
  rw [hrx, wireWork]
  rcases rxAfter_memwr_cases s.rx with hd | ⟨x0, x1, y0, y1, hw⟩
  · rw [rxAfter_append]
    exact rxAfter_desync _ hd
  obtain ⟨-, -, hpix, hmad⟩ := hw.synced
  rcases hbad with hseq | hwin | hfmt | hori | ⟨a0, a1, b0, b1, hxs, hxe, hys, hye, hlt⟩
  · exact absurd hw.winseq hseq
  · exact absurd ((Receiver.windowOk_iff hw.xs hw.xe hw.ys hw.ye).mpr hw.panel) (ne_true_of_eq_false hwin)
  · exact absurd hpix hfmt
  · exact absurd hori (Option.isSome_iff_ne_none.mp hmad)
  · obtain rfl := Option.some.inj (hw.xs.symm.trans hxs)
    obtain rfl := Option.some.inj (hw.xe.symm.trans hxe)
    obtain rfl := Option.some.inj (hw.ys.symm.trans hys)
    obtain rfl := Option.some.inj (hw.ye.symm.trans hye)
    exact rxAfter_memwr_excess hm hw cs hlt

/-- A pulse of the reset line is Desync exactly where it was shorter than 10 ms (R150). -/
theorem Receiver.resetHigh_desync {r : Receiver} (hd : r.desync = false) (hr : r.rstn = some false) :
    r.resetHigh.desync = true ↔ r.quiet < 10 := by
  by_cases hq : r.quiet < 10
  · have hshort : r.rstn = some false ∧ r.quiet < Config.resetHold := ⟨hr, hq⟩
    simp only [Receiver.resetHigh, if_pos hshort, Receiver.lose, hq]
  · have hlong : ¬(r.rstn = some false ∧ r.quiet < Config.resetHold) := fun h => hq h.2
    simp only [Receiver.resetHigh, if_neg hlong, hd, hq, Bool.false_eq_true]

/-- An item that comes while the reset line is not at 1, or too soon after it moved, is Desync (R149, R150). -/
theorem Receiver.item_deaf {r : Receiver} (h : r.rstn ≠ some true ∨ r.quiet < Config.resetHold) (v : Level) (b : Byte) :
    (r.item v b).desync = true := by
  rw [Receiver.item, if_pos h]
  split
  case isTrue hd => exact hd
  case isFalse => rfl

/-- A known command other than W_MEMWR is no Desync of its own (R152 to R157). -/
theorem Receiver.dispatch_desync (r : Receiver) {b : Byte} {c : WireCmd} (hb : WireCmd.ofCode b = some c) (hc : c ≠ .memwr) :
    (r.dispatch b).desync = r.desync := by
  rw [Receiver.dispatch, hb]
  cases c with
  | pixfmt | memctl | slpout | dispon | colset | rowset => rfl
  | memwr => exact absurd rfl hc

/-- Settles O44, by the two sides of 10 ms for the pulse and for the item. -/
theorem resetPulseTiming : Obligations.ResetPulseTiming := by
  intro r v b hd
  refine ⟨Receiver.resetHigh_desync hd, fun _ hq => Receiver.item_deaf (.inr hq) v b,
    fun hr hq => Receiver.item_listening ⟨hd, hr, hq⟩ v b, fun hr hq hrest c hb hc => ?_,
    fun hr => Receiver.item_deaf (.inl hr) v b⟩
  have hitem : r.item false b = r.command b := Receiver.item_listening ⟨hd, hr, hq⟩ false b
  rw [hitem, Receiver.command_atRest hrest]
  exact (Receiver.dispatch_desync _ hb hc).trans hd

/-- A command byte where a parameter or a pixel is awaited is Desync (R164, R166). -/
theorem Receiver.command_inProgress {r : Receiver} (h : r.pend ≠ none ∨ r.payloadOpen = true) (b : Byte) :
    r.command b = r.lose :=
  if_pos (Bool.or_eq_true_iff.mpr (h.imp_left Option.isSome_iff_ne_none.mpr))

/-- An unknown command byte is Desync, whatever is in progress (R167). -/
theorem Receiver.command_unknown (r : Receiver) {b : Byte} (hb : WireCmd.ofCode b = none) :
    (r.command b).desync = true := by
  unfold Receiver.command
  split
  · rfl
  · rw [Receiver.dispatch, hb]
    rfl

/-- A data byte where nothing is awaited is Desync (R165). -/
theorem Receiver.datum_unawaited {r : Receiver} (hp : r.pend = none) (hw : r.writing = false) (b : Byte) :
    r.datum b = r.lose := by
  simp only [Receiver.datum, hp, hw, Bool.false_eq_true, if_false]

/-- Settles O45: a command or a data byte that does not fit what is in progress. -/
theorem brokenStreamsLoseTheReceiver : Obligations.BrokenStreamsLoseTheReceiver := by
  intro r b hl
  have hcmd : r.item false b = r.command b := Receiver.item_listening hl false b
  have hdat : r.item true b = r.datum b := Receiver.item_listening hl true b
  refine ⟨fun hp => ?_, fun ho => ?_, fun hb => ?_, fun hp hw => ?_, fun hp hw hr => Receiver.item_excess hl hp hw hr b⟩
  · rw [hcmd, Receiver.command_inProgress (.inl hp)]
    rfl
  · rw [hcmd, Receiver.command_inProgress (.inr ho)]
    rfl
  · rw [hcmd]
    exact r.command_unknown hb
  · rw [hdat, Receiver.datum_unawaited hp hw]
    rfl

end Sys2Proof.Machine
end

/-! ## What holds of every step, and at reset -/

section
namespace Sys2Proof.Machine

/-- Settles O50: the three inputs are not written (R29, R56), and no event breaks the frame memory's canonical form. -/
theorem memoriesStayCanonical : Obligations.MemoriesStayCanonical := by
  rintro s t ⟨hcmd, htext, hglyph, hfb⟩ h
  obtain ⟨evs, -, -, hrx, -, hcmd', -, htext', hglyph'⟩ := step_grows h
  refine ⟨hcmd' ▸ hcmd, htext' ▸ htext, hglyph' ▸ hglyph, ?_⟩
  rw [hrx]
  exact Receiver.observes_wf evs hfb

/-- Log 1: the wire instruction at the front of the placed items is fetched, with the items after it left placed. -/
theorem fetch_wire {s : State} {i : Instr} {rest : List Item} (hw : s.work = [])
    (hd : decodeWire s.stream = .ok (i, rest)) : fetch s = .run i { s with stream := rest } := by
  cases hs : s.stream with
  | nil =>
    rw [hs] at hd
    cases hd
  | cons it items =>
    rw [hs] at hd
    simp only [fetch, hw, hs, hd]

/-- Settles O6, by what is fetched. -/
theorem stepRunsTheNextWireInstruction : Obligations.StepRunsTheNextWireInstruction := by
  intro s i rest hw hd
  rw [step, fetch_wire hw hd]

theorem lifecycleOk_reset : State.reset.LifecycleOk :=
  ⟨⟨rfl, rfl⟩, Lifecycle.noConfusion, fun _ => rfl, Lifecycle.noConfusion, rfl, rfl, rfl⟩

/-- Settles O11: at reset no memory, event or work is there, nothing is claimed, and the backlight line has no level. -/
theorem resetMeetsTheInvariants : Obligations.ResetMeetsTheInvariants := by
  have hok : State.reset.par.ok = true := by decide
  refine ⟨⟨rfl, rfl, rfl, rfl⟩, rfl, ⟨⟨rfl, rfl⟩, rfl, Nat.zero_le _, Nat.two_pow_pos 32⟩, lifecycleOk_reset, ?_, ?_, ?_, ?_, hok⟩
  · exact ⟨lifecycleOk_reset, hok, Bool.false_ne_true, fun hbl => nomatch hbl⟩
  · exact (balanced_iff _).mpr ⟨lifecycleOk_reset, fun r => by cases r <;> rfl⟩
  · exact ⟨⟨rfl, rfl⟩, .inl rfl⟩
  · exact fun w hw => nomatch hw

/-! ## A configuration that breaks rule R7 -/

theorem configured_illFormed {s : State} (f : State → State) (hok : s.par.ok = false) :
    configured s f = .refused .illFormedConfig :=
  if_neg (Bool.not_eq_true _ ▸ hok)

theorem wireOp_illFormed (body : State → Flow) {s : State} (hok : s.par.ok = false) :
    wireOp body s = .refused .illFormedConfig :=
  configured_illFormed _ hok

/-- Every instruction is a host operation or a wire instruction, and both are refused. -/
theorem exec_illFormed (i : Instr) {s : State} (hok : s.par.ok = false) : exec i s = .refused .illFormedConfig := by
  cases i with
  | wPixfmt | wMemctl | wSlpout | wDispon | wColset | wRowset | wMemwr => exact wireOp_illFormed _ hok
  | init | teardown | setwin | drawpixel | fillscreen | drawtext => exact hostOp_illFormed _ _ hok

/-- The state in which a step runs what it has found. -/
def Fetched.state : Fetched → State
  | .idle s => s
  | .run _ s => s
  | .illegal _ s => s
  | .work _ s => s
  | .raw _ s => s

/-- To fetch is to take from the work list or from the placed items; the parameters are not touched (R29). -/
theorem fetch_state_par (s : State) : (fetch s).state.par = s.par := by
  unfold fetch
  split
  · rfl
  · split <;> rfl
  · split
    · split <;> rfl
    · rfl

/-- Whatever a step finds is refused, the end of the program too. -/
theorem step_illFormed {s : State} (hok : s.par.ok = false) : step s = .refused .illFormedConfig := by
  have hfetched : (fetch s).state.par.ok = false := (congrArg Params.ok (fetch_state_par s)).trans hok
  unfold step
  generalize fetch s = f at hfetched
  cases f with
  | idle t => exact configured_illFormed _ hfetched
  | run i t => exact exec_illFormed i hfetched
  | illegal op t => exact configured_illFormed _ hfetched
  | work w t => exact configured_illFormed _ hfetched
  | raw it t => exact wireOp_illFormed _ hfetched

/-- Settles O20: neither an instruction nor what a step finds has a meaning. -/
theorem illFormedConfigurationsAreRefused : Obligations.IllFormedConfigurationsAreRefused := by
  intro s hok
  exact ⟨fun i => exec_illFormed i hok, step_illFormed hok⟩

end Sys2Proof.Machine
end
